-- ==== Sys2Proof/Word.lean ====
section
/-! DEFINITION. The word types of the core (00_scope.md rules R6, R7). -/

namespace Sys2Proof

/-- `u64`: a register, a value, a virtual address or the program counter (00_scope.md rules R5, R6). -/
abbrev Word := BitVec 64

/-- `Byte`: an 8-bit vector (00_scope.md rule R6). -/
abbrev Byte := BitVec 8

/-- A text is a sequence of bytes, read as ASCII (30_encoding.md rule R80). -/
abbrev Text := List Byte

end Sys2Proof
end

