-- ==== Sys2Proof/Syntax.lean ====
section
/-! DEFINITION. What an instruction is: register views, operands, opcodes, and one constructor per
row of the opcode table (30_encoding.md rules R88, R102, R107). -/

namespace Sys2Proof

/-- The number of a general-purpose register, 0 to 15 (10_state.md rule R20). -/
abbrev Reg := Fin 16

/-- Register A (10_state.md rule R20). -/
abbrev Reg.A : Reg := 0
/-- Register B. -/
abbrev Reg.B : Reg := 1
/-- Register C. -/
abbrev Reg.C : Reg := 2
/-- Register D. -/
abbrev Reg.D : Reg := 3
/-- Register SI. -/
abbrev Reg.SI : Reg := 4
/-- Register DI. -/
abbrev Reg.DI : Reg := 5
/-- Register BP, the base pointer of LEAVE (10_state.md rule R27). -/
abbrev Reg.BP : Reg := 6
/-- Register SP, the stack pointer of PUSH, POP, LEAVE, CALL and RET (10_state.md rule R27). -/
abbrev Reg.SP : Reg := 7
/-- Register R8. -/
abbrev Reg.R8 : Reg := 8
/-- Register R9. -/
abbrev Reg.R9 : Reg := 9
/-- Register R10. -/
abbrev Reg.R10 : Reg := 10
/-- Register R11. -/
abbrev Reg.R11 : Reg := 11
/-- Register R12. -/
abbrev Reg.R12 : Reg := 12
/-- Register R13. -/
abbrev Reg.R13 : Reg := 13
/-- Register R14. -/
abbrev Reg.R14 : Reg := 14
/-- Register R15. -/
abbrev Reg.R15 : Reg := 15

/-- The five kinds of view of a register (10_state.md rule R21). -/
inductive ViewKind where
  /-- 64 bits, bytes 0..7. -/
  | Q
  /-- 32 bits, bytes 0..3. -/
  | D
  /-- 16 bits, bytes 0..1. -/
  | W
  /-- 8 bits, byte 0. -/
  | L
  /-- 8 bits, byte 1. -/
  | H
  deriving DecidableEq, Repr, Inhabited

/-- A view, the location a register operand carries: a register number and a kind (10_state.md rule R21). -/
structure View where
  reg : Reg
  kind : ViewKind
  deriving DecidableEq, Repr, Inhabited

/-- The scale of a memory operand: one of 1, 2, 4 and 8 and nothing else (30_encoding.md rules R88, R93). -/
inductive Scale where
  | one | two | four | eight
  deriving DecidableEq, Repr, Inhabited

/-- A memory operand: the nine memory tags, each with the fields its tag has present
(30_encoding.md rule R88). Here `b` is the base, `x` the index and `k` the scale. -/
inductive MemOp where
  /-- `MM_IMM` -/
  | imm (i : Word)
  /-- `MM_REG` -/
  | reg (b : View)
  /-- `MM_IMM_REG` -/
  | immReg (i : Word) (b : View)
  /-- `MM_REG1_REG2` -/
  | reg1Reg2 (b x : View)
  /-- `MM_IMM_REG1_REG2` -/
  | immReg1Reg2 (i : Word) (b x : View)
  /-- `MM_REG2_S` -/
  | reg2S (x : View) (k : Scale)
  /-- `MM_IMM_REG2_S` -/
  | immReg2S (i : Word) (x : View) (k : Scale)
  /-- `MM_REG1_REG2_S` -/
  | reg1Reg2S (b x : View) (k : Scale)
  /-- `MM_IMM_REG1_REG2_S` -/
  | immReg1Reg2S (i : Word) (b x : View) (k : Scale)
  deriving DecidableEq, Repr

/-- An operand as the parser gives it: twelve tags, nine of them memory tags (30_encoding.md rule R88). -/
inductive Operand where
  | empty
  | imm (v : Word)
  | reg (l : View)
  | mem (m : MemOp)
  deriving DecidableEq, Repr

/-- The class of an operand, which the admitted forms speak of (30_encoding.md rule R102). -/
inductive OperandClass where
  | Empty | Immediate | Register | Memory
  deriving DecidableEq, Repr

/-- The eleven opcodes (00_scope.md rule R1). -/
inductive Opcode where
  | MOV | PUSH | POP | LEAVE | CALL | RET | ADD | SUB | CMP | JNE | JMP
  deriving DecidableEq, Repr

/-- The instructions: one constructor per row of spec/opcode_table.json, that is, per opcode and
admitted form (30_encoding.md rule R102). The first argument is the source (AT&T order, rule R81). -/
inductive Instr where
  /-- MOV {Register, Register} (41_mov.md rule R150). -/
  | movRR (src dst : View)
  /-- MOV {Register, Memory} (41_mov.md rule R151). -/
  | movRM (src : View) (dst : MemOp)
  /-- MOV {Memory, Register} (41_mov.md rule R152). -/
  | movMR (src : MemOp) (dst : View)
  /-- MOV {Immediate, Register} (41_mov.md rule R153). -/
  | movIR (src : Word) (dst : View)
  /-- PUSH {Register, ∅} (42_stack.md rule R160). -/
  | pushR (src : View)
  /-- POP {Register, ∅}: the destination, written in the source position (42_stack.md rule R161). -/
  | popR (dst : View)
  /-- LEAVE {∅, ∅} (42_stack.md rule R162). -/
  | leave
  /-- CALL {Immediate, ∅} (43_call_ret.md rule R170). -/
  | callI (target : Word)
  /-- CALL {Memory, ∅} (43_call_ret.md rule R170). -/
  | callM (target : MemOp)
  /-- RET {∅, ∅} (43_call_ret.md rule R171). -/
  | ret
  /-- ADD {Register, Register} (44_alu.md rule R190). -/
  | addRR (src dst : View)
  /-- SUB {Immediate, Register} (44_alu.md rule R191). -/
  | subIR (src : Word) (dst : View)
  /-- CMP {Immediate, Memory} (44_alu.md rule R192). -/
  | cmpIM (src : Word) (dst : MemOp)
  /-- JNE {Immediate, ∅} (45_branch.md rule R200). -/
  | jneI (target : Word)
  /-- JNE {Memory, ∅} (45_branch.md rule R200). -/
  | jneM (target : MemOp)
  /-- JMP {Immediate, ∅} (45_branch.md rule R201). -/
  | jmpI (target : Word)
  /-- JMP {Memory, ∅} (45_branch.md rule R201). -/
  | jmpM (target : MemOp)
  deriving DecidableEq, Repr

end Sys2Proof
end

