-- ==== Sys2Proof/Config.lean ====
section
/-! DEFINITION. The parameters the spec gives the model (00_scope.md rule R5), as plain data; the
names of the errors (60_exceptions.md rules R211, R212); and the free values, which have no body. -/

namespace Sys2Proof

/-- The eight kinds of fatal error (60_exceptions.md rule R211). Every one stops the run, so each is
safe: nothing can be claimed of what follows it. -/
inductive ErrorKind where
  /-- Code 1, raised by the parser: the mnemonic is not in the table (30_encoding.md rule R87). Safe. -/
  | unknownOpcode
  /-- Code 2, raised by the parser: a register token is not a known spelling (30_encoding.md rules R91, R94). Safe. -/
  | unknownRegisterName
  /-- Code 3, raised by the parser: a decimal scale is not 1, 2, 4 or 8 (30_encoding.md rule R93). Safe. -/
  | illegalScale
  /-- Code 4, raised by the form check: the form is not admitted (30_encoding.md rule R103). Safe. -/
  | unsupportedOperandForm
  /-- Code 5, raised by the parser: the operand text matches no grammar (30_encoding.md rules R85, R89, R90, R93, R94). Safe. -/
  | malformedOperand
  /-- Code 6, raised by the fetch: the pc is no slot's address (40_dispatch.md rule R131). Safe. -/
  | fetchOutOfStream
  /-- Code 7, raised by a load or a store past the end of the store (20_memory.md rules R53, R54). Safe. -/
  | memoryOutOfRange
  /-- Code 8, raised by a store that touches the code region (20_memory.md rule R54). Safe. -/
  | storeToCode
  deriving DecidableEq, Repr, Inhabited

/-- The `field` of an error record (60_exceptions.md rule R212). -/
inductive ErrorField where
  | mnemonic | src | dst | form | execute
  deriving DecidableEq, Repr, Inhabited

/-- What the parser reports about a slot it cannot decode: the kind, the field and the offending
text of the error record to come (60_exceptions.md rule R212). -/
structure DecodeError where
  kind : ErrorKind
  field : ErrorField
  text : Text
  deriving DecidableEq, Repr

/-- `REGISTER_SPELLINGS` and `MNEMONIC_TABLE` (00_scope.md rule R5). The first row whose text is
equal to the looked-up text counts. -/
structure Tables where
  registers : List (Text × View)
  mnemonics : List (Text × Opcode)
  deriving DecidableEq, Repr

/-- `PROGRAM`: slot k stands at address `base + k*W` (00_scope.md rule R5). Its N is the length of `slots`. -/
structure Program where
  base : Word
  slots : List Text
  deriving DecidableEq, Repr

/-- `JMP_SEMANTICS` (00_scope.md rule R5, 45_branch.md rule R201). -/
inductive JmpSemantics where
  | guardedStay | guardedFallthrough | unconditional
  deriving DecidableEq, Repr

/-- `TRANSLATE` as plain data (20_memory.md rule R52). The rule names wrapping by modulo and masking
to an index-bit width as examples of a pluggable scheme and 95_test_vectors.md uses the identity;
`pluggable k` is any total function at all, the k-th of a family with no body (DESIGN CHOICE, log entry 3). -/
inductive Translation where
  | identity
  | modulo (n : Nat)
  | mask (bits : Nat)
  | pluggable (k : Nat)
  deriving DecidableEq, Repr

/-- The parameters of 00_scope.md rule R5 that are not fixed. They stand in the state as plain data,
which no step changes (DESIGN CHOICE, log entry 2). -/
structure Config where
  /-- `SLOT_WIDTH` (W), in bytes. -/
  slotWidth : Nat
  /-- `PROGRAM`. -/
  program : Program
  /-- `CODE_REGION`: physical byte addresses, strictly rising. -/
  codeRegion : List Nat
  /-- `MEM_SIZE`: the number of bytes of the physical store. -/
  memSize : Nat
  /-- `TRANSLATE`. -/
  translate : Translation
  /-- `REGISTER_SPELLINGS` and `MNEMONIC_TABLE`. -/
  tables : Tables
  /-- `JMP_SEMANTICS`. -/
  jmpSemantics : JmpSemantics
  /-- `EXIT_PC`. -/
  exitPc : Word
  deriving DecidableEq, Repr

/-- Free value: the translation plugged in as number `k` (20_memory.md rule R52: a total function;
the policy is out of the core's scope). Log entry 3. -/
opaque Config.pluggableTranslate : Nat → Word → Nat

/-- Free value: the `field` of the record of an error for which 60_exceptions.md rule R212 names
none, which is a fetch error only. It may depend on the kind and on the pc. Log entry 6. -/
opaque Config.freeErrorField : ErrorKind → Word → ErrorField

/-- Free value: the `offending_text` of the record of an error for which 60_exceptions.md rule R212
names no text: a fetch error, and the failure of an access that no operand text names. It may
depend on the kind, the pc and the slot's text. Log entry 6. -/
opaque Config.freeErrorText : ErrorKind → Word → Option Text → Text

end Sys2Proof
end

