-- ==== Sys2Proof/WellFormed.lean ====
section
/-! DEFINITION. When an instruction, the two tables and the parameters are well formed. -/

namespace Sys2Proof

/-- The views a memory operand names (30_encoding.md rule R88). -/
def MemOp.views : MemOp → List View
  | .imm _ => []
  | .reg b => [b]
  | .immReg _ b => [b]
  | .reg1Reg2 b x => [b, x]
  | .immReg1Reg2 _ b x => [b, x]
  | .reg2S x _ => [x]
  | .immReg2S _ x _ => [x]
  | .reg1Reg2S b x _ => [b, x]
  | .immReg1Reg2S _ b x _ => [b, x]

/-- The views an instruction names. -/
def Instr.views : Instr → List View
  | .movRR l d => [l, d]
  | .movRM l m => l :: m.views
  | .movMR m d => m.views ++ [d]
  | .movIR _ d => [d]
  | .pushR l => [l]
  | .popR d => [d]
  | .leave => []
  | .callI _ => []
  | .callM m => m.views
  | .ret => []
  | .addRR l d => [l, d]
  | .subIR _ d => [d]
  | .cmpIM _ m => m.views
  | .jneI _ => []
  | .jneM m => m.views
  | .jmpI _ => []
  | .jmpM m => m.views

/-- The opcode of an instruction. -/
def Instr.opcode : Instr → Opcode
  | .movRR _ _ => .MOV
  | .movRM _ _ => .MOV
  | .movMR _ _ => .MOV
  | .movIR _ _ => .MOV
  | .pushR _ => .PUSH
  | .popR _ => .POP
  | .leave => .LEAVE
  | .callI _ => .CALL
  | .callM _ => .CALL
  | .ret => .RET
  | .addRR _ _ => .ADD
  | .subIR _ _ => .SUB
  | .cmpIM _ _ => .CMP
  | .jneI _ => .JNE
  | .jneM _ => .JNE
  | .jmpI _ => .JMP
  | .jmpM _ => .JMP

/-- The view has a spelling: under the default table the `H` view of R8 to R15 has none (10_state.md rule R25). -/
def View.spelled (t : Tables) (v : View) : Bool := t.registers.any fun e => e.2 == v

/-- An instruction is well formed when it can be written as text: every view it names has a spelling
and its opcode a mnemonic. Everything else an instruction must satisfy (a legal scale, a legal memory
tag, an admitted form) is in the type. -/
def Instr.wf (t : Tables) (i : Instr) : Bool :=
  i.views.all (View.spelled t) && t.mnemonics.any fun e => e.2 == i.opcode

/-- Space and tab (30_encoding.md rule R82). -/
abbrev isWhitespace (b : Byte) : Bool := b == 0x20#8 || b == 0x09#8

/-- A register spelling is `%` and then bytes that end no operand: no NUL, whitespace, comma or
parenthesis (10_state.md rule R24, 30_encoding.md rules R80 to R84; DESIGN CHOICE, log entry 10). -/
def Tables.spellingWf (s : Text) : Bool :=
  s.head? == some 0x25#8 &&
    s.all fun b => !(b == 0#8 || isWhitespace b || b == 0x2c#8 || b == 0x28#8 || b == 0x29#8)

/-- A mnemonic is not empty (30_encoding.md rule R87) and holds no NUL and no whitespace (rules R80, R83;
DESIGN CHOICE, log entry 10). -/
def Tables.mnemonicWf (s : Text) : Bool :=
  !s.isEmpty && s.all fun b => !(b == 0#8 || isWhitespace b)

/-- The tables are maps (no text twice) from well-formed texts, with the 72 spellings of 10_state.md rule R24. -/
def Tables.wf (t : Tables) : Bool :=
  t.registers.length == 72 &&
  (t.registers.all fun e => Tables.spellingWf e.1) &&
  decide (t.registers.map Prod.fst).Nodup &&
  (t.mnemonics.all fun e => Tables.mnemonicWf e.1) &&
  decide (t.mnemonics.map Prod.fst).Nodup

/-- Every slot is `W` bytes and no slot address wraps (00_scope.md rule R5, 40_dispatch.md rule R131). -/
def Program.wf (w : Nat) (p : Program) : Bool :=
  (p.slots.all fun s => s.length == w) && decide (p.base.toNat + p.slots.length * w ≤ 2 ^ 64)

/-- The constraints 00_scope.md rule R5 states on the parameters. -/
def Config.wf (c : Config) : Bool :=
  decide (0 < c.slotWidth) && Program.wf c.slotWidth c.program &&
  decide (c.codeRegion.Pairwise (· < ·)) && decide (0 < c.memSize) && Tables.wf c.tables

end Sys2Proof
end

