-- ==== Sys2Proof/Decode.lean ====
section
/-! DEFINITION. The decoder from a slot's bytes to an instruction, total, with every rejection named
(30_encoding.md rules R80 to R107); after it the encoder, from the same tables. -/

namespace Sys2Proof

/-- ASCII characters as bytes. -/
def txt (cs : List Char) : Text := cs.map fun c => BitVec.ofNat 8 c.toNat

/-! ### The default tables -/

/-- The five default spellings of one of the registers 0 to 7 (10_state.md rule R24). -/
def spellings5 (r : Reg) (q d w h l : List Char) : List (Text × View) :=
  [(txt q, ⟨r, .Q⟩), (txt d, ⟨r, .D⟩), (txt w, ⟨r, .W⟩), (txt h, ⟨r, .H⟩), (txt l, ⟨r, .L⟩)]

/-- The four default spellings of one of the registers 8 to 15 (10_state.md rule R24). -/
def spellings4 (r : Reg) (n : List Char) : List (Text × View) :=
  [(txt n, ⟨r, .Q⟩), (txt n ++ txt ['d'], ⟨r, .D⟩), (txt n ++ txt ['w'], ⟨r, .W⟩), (txt n ++ txt ['b'], ⟨r, .L⟩)]

/-- The default `REGISTER_SPELLINGS`: 72 spellings (10_state.md rule R24; 92_eei_decisions.md D8;
PRESUMED, log entry 9). -/
def defaultRegisters : List (Text × View) :=
  spellings5 Reg.A ['%', 'r', 'a', 'x'] ['%', 'e', 'a', 'x'] ['%', 'a', 'x'] ['%', 'a', 'h'] ['%', 'a', 'l'] ++
  spellings5 Reg.B ['%', 'r', 'b', 'x'] ['%', 'e', 'b', 'x'] ['%', 'b', 'x'] ['%', 'b', 'h'] ['%', 'b', 'l'] ++
  spellings5 Reg.C ['%', 'r', 'c', 'x'] ['%', 'e', 'c', 'x'] ['%', 'c', 'x'] ['%', 'c', 'h'] ['%', 'c', 'l'] ++
  spellings5 Reg.D ['%', 'r', 'd', 'x'] ['%', 'e', 'd', 'x'] ['%', 'd', 'x'] ['%', 'd', 'h'] ['%', 'd', 'l'] ++
  spellings5 Reg.SI ['%', 'r', 's', 'i'] ['%', 'e', 's', 'i'] ['%', 's', 'i'] ['%', 's', 'i', 'h'] ['%', 's', 'i', 'l'] ++
  spellings5 Reg.DI ['%', 'r', 'd', 'i'] ['%', 'e', 'd', 'i'] ['%', 'd', 'i'] ['%', 'd', 'i', 'h'] ['%', 'd', 'i', 'l'] ++
  spellings5 Reg.BP ['%', 'r', 'b', 'p'] ['%', 'e', 'b', 'p'] ['%', 'b', 'p'] ['%', 'b', 'p', 'h'] ['%', 'b', 'p', 'l'] ++
  spellings5 Reg.SP ['%', 'r', 's', 'p'] ['%', 'e', 's', 'p'] ['%', 's', 'p'] ['%', 's', 'p', 'h'] ['%', 's', 'p', 'l'] ++
  spellings4 Reg.R8 ['%', 'r', '8'] ++
  spellings4 Reg.R9 ['%', 'r', '9'] ++
  spellings4 Reg.R10 ['%', 'r', '1', '0'] ++
  spellings4 Reg.R11 ['%', 'r', '1', '1'] ++
  spellings4 Reg.R12 ['%', 'r', '1', '2'] ++
  spellings4 Reg.R13 ['%', 'r', '1', '3'] ++
  spellings4 Reg.R14 ['%', 'r', '1', '4'] ++
  spellings4 Reg.R15 ['%', 'r', '1', '5']

/-- The default `MNEMONIC_TABLE` (30_encoding.md rule R86; 92_eei_decisions.md D9; PRESUMED, log entry 9). -/
def defaultMnemonics : List (Text × Opcode) :=
  [(txt ['m', 'o', 'v'], .MOV), (txt ['m', 'o', 'v', 'q'], .MOV), (txt ['p', 'u', 's', 'h'], .PUSH), (txt ['p', 'o', 'p'], .POP),
   (txt ['l', 'e', 'a', 'v', 'e', 'q'], .LEAVE), (txt ['c', 'a', 'l', 'l', 'q'], .CALL), (txt ['r', 'e', 't', 'q'], .RET), (txt ['a', 'd', 'd'], .ADD),
   (txt ['s', 'u', 'b'], .SUB), (txt ['c', 'm', 'p', 'q'], .CMP), (txt ['j', 'n', 'e'], .JNE), (txt ['j', 'm', 'p'], .JMP)]

/-- Both default tables. -/
def defaultTables : Tables := ⟨defaultRegisters, defaultMnemonics⟩

/-- Exact, case-sensitive lookup of a text in a table (10_state.md rule R24, 30_encoding.md rule R86). -/
def lookup {α : Type} (k : Text) : List (Text × α) → Option α
  | [] => none
  | (k', a) :: rest => if k = k' then some a else lookup k rest

/-! ### The slot and the tokeniser -/

/-- The text of a slot: the bytes before the first 00, or all of them (30_encoding.md rule R80). -/
def slotText (slot : Text) : Text := slot.takeWhile fun b => b != 0#8

/-- Remove leading whitespace (30_encoding.md rules R83, R84). -/
def ltrim (t : Text) : Text := t.dropWhile isWhitespace

/-- Remove trailing whitespace (30_encoding.md rules R83, R84). -/
def rtrim (t : Text) : Text := (t.reverse.dropWhile isWhitespace).reverse

/-- Split at the first comma at parenthesis depth 0; the depth may go below 0 (30_encoding.md rule R84). -/
def splitComma : Int → Text → Option (Text × Text)
  | _, [] => none
  | depth, c :: cs =>
    if c = 0x28#8 then (splitComma (depth + 1) cs).map fun p => (c :: p.1, p.2)
    else if c = 0x29#8 then (splitComma (depth - 1) cs).map fun p => (c :: p.1, p.2)
    else if c = 0x2c#8 ∧ depth = 0 then some ([], cs)
    else (splitComma depth cs).map fun p => (c :: p.1, p.2)

/-- The fields of an instruction text (30_encoding.md rules R81, R83, R84). -/
structure Tokens where
  mnemonic : Text
  src : Text
  dst : Text
  hasComma : Bool
  deriving DecidableEq, Repr

/-- The tokeniser (30_encoding.md rules R83, R84). A mnemonic that runs into its operand without whitespace is,
with it, the mnemonic of rule R83, where 93_implementation_defined.md I20 names another error: DESIGN CHOICE,
log entry 15. -/
def tokenise (text : Text) : Tokens :=
  let trimmed := rtrim (ltrim text)
  let mnemonic := trimmed.takeWhile fun b => !isWhitespace b
  let rest := ltrim (trimmed.dropWhile fun b => !isWhitespace b)
  match splitComma 0 rest with
  | none => ⟨mnemonic, rest, [], false⟩
  | some (l, r) => ⟨mnemonic, rtrim l, ltrim r, true⟩

/-- The operand text checks, in their order (30_encoding.md rule R85). That the error carries the operand text:
DEDUCED, log entry 7. -/
def textCheck (t : Tokens) : Option DecodeError :=
  if t.hasComma = true ∧ t.src = [] then some ⟨.malformedOperand, .src, t.src⟩
  else if t.hasComma = true ∧ t.dst = [] then some ⟨.malformedOperand, .dst, t.dst⟩
  else if t.src.any isWhitespace = true then some ⟨.malformedOperand, .src, t.src⟩
  else if t.dst.any isWhitespace = true then some ⟨.malformedOperand, .dst, t.dst⟩
  else none

/-! ### Literals and scales -/

/-- The value of a digit 0..9, a..f, A..F (30_encoding.md rule R89). -/
def hexDigit? (c : Byte) : Option Nat :=
  let n := c.toNat
  if 48 ≤ n ∧ n ≤ 57 then some (n - 48)
  else if 97 ≤ n ∧ n ≤ 102 then some (n - 87)
  else if 65 ≤ n ∧ n ≤ 70 then some (n - 55)
  else none

/-- The value of a digit of the base, 10 or 16 (30_encoding.md rule R89). -/
def digit? (base : Nat) (c : Byte) : Option Nat :=
  match hexDigit? c with
  | some d => if d < base then some d else none
  | none => none

/-- The value of digits read after a value `acc`. -/
def digitsValue (base : Nat) : Nat → Text → Option Nat
  | acc, [] => some acc
  | acc, c :: cs =>
    match digit? base c with
    | some d => digitsValue base (acc * base + d) cs
    | none => none

/-- The value of one or more digits (30_encoding.md rule R89, `dec` and the digits of `hex`). -/
def parseDigits (base : Nat) (t : Text) : Option Nat :=
  if t = [] then none else digitsValue base 0 t

/-- `magnitude ::= dec | hex` (30_encoding.md rule R89). -/
def parseMagnitude : Text → Option Nat
  | z :: x :: ds =>
    if z = 0x30#8 ∧ (x = 0x78#8 ∨ x = 0x58#8) then parseDigits 16 ds
    else parseDigits 10 (z :: x :: ds)
  | t => parseDigits 10 t

/-- A literal without a sign is at most 2^64 - 1 (30_encoding.md rule R89). -/
def positiveLit (t : Text) : Option Word :=
  match parseMagnitude t with
  | some m => if m ≤ 2 ^ 64 - 1 then some (BitVec.ofNat 64 m) else none
  | none => none

/-- A literal after `-`: its magnitude is at most 2^63 and its value is negated modulo 2^64
(30_encoding.md rule R89). -/
def negativeLit (t : Text) : Option Word :=
  match parseMagnitude t with
  | some m => if m ≤ 2 ^ 63 then some (BitVec.ofNat 64 ((2 ^ 64 - m) % 2 ^ 64)) else none
  | none => none

/-- `lit ::= [ "-" ] magnitude` (30_encoding.md rule R89). -/
def parseLit : Text → Option Word
  | [] => none
  | c :: cs => if c = 0x2d#8 then negativeLit cs else positiveLit (c :: cs)

/-- A scale: a `dec` literal with value 1, 2, 4 or 8 (30_encoding.md rule R93). A value of 2^64 or more is an
illegal scale, as rule R93 says, and not out of the range of rule R89: DESIGN CHOICE, log entry 14. -/
def parseScale (t : Text) : Except ErrorKind Scale :=
  match parseDigits 10 t with
  | none => .error .malformedOperand
  | some 1 => .ok .one
  | some 2 => .ok .two
  | some 4 => .ok .four
  | some 8 => .ok .eight
  | some _ => .error .illegalScale

/-! ### Operands -/

/-- Split at every comma (30_encoding.md rule R94, phase 1, step 3). -/
def splitCommas : Text → List Text
  | [] => [[]]
  | c :: cs =>
    if c = 0x2c#8 then [] :: splitCommas cs
    else match splitCommas cs with
      | [] => [[c]]
      | p :: ps => (c :: p) :: ps

/-- The shape of a memory operand with a parenthesised group: the texts of its components
(30_encoding.md rule R94, phase 1). -/
structure MemShape where
  offset : Text
  base : Option Text
  index : Option Text
  scale : Option Text
  deriving DecidableEq, Repr

/-- The admitted part shapes `[R]`, `[R,R]`, `[,R,S]` and `[R,R,S]` (30_encoding.md rule R94, phase 1, step 3). -/
def partShape (offset : Text) : List Text → Option MemShape
  | [r] => if r ≠ [] then some ⟨offset, some r, none, none⟩ else none
  | [r, x] => if r ≠ [] ∧ x ≠ [] then some ⟨offset, some r, some x, none⟩ else none
  | [r, x, s] =>
    if x ≠ [] then some ⟨offset, if r = [] then none else some r, some x, some s⟩ else none
  | _ => none

/-- Phase 1 for a text with a parenthesis: one `(`, one `)`, which is last (30_encoding.md rule R94). -/
def memShape (t : Text) : Option MemShape :=
  if t.count 0x28#8 = 1 ∧ t.count 0x29#8 = 1 ∧ t.getLast? = some 0x29#8 then
    let inner := ((t.dropWhile fun b => b != 0x28#8).drop 1).dropLast
    partShape (t.takeWhile fun b => b != 0x28#8) (splitCommas inner)
  else none

/-- A kind of error with the offending text of its record (60_exceptions.md rule R212). -/
abbrev OperandError := ErrorKind × Text

/-- A register part of a memory operand `whole` (30_encoding.md rule R94, phase 2, step 2; for an unprintable
byte after the `%`, DESIGN CHOICE, log entry 12). Which text the error carries: DEDUCED, log entry 7. -/
def parseRegPart (t : Tables) (whole part : Text) : Except OperandError View :=
  if part.head? = some 0x25#8 then
    match lookup part t.registers with
    | some v => .ok v
    | none => .error (.unknownRegisterName, part)
  else .error (.malformedOperand, whole)

/-- A part that may be absent. -/
def parseOptional {α : Type} (f : Text → Except OperandError α) : Option Text → Except OperandError (Option α)
  | none => .ok none
  | some p => match f p with
    | .ok a => .ok (some a)
    | .error e => .error e

/-- The offset of a memory operand `whole`: absent, or a `lit` (30_encoding.md rule R94, phase 2, step 1). -/
def parseOffset (whole offset : Text) : Except OperandError (Option Word) :=
  if offset = [] then .ok none
  else match parseLit offset with
    | some w => .ok (some w)
    | none => .error (.malformedOperand, whole)

/-- The scale part of a memory operand `whole` (30_encoding.md rule R94, phase 2, step 3). Which text the error
carries: DEDUCED, log entry 7. The kind for a value of 2^64 or more: DESIGN CHOICE, log entry 14. -/
def parseScalePart (whole part : Text) : Except OperandError Scale :=
  match parseScale part with
  | .ok k => .ok k
  | .error .illegalScale => .error (.illegalScale, part)
  | .error k => .error (k, whole)

/-- The tag that has exactly the given fields present (30_encoding.md rule R88); the shapes of phase 1
give no other combination. -/
def memTag : Option Word → Option View → Option View → Option Scale → Option MemOp
  | none, some b, none, none => some (.reg b)
  | some i, some b, none, none => some (.immReg i b)
  | none, some b, some x, none => some (.reg1Reg2 b x)
  | some i, some b, some x, none => some (.immReg1Reg2 i b x)
  | none, none, some x, some k => some (.reg2S x k)
  | some i, none, some x, some k => some (.immReg2S i x k)
  | none, some b, some x, some k => some (.reg1Reg2S b x k)
  | some i, some b, some x, some k => some (.immReg1Reg2S i b x k)
  | some i, none, none, none => some (.imm i)
  | _, _, _, _ => none

/-- Phase 2: the components from left to right, the first error reported (30_encoding.md rule R94). -/
def parseShape (t : Tables) (whole : Text) (sh : MemShape) : Except OperandError MemOp :=
  match parseOffset whole sh.offset with
  | .error e => .error e
  | .ok i =>
    match parseOptional (parseRegPart t whole) sh.base with
    | .error e => .error e
    | .ok b =>
      match parseOptional (parseRegPart t whole) sh.index with
      | .error e => .error e
      | .ok x =>
        match parseOptional (parseScalePart whole) sh.scale with
        | .error e => .error e
        | .ok k =>
          match memTag i b x k with
          | some m => .ok m
          | none => .error (.malformedOperand, whole)

/-- A memory operand text (30_encoding.md rules R92, R94). -/
def parseMem (t : Tables) (whole : Text) : Except OperandError MemOp :=
  if whole.contains 0x28#8 = true then
    match memShape whole with
    | some sh => parseShape t whole sh
    | none => .error (.malformedOperand, whole)
  else
    match parseLit whole with
    | some w => .ok (.imm w)
    | none => .error (.malformedOperand, whole)

/-- An immediate operand, after its `$` (30_encoding.md rule R90). -/
def parseImm (whole lit : Text) : Except OperandError Operand :=
  match parseLit lit with
  | some w => .ok (.imm w)
  | none => .error (.malformedOperand, whole)

/-- A register operand (30_encoding.md rule R91). A text that begins with `%` and holds an unprintable byte is
an unknown register name, as rule R91 says of any such text, although the last sentence of rule R80 names
only `UnknownOpcode` and `MalformedOperand` for such a byte (DESIGN CHOICE, log entry 12). -/
def parseReg (t : Tables) (whole : Text) : Except OperandError Operand :=
  match lookup whole t.registers with
  | some v => .ok (.reg v)
  | none => .error (.unknownRegisterName, whole)

/-- An operand text (30_encoding.md rules R90 to R94, R96). -/
def parseOperand (t : Tables) : Text → Except OperandError Operand
  | [] => .ok .empty
  | c :: cs =>
    if c = 0x24#8 then parseImm (c :: cs) cs
    else if c = 0x25#8 then parseReg t (c :: cs)
    else match parseMem t (c :: cs) with
      | .ok m => .ok (.mem m)
      | .error e => .error e

/-! ### The admitted forms -/

/-- The class of an operand (30_encoding.md rule R102). -/
def Operand.cls : Operand → OperandClass
  | .empty => .Empty
  | .imm _ => .Immediate
  | .reg _ => .Register
  | .mem _ => .Memory

/-- The source operand of an instruction (30_encoding.md rules R81, R107). -/
def Instr.src : Instr → Operand
  | .movRR l _ => .reg l
  | .movRM l _ => .reg l
  | .movMR m _ => .mem m
  | .movIR v _ => .imm v
  | .pushR l => .reg l
  | .popR d => .reg d
  | .leave => .empty
  | .callI v => .imm v
  | .callM m => .mem m
  | .ret => .empty
  | .addRR l _ => .reg l
  | .subIR v _ => .imm v
  | .cmpIM v _ => .imm v
  | .jneI v => .imm v
  | .jneM m => .mem m
  | .jmpI v => .imm v
  | .jmpM m => .mem m

/-- The destination operand of an instruction (30_encoding.md rules R81, R107). -/
def Instr.dst : Instr → Operand
  | .movRR _ d => .reg d
  | .movRM _ m => .mem m
  | .movMR _ d => .reg d
  | .movIR _ d => .reg d
  | .pushR _ => .empty
  | .popR _ => .empty
  | .leave => .empty
  | .callI _ => .empty
  | .callM _ => .empty
  | .ret => .empty
  | .addRR _ d => .reg d
  | .subIR _ d => .reg d
  | .cmpIM _ m => .mem m
  | .jneI _ => .empty
  | .jneM _ => .empty
  | .jmpI _ => .empty
  | .jmpM _ => .empty

/-- The form check: the instruction of an opcode and two operands, none where the form is not
admitted (30_encoding.md rules R102, R103). -/
def formOf : Opcode → Operand → Operand → Option Instr
  | .MOV, .reg l, .reg d => some (.movRR l d)
  | .MOV, .reg l, .mem m => some (.movRM l m)
  | .MOV, .mem m, .reg d => some (.movMR m d)
  | .MOV, .imm v, .reg d => some (.movIR v d)
  | .PUSH, .reg l, .empty => some (.pushR l)
  | .POP, .reg d, .empty => some (.popR d)
  | .LEAVE, .empty, .empty => some .leave
  | .CALL, .imm v, .empty => some (.callI v)
  | .CALL, .mem m, .empty => some (.callM m)
  | .RET, .empty, .empty => some .ret
  | .ADD, .reg l, .reg d => some (.addRR l d)
  | .SUB, .imm v, .reg d => some (.subIR v d)
  | .CMP, .imm v, .mem m => some (.cmpIM v m)
  | .JNE, .imm v, .empty => some (.jneI v)
  | .JNE, .mem m, .empty => some (.jneM m)
  | .JMP, .imm v, .empty => some (.jmpI v)
  | .JMP, .mem m, .empty => some (.jmpM m)
  | _, _, _ => none

/-! ### The decoder -/

/-- An operand's error, with the field it stands in (60_exceptions.md rule R212). -/
def inField (f : ErrorField) : Except OperandError Operand → Except DecodeError Operand
  | .ok o => .ok o
  | .error e => .error ⟨e.1, f, e.2⟩

/-- The operands and the form, once the opcode is known, the first error reported
(30_encoding.md rules R95, R103). The offending text of an unadmitted form is the slot's text
(95_test_vectors.md program P5; DEDUCED, log entry 7). -/
def decodeOperands (t : Tables) (text : Text) (op : Opcode) (tok : Tokens) : Except DecodeError Instr :=
  match inField .src (parseOperand t tok.src) with
  | .error e => .error e
  | .ok src =>
    match inField .dst (parseOperand t tok.dst) with
    | .error e => .error e
    | .ok dst =>
      match formOf op src dst with
      | some i => .ok i
      | none => .error ⟨.unsupportedOperandForm, .form, text⟩

/-- The decoder of a slot's text, in the order of 30_encoding.md rule R95. A mnemonic with no separator before its
operand raises `UnknownOpcode` (rules R83, R87): DESIGN CHOICE against 93_implementation_defined.md I20, log
entry 15. -/
def decodeText (t : Tables) (text : Text) : Except DecodeError Instr :=
  let tok := tokenise text
  match lookup tok.mnemonic t.mnemonics with
  | none => .error ⟨.unknownOpcode, .mnemonic, tok.mnemonic⟩
  | some op =>
    match textCheck tok with
    | some e => .error e
    | none => decodeOperands t text op tok

/-- The decoder of a slot (40_dispatch.md rule R132). -/
def decode (t : Tables) (slot : Text) : Except DecodeError Instr := decodeText t (slotText slot)

/-! ### The encoder -/

/-- The digit character of a value below 16 (30_encoding.md rule R89). -/
def hexChar (d : Nat) : Byte := BitVec.ofNat 8 (if d < 10 then 48 + d else 87 + d)

/-- The hexadecimal digits of a number below 16^fuel, without leading zeros. -/
def hexDigits : Nat → Nat → Text
  | 0, _ => []
  | fuel + 1, n => if n < 16 then [hexChar n] else hexDigits fuel (n / 16) ++ [hexChar (n % 16)]

/-- A literal of the value, in hexadecimal (30_encoding.md rule R89). -/
def litText (w : Word) : Text := 0x30#8 :: 0x78#8 :: hexDigits 16 w.toNat

/-- The first text a table gives a value, empty where it gives none. -/
def spell {α : Type} [DecidableEq α] (a : α) : List (Text × α) → Text
  | [] => []
  | (k, b) :: rest => if b = a then k else spell a rest

/-- The text of a scale (30_encoding.md rule R93). -/
def scaleText : Scale → Text
  | .one => [0x31#8]
  | .two => [0x32#8]
  | .four => [0x34#8]
  | .eight => [0x38#8]

/-- The text of a memory operand (30_encoding.md rule R92). -/
def memText (t : Tables) : MemOp → Text
  | .imm i => litText i
  | .reg b => [0x28#8] ++ spell b t.registers ++ [0x29#8]
  | .immReg i b => litText i ++ [0x28#8] ++ spell b t.registers ++ [0x29#8]
  | .reg1Reg2 b x => [0x28#8] ++ spell b t.registers ++ [0x2c#8] ++ spell x t.registers ++ [0x29#8]
  | .immReg1Reg2 i b x =>
    litText i ++ [0x28#8] ++ spell b t.registers ++ [0x2c#8] ++ spell x t.registers ++ [0x29#8]
  | .reg2S x k => [0x28#8] ++ [0x2c#8] ++ spell x t.registers ++ [0x2c#8] ++ scaleText k ++ [0x29#8]
  | .immReg2S i x k =>
    litText i ++ [0x28#8] ++ [0x2c#8] ++ spell x t.registers ++ [0x2c#8] ++ scaleText k ++ [0x29#8]
  | .reg1Reg2S b x k =>
    [0x28#8] ++ spell b t.registers ++ [0x2c#8] ++ spell x t.registers ++ [0x2c#8] ++ scaleText k ++ [0x29#8]
  | .immReg1Reg2S i b x k =>
    litText i ++ [0x28#8] ++ spell b t.registers ++ [0x2c#8] ++ spell x t.registers ++ [0x2c#8] ++
      scaleText k ++ [0x29#8]

/-- The text of an operand (30_encoding.md rules R90 to R92, R96). -/
def operandText (t : Tables) : Operand → Text
  | .empty => []
  | .imm v => 0x24#8 :: litText v
  | .reg l => spell l t.registers
  | .mem m => memText t m

/-- The text of two operands in the format F0, F1 or F2 (30_encoding.md rule R81), each after one space. -/
def operandsText (t : Tables) : Operand → Operand → Text
  | .empty, _ => []
  | src, .empty => 0x20#8 :: operandText t src
  | src, dst => 0x20#8 :: operandText t src ++ [0x2c#8, 0x20#8] ++ operandText t dst

/-- The text of an instruction. -/
def encode (t : Tables) (i : Instr) : Text := spell i.opcode t.mnemonics ++ operandsText t i.src i.dst

/-- The slot of `w` bytes that holds a text, padded with 00 (30_encoding.md rule R80). -/
def padSlot (w : Nat) (text : Text) : Text := text ++ List.replicate (w - text.length) 0#8

/-- The slot that holds an instruction. -/
def encodeSlot (t : Tables) (w : Nat) (i : Instr) : Text := padSlot w (encode t i)

/-! ### The words of the host -/

/-- The bytes of a number of `n` bytes, the least significant first: character i of a text is byte i
of its slot (20_memory.md rule R55). -/
def bytesOfNat : Nat → Nat → Text
  | 0, _ => []
  | n + 1, w => BitVec.ofNat 8 (w % 256) :: bytesOfNat n (w / 256)

/-- The instruction the decoder reads from the text of `nbits / 8` bytes whose bits are `w`, under the
default tables, the rest of the slot being 00. -/
def decodeTableWord (nbits w : Nat) : Option Instr :=
  match decode defaultTables (padSlot 64 (bytesOfNat (nbits / 8) w)) with
  | .ok i => some i
  | .error _ => none

end Sys2Proof
end

