-- ==== Sys2Proof/Machine/State.lean ====
section
/-! DEFINITION. The state of the core as plain data (10_state.md), the reasons a step can stop, and
the state a run is launched from by default (10_state.md rule R38). -/

namespace Sys2Proof.Machine

/-- The condition register: carry or borrow, zero, sign, signed overflow (10_state.md rule R30). -/
structure Flags where
  cf : Bool
  zf : Bool
  sf : Bool
  of : Bool
  deriving DecidableEq, Repr

/-- `flags <- 0` (10_state.md rule R30). -/
def Flags.zero : Flags := ⟨false, false, false, false⟩

/-- The record of a fatal error (60_exceptions.md rule R212). Its `code` is `ErrorRecord.code`,
a function of the kind (rule R211). -/
structure ErrorRecord where
  kind : ErrorKind
  pc : Word
  slotText : Option Text
  field : ErrorField
  offendingText : Text
  vaddr : Option Word
  paddr : Option Nat
  deriving DecidableEq, Repr

/-- What a cycle raises, before the pc and the slot's text are added (00_scope.md rule R8, `raise`). -/
structure ErrorInfo where
  kind : ErrorKind
  field : ErrorField
  text : Text
  vaddr : Option Word
  paddr : Option Nat
  deriving DecidableEq, Repr

/-- A memory access that fails: the kind, the virtual and the physical address (20_memory.md rules R53, R54). -/
structure MemFault where
  kind : ErrorKind
  vaddr : Word
  paddr : Nat
  deriving DecidableEq, Repr

/-- Which operand names the address of an access: the source, the destination, or none (the stack). -/
inductive AccessBy where
  | src | dst | stack
  deriving DecidableEq, Repr

/-- The physical store, from byte 0 (20_memory.md rule R50): the bytes that differ from the byte an
unlisted address reads as, by strictly rising address. -/
abbrev Memory := List Host.Cell

/-- The state of the core (10_state.md): the execution context with its memory, the error status,
and the parameters of 00_scope.md rule R5, which no step changes. -/
structure State where
  /-- The register file (rule R20): the 64-bit value of each register; byte j of its storage is bits 8j+7:8j. -/
  regs : Vector Word 16
  /-- The condition register (rule R30). -/
  flags : Flags
  /-- The program counter (rule R32). -/
  pc : Word
  /-- The physical store (20_memory.md rule R50). -/
  mem : Memory
  /-- The error status (rule R39). -/
  error : Option ErrorRecord
  /-- The parameters, the instruction stream among them (00_scope.md rule R5, 20_memory.md rule R51). -/
  config : Config
  deriving DecidableEq, Repr

/-- Why a step stops with an error. -/
inductive Fault where
  /-- A fatal error of 60_exceptions.md rule R211: raised by `step` (fetch, parse, form check) and by every
  meaning that accesses memory, through `raise` only. It carries the record returned to the caller and the
  state the error leaves (rule R214): the state before the cycle with its error status set
  (DESIGN CHOICE, log entry 8). Safe. -/
  | fatal (record : ErrorRecord) (after : State)
  /-- Raised by `step` in a state whose error status is set: there is no step (40_dispatch.md rule R138;
  DESIGN CHOICE, log entry 8). Safe. -/
  | stopped (record : ErrorRecord)
  deriving DecidableEq, Repr

/-- Why there is no next state although nothing failed. -/
inductive Refusal where
  /-- No meaning yet: raised by no arm of `exec`, since every instruction has its meaning. Safe. -/
  | notModelled (mnemonic : String)
  /-- Raised by `step` in a final state, which it carries: the cycle's third outcome, "final"
  (00_scope.md rule R9, 70_reset_and_hazards.md rule R246; DESIGN CHOICE, log entry 4). No instruction is
  refused by it. Safe. -/
  | final (at_ : State)
  deriving DecidableEq, Repr

/-- One outcome of a cycle (00_scope.md rule R9). -/
abbrev Result := Host.Outcome State Fault Refusal

/-- The parameters at launch where nothing else is chosen: the common conventions of
95_test_vectors.md, an empty instruction stream at 0x400000, and `EXIT_PC` = 0 (DESIGN CHOICE, log entry 1). -/
def launchConfig : Config where
  slotWidth := 64
  program := ⟨0x400000#64, []⟩
  codeRegion := []
  memSize := 0x10000
  translate := .identity
  tables := defaultTables
  jmpSemantics := .guardedStay
  exitPc := 0#64

/-- The launch state. The spec states one value, the error status `none` (10_state.md rule R38); every
other field is a launch input, given here the common launch value of 95_test_vectors.md
(DESIGN CHOICE, log entry 1): registers 0 but SP = 0x8000, flags 0, pc = 0x400000, memory 0. -/
def State.reset : State where
  regs := (Vector.replicate 16 0#64).set 7 0x8000#64
  flags := Flags.zero
  pc := 0x400000#64
  mem := []
  error := none
  config := launchConfig

end Sys2Proof.Machine
end

