-- ==== Sys2Proof/Machine/Ops.lean ====
section
/-! DEFINITION. The named operations: registers and views, flags and pc, memory, fetch, raising a
fatal error, and commit. -/

namespace Sys2Proof.Machine

/-! ### Registers and views -/

/-- The 64-bit value of a register (10_state.md rule R20). -/
def State.reg (s : State) (r : Reg) : Word := s.regs[r.val]

/-- Replace the 64-bit value of a register. -/
def State.setReg (s : State) (r : Reg) (v : Word) : State := { s with regs := s.regs.set r.val v }

/-- `off(k)`, the first byte of the span (10_state.md rule R21). -/
def offsetOf : ViewKind → Nat
  | .H => 1
  | _ => 0

/-- `nbytes(k)`, the number of bytes of the span (10_state.md rule R21). -/
def nbytesOf : ViewKind → Nat
  | .Q => 8
  | .D => 4
  | .W => 2
  | .L => 1
  | .H => 1

/-- The bytes of a view, zero-extended to 64 bits (10_state.md rule R22). -/
def viewRead : ViewKind → Word → Word
  | .Q, x => x
  | .D, x => (x.extractLsb' 0 32).setWidth 64
  | .W, x => (x.extractLsb' 0 16).setWidth 64
  | .L, x => (x.extractLsb' 0 8).setWidth 64
  | .H, x => (x.extractLsb' 8 8).setWidth 64

/-- The register with the low bits of `v` in the view's bytes and every other byte kept (10_state.md rule R23). -/
def viewWrite : ViewKind → (x v : Word) → Word
  | .Q, _, v => v
  | .D, x, v => x.extractLsb' 32 32 ++ v.extractLsb' 0 32
  | .W, x, v => x.extractLsb' 16 48 ++ v.extractLsb' 0 16
  | .L, x, v => x.extractLsb' 8 56 ++ v.extractLsb' 0 8
  | .H, x, v => x.extractLsb' 16 48 ++ v.extractLsb' 0 8 ++ x.extractLsb' 0 8

/-- `x[v]` (00_scope.md rule R8, 10_state.md rule R22). -/
def State.readView (s : State) (v : View) : Word := viewRead v.kind (s.reg v.reg)

/-- `x[v] <- val` (00_scope.md rule R8, 10_state.md rule R23). -/
def State.writeView (s : State) (v : View) (val : Word) : State :=
  s.setReg v.reg (viewWrite v.kind (s.reg v.reg) val)

/-- `SP`: register 7 through its `Q` view (42_stack.md, 10_state.md rule R27). -/
def spView : View := ⟨Reg.SP, .Q⟩

/-- `BP`: register 6 through its `Q` view (42_stack.md, 10_state.md rule R27). -/
def bpView : View := ⟨Reg.BP, .Q⟩

/-! ### Flags and program counter -/

/-- `flags <- 0` (40_dispatch.md rule R136). -/
def State.clearFlags (s : State) : State := { s with flags := Flags.zero }

/-- Set all four flags. -/
def State.setFlags (s : State) (f : Flags) : State := { s with flags := f }

/-- `pc <- target`. -/
def State.setPc (s : State) (target : Word) : State := { s with pc := target }

/-- `pc + W`, modulo 2^64: the address of the next slot (40_dispatch.md rule R135). -/
def State.nextPc (s : State) : Word := s.pc + BitVec.ofNat 64 s.config.slotWidth

/-- `advance` (40_dispatch.md rule R135). -/
def State.advance (s : State) : State := s.setPc s.nextPc

/-! ### Memory -/

/-- What an unlisted address reads as. The launch contents of memory are an input (10_state.md rule
R38); 0 is the model's choice (DESIGN CHOICE, log entry 1). -/
def unlistedByte : Byte := 0#8

/-- The canonical form: addresses strictly rising, and no entry equal to an unlisted byte. -/
abbrev Memory.wf (m : Memory) : Prop :=
  m.Pairwise (fun c d => c.1 < d.1) ∧ ∀ c ∈ m, c.2 ≠ unlistedByte

/-- The byte at a physical address. -/
def Memory.read : Memory → Nat → Byte
  | [], _ => unlistedByte
  | (k, b) :: m, a => if k = a then b else Memory.read m a

/-- Replace the byte at a physical address, in the canonical form. -/
def Memory.write : Memory → Nat → Byte → Memory
  | [], a, b => if b = unlistedByte then [] else [(a, b)]
  | (k, v) :: m, a, b =>
    if a < k then (if b = unlistedByte then (k, v) :: m else (a, b) :: (k, v) :: m)
    else if a = k then (if b = unlistedByte then m else (a, b) :: m)
    else (k, v) :: Memory.write m a b

/-- Byte j of a value, `v[8j+7:8j]` (20_memory.md rule R54). -/
def byteOf (v : Word) (j : Nat) : Byte := v.extractLsb' (8 * j) 8

/-- `load64`: eight bytes, little-endian (20_memory.md rule R53). -/
def Memory.load64 (m : Memory) (p : Nat) : Word :=
  m.read (p + 7) ++ m.read (p + 6) ++ m.read (p + 5) ++ m.read (p + 4) ++
    m.read (p + 3) ++ m.read (p + 2) ++ m.read (p + 1) ++ m.read p

/-- Store bytes at rising addresses from `p`. -/
def Memory.storeBytes : Memory → Nat → Text → Memory
  | m, _, [] => m
  | m, p, b :: bs => Memory.storeBytes (m.write p b) (p + 1) bs

/-- `store64`: eight bytes, little-endian (20_memory.md rule R54). -/
def Memory.store64 (m : Memory) (p : Nat) (v : Word) : Memory :=
  m.storeBytes p [byteOf v 0, byteOf v 1, byteOf v 2, byteOf v 3, byteOf v 4, byteOf v 5, byteOf v 6, byteOf v 7]

/-- `TRANSLATE` (20_memory.md rule R52): total, and applied once per access. -/
def translateBy : Translation → Word → Nat
  | .identity, a => a.toNat
  | .modulo n, a => a.toNat % n
  | .mask bits, a => a.toNat % 2 ^ bits
  | .pluggable k, a => Config.pluggableTranslate k a

/-- The physical address of a virtual address. -/
def State.physical (s : State) (a : Word) : Nat := translateBy s.config.translate a

/-- `p + 8 <= MEM_SIZE`: the eight bytes at `p` are in the store (20_memory.md rules R53, R54). -/
abbrev State.inRange (s : State) (p : Nat) : Prop := p + 8 ≤ s.config.memSize

/-- One of the bytes `p .. p+7` is in `CODE_REGION` (20_memory.md rule R54). -/
def State.touchesCode (s : State) (p : Nat) : Bool :=
  s.config.codeRegion.any fun a => decide (p ≤ a) && decide (a < p + 8)

/-- `MemRead(a, 8)` (20_memory.md rule R53). -/
def State.memRead (s : State) (a : Word) : Except MemFault Word :=
  let p := s.physical a
  if s.inRange p then .ok (s.mem.load64 p) else .error ⟨.memoryOutOfRange, a, p⟩

/-- `MemWrite(a, 8, v)` (20_memory.md rule R54): the range check before the code-region check. -/
def State.memWrite (s : State) (a v : Word) : Except MemFault State :=
  let p := s.physical a
  if s.inRange p then
    if s.touchesCode p = true then .error ⟨.storeToCode, a, p⟩
    else .ok { s with mem := s.mem.store64 p v }
  else .error ⟨.memoryOutOfRange, a, p⟩

/-! ### Fetch -/

/-- The slot at an address, among slots that stand from the natural number `addr` on, `w` bytes apart. -/
def slotAt (w : Nat) : Nat → List Text → Word → Option Text
  | _, [], _ => none
  | addr, slot :: slots, pc => if addr = pc.toNat then some slot else slotAt w (addr + w) slots pc

/-- `Fetch(pc)`: the slot whose address is the pc, none where there is none (40_dispatch.md rule R131). -/
def fetchSlot (c : Config) (pc : Word) : Option Text :=
  slotAt c.slotWidth c.program.base.toNat c.program.slots pc

/-- The text of the slot at the pc, none where the fetch fails (60_exceptions.md rule R212, `slot_text`). -/
def State.fetchedText (s : State) : Option Text := (fetchSlot s.config s.pc).map slotText

/-! ### Errors -/

/-- The numeric code of an error kind (60_exceptions.md rule R211). -/
def errorCode : ErrorKind → Nat
  | .unknownOpcode => 1
  | .unknownRegisterName => 2
  | .illegalScale => 3
  | .unsupportedOperandForm => 4
  | .malformedOperand => 5
  | .fetchOutOfStream => 6
  | .memoryOutOfRange => 7
  | .storeToCode => 8

/-- The `code` of an error record (60_exceptions.md rule R212). -/
def ErrorRecord.code (r : ErrorRecord) : Nat := errorCode r.kind

/-- The record of an error raised in a state: its pc, and the slot's text if the fetch succeeded
(60_exceptions.md rule R212). -/
def recordOf (s : State) (e : ErrorInfo) : ErrorRecord where
  kind := e.kind
  pc := s.pc
  slotText := s.fetchedText
  field := e.field
  offendingText := e.text
  vaddr := e.vaddr
  paddr := e.paddr

/-- Error entry, the one operation by which a cycle raises an error (60_exceptions.md rule R214): the
error status is set, no register, flag, pc or memory byte changes, and the record goes to the caller.
There is no return from it (rule R215). -/
def raise (s : State) (e : ErrorInfo) : Result :=
  .fault (.fatal (recordOf s e) { s with error := some (recordOf s e) })

/-- A fetch error: the pc is no slot's address (40_dispatch.md rule R131). The spec names neither its
field nor its offending text: both are free values (log entry 6). -/
def fetchError (s : State) : ErrorInfo where
  kind := .fetchOutOfStream
  field := Config.freeErrorField .fetchOutOfStream s.pc
  text := Config.freeErrorText .fetchOutOfStream s.pc none
  vaddr := none
  paddr := none

/-- An error of the parser or the form check. -/
def parseError (e : DecodeError) : ErrorInfo := ⟨e.kind, e.field, e.text, none, none⟩

/-- The offending text of a failed access: the text of the operand that names its address (DEDUCED,
log entry 7), and a free value where no operand does (log entry 6). -/
def accessText (s : State) (k : ErrorKind) (by_ : AccessBy) : Text :=
  match by_, s.fetchedText with
  | .src, some text => (tokenise text).src
  | .dst, some text => (tokenise text).dst
  | _, text => Config.freeErrorText k s.pc text

/-- A failed memory access, with the addresses rule R212 asks for (60_exceptions.md). The rule lists the field
`execute` and ties it to no kind: that every MemoryOutOfRange and StoreToCode has it, and no other error, is
the model's choice (DESIGN CHOICE, log entry 13). -/
def memoryError (s : State) (by_ : AccessBy) (f : MemFault) : ErrorInfo where
  kind := f.kind
  field := .execute
  text := accessText s f.kind by_
  vaddr := some f.vaddr
  paddr := some f.paddr

/-- Commit (40_dispatch.md rule R137): the working copy becomes the state, or the working copy is
discarded and the error is raised in the state `s` from before the instruction. -/
def commit (s : State) (by_ : AccessBy) : Except MemFault State → Result
  | .ok w => .next w
  | .error f => raise s (memoryError s by_ f)

end Sys2Proof.Machine
end

