-- ==== Sys2Proof/Machine/Flags.lean ====
section
/-! DEFINITION. The condition-flag and ALU engine (44_alu.md rules R180 to R185). -/

namespace Sys2Proof.Machine

/-- A 64-bit result with the four flags. -/
structure AluResult where
  value : Word
  flags : Flags
  deriving DecidableEq, Repr

/-- `AluAdd(a, b)` (44_alu.md rules R181, R183). -/
def aluAdd (a b : Word) : AluResult :=
  let r := a + b
  { value := r
    flags :=
      { cf := r.ult a
        zf := r == 0#64
        sf := r.msb
        of := a.msb == b.msb && r.msb != a.msb } }

/-- `AluSub(d, s)` (44_alu.md rules R182, R183): `d` is the minuend. -/
def aluSub (d s : Word) : AluResult :=
  let r := d + (~~~s + 1#64)
  { value := r
    flags :=
      { cf := d.ult s
        zf := r == 0#64
        sf := r.msb
        of := s.msb != d.msb && r.msb != d.msb } }

end Sys2Proof.Machine
end

