-- ==== Sys2Proof/Machine/Operands.lean ====
section
/-! DEFINITION. The addressing-mode resolver: from an operand and the state at the start of the cycle
to a value, a location or an address (30_encoding.md rules R97 to R101). -/

namespace Sys2Proof.Machine

/-- The factor of a scale (30_encoding.md rule R93). -/
def scaleFactor : Scale → Word
  | .one => 1#64
  | .two => 2#64
  | .four => 4#64
  | .eight => 8#64

/-- The immediate of a memory operand, if its tag has one (30_encoding.md rule R88). -/
def immOf : MemOp → Option Word
  | .imm i => some i
  | .reg _ => none
  | .immReg i _ => some i
  | .reg1Reg2 _ _ => none
  | .immReg1Reg2 i _ _ => some i
  | .reg2S _ _ => none
  | .immReg2S i _ _ => some i
  | .reg1Reg2S _ _ _ => none
  | .immReg1Reg2S i _ _ _ => some i

/-- The base of a memory operand, if its tag has one (30_encoding.md rule R88). -/
def baseOf : MemOp → Option View
  | .imm _ => none
  | .reg b => some b
  | .immReg _ b => some b
  | .reg1Reg2 b _ => some b
  | .immReg1Reg2 _ b _ => some b
  | .reg2S _ _ => none
  | .immReg2S _ _ _ => none
  | .reg1Reg2S b _ _ => some b
  | .immReg1Reg2S _ b _ _ => some b

/-- The index of a memory operand with its factor, if its tag has one; an index with no scale counts
once (30_encoding.md rules R88, R98). -/
def indexOf : MemOp → Option (View × Word)
  | .imm _ => none
  | .reg _ => none
  | .immReg _ _ => none
  | .reg1Reg2 _ x => some (x, 1#64)
  | .immReg1Reg2 _ _ x => some (x, 1#64)
  | .reg2S x k => some (x, scaleFactor k)
  | .immReg2S _ x k => some (x, scaleFactor k)
  | .reg1Reg2S _ x k => some (x, scaleFactor k)
  | .immReg1Reg2S _ _ x k => some (x, scaleFactor k)

/-- The effective address, modulo 2^64 (30_encoding.md rules R98, R99). -/
def State.effectiveAddress (s : State) (m : MemOp) : Word :=
  (immOf m).getD 0#64 +
  (match baseOf m with | some b => s.readView b | none => 0#64) +
  (match indexOf m with | some (x, k) => s.readView x * k | none => 0#64)

/-- A decoded operand (30_encoding.md rule R97). -/
inductive Decoded where
  | value (v : Word)
  | location (l : View)
  | address (a : Word)
  deriving DecidableEq, Repr

/-- `Decode(op, s)` (30_encoding.md rule R97): it reads registers and nothing else (rule R101). -/
def decodeOperand (op : Operand) (s : State) : Decoded :=
  match op with
  | .empty => .value 0#64
  | .imm v => .value v
  | .reg l => .location l
  | .mem m => .address (s.effectiveAddress m)

end Sys2Proof.Machine
end

