-- ==== Sys2Proof/Machine/Alu.lean ====
section
/-! DEFINITION. ADD, SUB, CMP (44_alu.md rules R190 to R192). -/

namespace Sys2Proof.Machine

/-- Write an ALU result through a view, set the flags and advance (rules R190, R191). -/
def writeAlu (dst : View) (r : AluResult) (s : State) : Result :=
  .next (((s.writeView dst r.value).setFlags r.flags).advance)

/-- ADD {Register, Register} (rule R190): `a` is the destination, `b` the source. -/
def execAddRR (src dst : View) (s : State) : Result :=
  writeAlu dst (aluAdd (s.readView dst) (s.readView src)) s

/-- SUB {Immediate, Register} (rule R191). -/
def execSubIR (src : Word) (dst : View) (s : State) : Result :=
  writeAlu dst (aluSub (s.readView dst) src) s

/-- CMP {Immediate, Memory} (rule R192): flags of `mem - imm`, and no register or memory write. -/
def execCmpIM (src : Word) (dst : MemOp) (s : State) : Result :=
  commit s .dst ((s.memRead (s.effectiveAddress dst)).map fun d => (s.setFlags (aluSub d src).flags).advance)

end Sys2Proof.Machine
end

