-- ==== Sys2Proof/Machine/Branch.lean ====
section
/-! DEFINITION. JNE, JMP (45_branch.md rules R200, R201). -/

namespace Sys2Proof.Machine

/-- JNE to a target: taken when ZF is not 1; the flags are cleared after the read (rule R200). -/
def jneTo (target : Word) (s : State) : Result :=
  .next ((if s.flags.zf = true then s.advance else s.setPc target).clearFlags)

/-- JNE {Immediate, ∅} (rule R200). -/
def execJneI (target : Word) (s : State) : Result := jneTo target s

/-- JNE {Memory, ∅} (rule R200): the target is the effective address, which is not dereferenced. -/
def execJneM (target : MemOp) (s : State) : Result := jneTo (s.effectiveAddress target) s

/-- The pc after a JMP, under each value of `JMP_SEMANTICS` (rule R201). -/
def jmpPc (target : Word) (s : State) : Word :=
  match s.config.jmpSemantics with
  | .unconditional => target
  | .guardedStay => if s.flags.zf = true then s.pc else target
  | .guardedFallthrough => if s.flags.zf = true then s.nextPc else target

/-- JMP to a target; the flags are cleared after the read (rule R201). -/
def jmpTo (target : Word) (s : State) : Result := .next ((s.setPc (jmpPc target s)).clearFlags)

/-- JMP {Immediate, ∅} (rule R201). -/
def execJmpI (target : Word) (s : State) : Result := jmpTo target s

/-- JMP {Memory, ∅} (rule R201): the target is the effective address, which is not dereferenced. -/
def execJmpM (target : MemOp) (s : State) : Result := jmpTo (s.effectiveAddress target) s

end Sys2Proof.Machine
end

