-- ==== Sys2Proof/Machine/Stack.lean ====
section
/-! DEFINITION. PUSH, POP, LEAVE (42_stack.md rules R160 to R162), and the push and pop that CALL and
RET share with them. -/

namespace Sys2Proof.Machine

/-- Decrement SP by 8 and store a value at the new SP, on the working copy (42_stack.md rule R160). -/
def State.push (w : State) (v : Word) : Except MemFault State :=
  let sp1 := w.readView spView - 8#64
  (w.writeView spView sp1).memWrite sp1 v

/-- Load a value at SP and increment SP by 8, on the working copy, and go on with both
(42_stack.md rule R161). -/
def State.pop (w : State) (k : Word → State → State) : Except MemFault State :=
  let sp0 := w.readView spView
  (w.memRead sp0).map fun v => k v (w.writeView spView (sp0 + 8#64))

/-- PUSH {Register, ∅} (rule R160): the source is read before the decrement. -/
def execPushR (src : View) (s : State) : Result :=
  commit s .stack ((s.push (s.readView src)).map fun w => w.clearFlags.advance)

/-- POP {Register, ∅} (rule R161): the register is written after the increment. -/
def execPopR (dst : View) (s : State) : Result :=
  commit s .stack (s.pop fun v w => (w.writeView dst v).clearFlags.advance)

/-- LEAVE {∅, ∅} (rule R162): SP takes BP, then a pop into BP. -/
def execLeave (s : State) : Result :=
  commit s .stack
    ((s.writeView spView (s.readView bpView)).pop fun v w => (w.writeView bpView v).clearFlags.advance)

end Sys2Proof.Machine
end

