-- ==== Sys2Proof/Machine/CallRet.lean ====
section
/-! DEFINITION. CALL, RET (43_call_ret.md rules R170, R171). -/

namespace Sys2Proof.Machine

/-- CALL to a target: push the address of the next slot, then jump (rule R170). -/
def callTo (target : Word) (s : State) : Result :=
  commit s .stack ((s.push s.nextPc).map fun w => (w.setPc target).clearFlags)

/-- CALL {Immediate, ∅} (rule R170). -/
def execCallI (target : Word) (s : State) : Result := callTo target s

/-- CALL {Memory, ∅} (rule R170): the target is the effective address itself, in the state before the
instruction; memory is not read there. -/
def execCallM (target : MemOp) (s : State) : Result := callTo (s.effectiveAddress target) s

/-- RET {∅, ∅} (rule R171). -/
def execRet (s : State) : Result :=
  commit s .stack (s.pop fun t w => (w.setPc t).clearFlags)

end Sys2Proof.Machine
end

