-- ==== Sys2Proof/Machine/Mov.lean ====
section
/-! DEFINITION. MOV (41_mov.md rules R150 to R153). -/

namespace Sys2Proof.Machine

/-- MOV {Register, Register} (rule R150). -/
def execMovRR (src dst : View) (s : State) : Result :=
  .next ((s.writeView dst (s.readView src)).clearFlags.advance)

/-- MOV {Register, Memory} (rule R151). -/
def execMovRM (src : View) (dst : MemOp) (s : State) : Result :=
  commit s .dst ((s.memWrite (s.effectiveAddress dst) (s.readView src)).map fun w => w.clearFlags.advance)

/-- MOV {Memory, Register} (rule R152). -/
def execMovMR (src : MemOp) (dst : View) (s : State) : Result :=
  commit s .src ((s.memRead (s.effectiveAddress src)).map fun v => (s.writeView dst v).clearFlags.advance)

/-- MOV {Immediate, Register} (rule R153). -/
def execMovIR (src : Word) (dst : View) (s : State) : Result :=
  .next ((s.writeView dst src).clearFlags.advance)

end Sys2Proof.Machine
end

