-- ==== Sys2Proof/Machine/Dispatch.lean ====
section
/-! DEFINITION. The dispatch: a closed match over opcode and form (40_dispatch.md rule R134). -/

namespace Sys2Proof.Machine

def exec (i : Instr) (s : State) : Host.Outcome State Fault Refusal :=
  match i with
  | .movRR src dst => Sys2Proof.Machine.execMovRR src dst s
  | .movRM src dst => Sys2Proof.Machine.execMovRM src dst s
  | .movMR src dst => Sys2Proof.Machine.execMovMR src dst s
  | .movIR src dst => Sys2Proof.Machine.execMovIR src dst s
  | .pushR src => Sys2Proof.Machine.execPushR src s
  | .popR dst => Sys2Proof.Machine.execPopR dst s
  | .leave => Sys2Proof.Machine.execLeave s
  | .callI target => Sys2Proof.Machine.execCallI target s
  | .callM target => Sys2Proof.Machine.execCallM target s
  | .ret => Sys2Proof.Machine.execRet s
  | .addRR src dst => Sys2Proof.Machine.execAddRR src dst s
  | .subIR src dst => Sys2Proof.Machine.execSubIR src dst s
  | .cmpIM src dst => Sys2Proof.Machine.execCmpIM src dst s
  | .jneI target => Sys2Proof.Machine.execJneI target s
  | .jneM target => Sys2Proof.Machine.execJneM target s
  | .jmpI target => Sys2Proof.Machine.execJmpI target s
  | .jmpM target => Sys2Proof.Machine.execJmpM target s

end Sys2Proof.Machine
end

