-- ==== Sys2Proof/Machine/Step.lean ====
section
/-! DEFINITION. One cycle (40_dispatch.md rule R138), and the load of one instruction for the host. -/

namespace Sys2Proof.Machine

/-- `Step` (40_dispatch.md rule R138): no step with an error, final at `EXIT_PC`, else fetch, parse,
form check and execute. -/
def step (s : State) : Host.Outcome State Fault Refusal :=
  match s.error with
  | some r => .fault (.stopped r)
  | none =>
    if s.pc = s.config.exitPc then .refused (.final s)
    else match fetchSlot s.config s.pc with
      | none => raise s (fetchError s)
      | some slot =>
        match decode s.config.tables slot with
        | .error e => raise s (parseError e)
        | .ok i => exec i s

/-- The state with the text of `nbits / 8` bytes whose bits are `w` loaded as the one slot of the
instruction stream, at the pc, and with the rest of what a cycle needs to reach it: no error, an
`EXIT_PC` other than the pc, and a slot wide enough for the text (log entry 5). -/
def State.withFetchWord (s : State) (nbits w : Nat) : State :=
  let width := max s.config.slotWidth (nbits / 8)
  { s with
    error := none
    config :=
      { s.config with
        slotWidth := width
        program := ⟨s.pc, [padSlot width (bytesOfNat (nbits / 8) w)]⟩
        exitPc := if s.config.exitPc = s.pc then ~~~s.pc else s.config.exitPc } }

end Sys2Proof.Machine
end

