-- ==== Sys2Proof/Safety.lean ====
section
/-! DEFINITION. The terms claims are stated in: bytes of registers and memory, the states a run
may reach, the end of a run, and what counts as a safe run (70_reset_and_hazards.md). -/

namespace Sys2Proof.Machine

/-! ### Registers and memory, byte by byte -/

/-- Byte j of a register's storage, `reg[r][j]` (10_state.md rule R20). -/
def State.regByte (s : State) (r : Reg) (j : Nat) : Byte := byteOf (s.reg r) j

/-- The registers of `t` are `old`, except that the bytes of view `l` hold the low bytes of `v`
(the loop of 10_state.md rule R23). -/
def ViewWritten (l : View) (v : Word) (old : Reg → Word) (t : State) : Prop :=
  ∀ (r : Reg) (j : Nat), j < 8 →
    t.regByte r j =
      if r = l.reg ∧ offsetOf l.kind ≤ j ∧ j < offsetOf l.kind + nbytesOf l.kind then
        byteOf v (j - offsetOf l.kind)
      else byteOf (old r) j

/-- No register differs. -/
def SameRegs (s t : State) : Prop := ∀ r, t.reg r = s.reg r

/-- No byte of memory differs. -/
def SameMemory (s t : State) : Prop := ∀ a, t.mem.read a = s.mem.read a

/-- The eight bytes at `p` hold `v` in `t`, little-endian, and every other byte is as in `s`
(20_memory.md rule R54). -/
def StoredAt (p : Nat) (v : Word) (s t : State) : Prop :=
  (∀ j, j < 8 → t.mem.read (p + j) = byteOf v j) ∧ ∀ a, a < p ∨ p + 8 ≤ a → t.mem.read a = s.mem.read a

/-- `v` is the little-endian value of the eight bytes at `p` (20_memory.md rule R53). -/
def LoadedFrom (p : Nat) (v : Word) (s : State) : Prop := ∀ j, j < 8 → byteOf v j = s.mem.read (p + j)

/-- The error status and the parameters do not differ. -/
def SameRest (s t : State) : Prop := t.error = s.error ∧ t.config = s.config

/-- A load at a virtual address does not fail (20_memory.md rule R53). -/
abbrev State.readable (s : State) (a : Word) : Prop := s.inRange (s.physical a)

/-- A store at a virtual address does not fail (20_memory.md rule R54). -/
abbrev State.writable (s : State) (a : Word) : Prop :=
  s.inRange (s.physical a) ∧ s.touchesCode (s.physical a) = false

/-- The outcome is a fatal memory error of the kind at the virtual address `a`, whose record names
the cycle, and which leaves `s` as it was but for the error status (60_exceptions.md rules R212, R214).
The record's field is the model's choice (log entry 13) and no part of this. -/
def RaisesMemory (o : Result) (s : State) (k : ErrorKind) (a : Word) : Prop :=
  ∃ r : ErrorRecord, o = .fault (.fatal r { s with error := some r }) ∧
    r.kind = k ∧ r.pc = s.pc ∧ r.slotText = s.fetchedText ∧ r.vaddr = some a ∧
    r.paddr = some (s.physical a)

/-! ### What an instruction may change -/

/-- The virtual address an instruction stores to, if it stores (20_memory.md rule R57). -/
def storeAddress (i : Instr) (s : State) : Option Word :=
  match i with
  | .movRM _ m => some (s.effectiveAddress m)
  | .pushR _ => some (s.readView spView - 8#64)
  | .callI _ => some (s.readView spView - 8#64)
  | .callM _ => some (s.readView spView - 8#64)
  | .movRR _ _ | .movMR _ _ | .movIR _ _ | .popR _ | .leave | .ret | .addRR _ _ | .subIR _ _ => none
  | .cmpIM _ _ | .jneI _ | .jneM _ | .jmpI _ | .jmpM _ => none

/-- The virtual address an instruction loads from, if it loads (20_memory.md rule R57). -/
def loadAddress (i : Instr) (s : State) : Option Word :=
  match i with
  | .movMR m _ => some (s.effectiveAddress m)
  | .popR _ => some (s.readView spView)
  | .leave => some (s.readView bpView)
  | .ret => some (s.readView spView)
  | .cmpIM _ m => some (s.effectiveAddress m)
  | .movRR _ _ | .movRM _ _ | .movIR _ _ | .pushR _ | .callI _ | .callM _ | .addRR _ _ | .subIR _ _ => none
  | .jneI _ | .jneM _ | .jmpI _ | .jmpM _ => none

/-- The registers an instruction writes (10_state.md rule R28). -/
def writtenRegs : Instr → List Reg
  | .movRR _ d => [d.reg]
  | .movRM _ _ => []
  | .movMR _ d => [d.reg]
  | .movIR _ d => [d.reg]
  | .pushR _ => [Reg.SP]
  | .popR d => [d.reg, Reg.SP]
  | .leave => [Reg.SP, Reg.BP]
  | .callI _ => [Reg.SP]
  | .callM _ => [Reg.SP]
  | .ret => [Reg.SP]
  | .addRR _ d => [d.reg]
  | .subIR _ d => [d.reg]
  | .cmpIM _ _ => []
  | .jneI _ => []
  | .jneM _ => []
  | .jmpI _ => []
  | .jmpM _ => []

/-- ADD, SUB and CMP, the only opcodes that leave flags (40_dispatch.md rule R136). -/
def setsFlags : Opcode → Bool
  | .ADD | .SUB | .CMP => true
  | .MOV | .PUSH | .POP | .LEAVE | .CALL | .RET | .JNE | .JMP => false

/-- The admitted forms, as the rule lists them (30_encoding.md rule R102). -/
def admittedForms : List (Opcode × OperandClass × OperandClass) :=
  [(.MOV, .Register, .Register), (.MOV, .Register, .Memory), (.MOV, .Memory, .Register),
   (.MOV, .Immediate, .Register), (.PUSH, .Register, .Empty), (.POP, .Register, .Empty),
   (.LEAVE, .Empty, .Empty), (.CALL, .Immediate, .Empty), (.CALL, .Memory, .Empty),
   (.RET, .Empty, .Empty), (.ADD, .Register, .Register), (.SUB, .Immediate, .Register),
   (.CMP, .Immediate, .Memory), (.JNE, .Immediate, .Empty), (.JNE, .Memory, .Empty),
   (.JMP, .Immediate, .Empty), (.JMP, .Memory, .Empty)]

/-! ### The literal grammar, declaratively (30_encoding.md rule R89) -/

/-- `c` is a character for the digit `d` of the base. -/
def IsDigit (base : Nat) (c : Byte) (d : Nat) : Prop :=
  d < base ∧
    ((d < 10 ∧ c.toNat = 48 + d) ∨ (10 ≤ d ∧ d < 16 ∧ (c.toNat = 97 + (d - 10) ∨ c.toNat = 65 + (d - 10))))

/-- One or more digits of the base whose value is `m`, the first digit the most significant. -/
def DigitsDenote (base : Nat) (t : Text) (m : Nat) : Prop :=
  t ≠ [] ∧ ∃ ds : List Nat, List.Forall₂ (IsDigit base) t ds ∧ m = ds.foldl (fun acc d => acc * base + d) 0

/-- `magnitude ::= dec | hex`, with its value. -/
def MagnitudeDenotes (t : Text) (m : Nat) : Prop :=
  DigitsDenote 10 t m ∨
    ∃ ds : Text, (t = 0x30#8 :: 0x78#8 :: ds ∨ t = 0x30#8 :: 0x58#8 :: ds) ∧ DigitsDenote 16 ds m

/-- `lit ::= [ "-" ] magnitude`, with its value. -/
def LitDenotes (t : Text) (w : Word) : Prop :=
  (∃ m, MagnitudeDenotes t m ∧ m ≤ 2 ^ 64 - 1 ∧ w = BitVec.ofNat 64 m) ∨
    ∃ u m, t = 0x2d#8 :: u ∧ MagnitudeDenotes u m ∧ m ≤ 2 ^ 63 ∧ w = BitVec.ofNat 64 ((2 ^ 64 - m) % 2 ^ 64)

/-! ### Texts, declaratively (30_encoding.md rules R82 to R84, R94) -/

/-- Nothing but whitespace. -/
abbrev Blanks (t : Text) : Prop := ∀ b ∈ t, isWhitespace b = true

/-- A text, not empty, that neither begins nor ends with whitespace. -/
def Trimmed (t : Text) : Prop :=
  (∃ b, t.head? = some b ∧ isWhitespace b = false) ∧ ∃ b, t.getLast? = some b ∧ isWhitespace b = false

/-- Before every comma of the text the parentheses do not balance: the text holds no comma at depth 0. -/
def NoOuterComma (t : Text) : Prop := ∀ p q : Text, t = p ++ 0x2c#8 :: q → p.count 0x28#8 ≠ p.count 0x29#8

/-- The part shapes a memory operand may have between its parentheses. -/
def AdmittedParts (parts : List Text) : Prop :=
  (∃ r, parts = [r] ∧ r ≠ []) ∨ (∃ r x, parts = [r, x] ∧ r ≠ [] ∧ x ≠ []) ∨ ∃ r x s, parts = [r, x, s] ∧ x ≠ []

/-- The prefix of a memory operand is absent or a literal. -/
def OffsetOk (off : Text) : Prop := off = [] ∨ ∃ v, LitDenotes off v

/-- The text is a register spelling. -/
def RegisterOk (t : Tables) (p : Text) : Prop := ∃ v, (p, v) ∈ t.registers

/-! ### Good states -/

/-- The states a safe run goes through: memory is in canonical form and inside the store, the
parameters satisfy what 00_scope.md rule R5 states of them, and there is no error. -/
structure State.Inv (s : State) : Prop where
  memCanonical : s.mem.wf
  memBounded : ∀ c ∈ s.mem, c.1 < s.config.memSize
  configWf : s.config.wf = true
  noError : s.error = none

/-! ### Runs (70_reset_and_hazards.md rules R245 to R247) -/

/-- `n` cycles lead from `s` to `t`. -/
def Steps : Nat → State → State → Prop
  | 0, s, t => s = t
  | n + 1, s, t => ∃ u, step s = .next u ∧ Steps n u t

/-- A final state (rule R246). -/
def State.isFinal (s : State) : Prop := s.error = none ∧ s.pc = s.config.exitPc

/-- The run from `s` ends in the final state `t`. -/
def ReachesFinal (s t : State) : Prop := ∃ n, Steps n s t ∧ t.isFinal

/-- The run from `s` ends in a fatal error with record `r`, which leaves the state `t`. -/
def ReachesError (s : State) (r : ErrorRecord) (t : State) : Prop :=
  ∃ n u, Steps n s u ∧ step u = .fault (.fatal r t)

/-- The run from `s` never ends: a hang (rule R247). -/
def Hangs (s : State) : Prop := ∀ n, ∃ t u, Steps n s t ∧ step t = .next u

/-- A safe run: it never raises a fatal error. -/
def SafeRun (s : State) : Prop := ∀ r t, ¬ ReachesError s r t

/-- The same state under another value of `JMP_SEMANTICS` (45_branch.md rule R201). -/
def State.withJmp (s : State) (j : JmpSemantics) : State :=
  { s with config := { s.config with jmpSemantics := j } }

end Sys2Proof.Machine
end

