-- ==== Sys2Proof/Certificates/Slice0/Obligations.lean ====
section
/-! DEFINITION. The statements for the provers. Each docstring names the rule of the spec it formalises. -/

open Sys2Proof Sys2Proof.Machine

/-! ### Encoding -/

/-- Slots of 95_test_vectors.md, one or more of every family, byte by byte, decode to the instruction
they stand for (S7 and programs P1 to P3). They rest on the default tables, whose spellings are the spec's own
general knowledge (92_eei_decisions.md D8 and D9; PRESUMED, log entry 9). -/
def Obligations.SpecSlotsDecode : Prop :=
  decode defaultTables (padSlot 64 [0x61#8, 0x64#8, 0x64#8, 0x20#8, 0x25#8, 0x72#8, 0x62#8, 0x78#8, 0x2c#8, 0x20#8,
      0x25#8, 0x72#8, 0x61#8, 0x78#8]) = .ok (.addRR ⟨Reg.B, .Q⟩ ⟨Reg.A, .Q⟩) ∧
  decode defaultTables (padSlot 64 [0x6d#8, 0x6f#8, 0x76#8, 0x20#8, 0x2d#8, 0x30#8, 0x78#8, 0x31#8, 0x38#8, 0x28#8,
      0x25#8, 0x72#8, 0x62#8, 0x70#8, 0x29#8, 0x2c#8, 0x20#8, 0x25#8, 0x72#8, 0x64#8, 0x78#8]) =
    .ok (.movMR (.immReg 0xFFFFFFFFFFFFFFE8#64 ⟨Reg.BP, .Q⟩) ⟨Reg.D, .Q⟩) ∧
  decode defaultTables (padSlot 64 [0x70#8, 0x75#8, 0x73#8, 0x68#8, 0x20#8, 0x25#8, 0x72#8, 0x62#8, 0x70#8]) =
    .ok (.pushR ⟨Reg.BP, .Q⟩) ∧
  decode defaultTables (padSlot 64 [0x63#8, 0x61#8, 0x6c#8, 0x6c#8, 0x71#8, 0x20#8, 0x24#8, 0x30#8, 0x78#8, 0x34#8,
      0x30#8, 0x30#8, 0x30#8, 0x30#8, 0x30#8]) = .ok (.callI 0x400000#64) ∧
  decode defaultTables (padSlot 64 [0x72#8, 0x65#8, 0x74#8, 0x71#8]) = .ok .ret ∧
  decode defaultTables (padSlot 64 [0x63#8, 0x6d#8, 0x70#8, 0x71#8, 0x20#8, 0x24#8, 0x2d#8, 0x35#8, 0x2c#8, 0x20#8,
      0x38#8, 0x28#8, 0x25#8, 0x72#8, 0x62#8, 0x78#8, 0x29#8]) =
    .ok (.cmpIM 0xFFFFFFFFFFFFFFFB#64 (.immReg 8#64 ⟨Reg.B, .Q⟩)) ∧
  decode defaultTables (padSlot 64 [0x6a#8, 0x6e#8, 0x65#8, 0x20#8, 0x24#8, 0x30#8, 0x78#8, 0x34#8, 0x30#8, 0x30#8,
      0x30#8, 0x34#8, 0x30#8]) = .ok (.jneI 0x400040#64)

/-- Decoding the slot of a well-formed instruction gives it back: every opcode, form, view, memory tag,
scale and 64-bit literal, under any well-formed tables and any slot width the text fits in. -/
def Obligations.DecodeOfEncode : Prop :=
  ∀ (t : Tables) (w : Nat) (i : Instr), t.wf = true → i.wf t = true → (encode t i).length ≤ w →
    decode t (encodeSlot t w i) = .ok i

/-- The text of a slot is what stands before its first 00 byte, and all of it where there is none
(30_encoding.md rule R80). -/
def Obligations.SlotTextEndsAtFirstNul : Prop :=
  ∀ slot text : Text, slotText slot = text ↔
    (∀ b ∈ text, b ≠ 0#8) ∧ (slot = text ∨ ∃ rest, slot = text ++ 0#8 :: rest)

/-- The three formats, with any whitespace around the fields: the mnemonic ends at the first whitespace, the
first comma outside every parenthesis splits source and destination, a comma inside a group does not, and a
side of the comma that holds nothing, or whitespace alone, is empty (30_encoding.md rules R81 to R84). That a run
with no separator between mnemonic and operand is all mnemonic is R83's and not 93_implementation_defined.md
I20's reading (DESIGN CHOICE, log entry 15). -/
def Obligations.TokeniserFields : Prop :=
  ∀ a mn w src c d dst e : Text, Blanks a → Blanks w → Blanks c → Blanks d → Blanks e → w ≠ [] →
    mn ≠ [] → (∀ b ∈ mn, isWhitespace b = false) →
    tokenise (a ++ mn ++ e) = ⟨mn, [], [], false⟩ ∧
    (Trimmed src → NoOuterComma src → tokenise (a ++ mn ++ w ++ src ++ e) = ⟨mn, src, [], false⟩) ∧
    (src = [] ∨ Trimmed src → NoOuterComma src → src.count 0x28#8 = src.count 0x29#8 → dst = [] ∨ Trimmed dst →
      tokenise (a ++ mn ++ w ++ src ++ c ++ 0x2c#8 :: (d ++ dst ++ e)) = ⟨mn, src, dst, true⟩)

/-- R87: a mnemonic that is not in the table raises `UnknownOpcode`, with the mnemonic as its text,
whatever the operands are; the empty mnemonic of an empty or all-whitespace slot is included. That a mnemonic with
no separator before its operand is such a mnemonic, where 93_implementation_defined.md I20 names `MalformedOperand`,
is the model's choice (DESIGN CHOICE, log entry 15). -/
def Obligations.UnknownMnemonicRejected : Prop :=
  (∀ (t : Tables) (slot : Text), (∀ e ∈ t.mnemonics, e.1 ≠ (tokenise (slotText slot)).mnemonic) →
    decode t slot = .error ⟨.unknownOpcode, .mnemonic, (tokenise (slotText slot)).mnemonic⟩) ∧
  ∀ (t : Tables) (slot : Text), (∀ e ∈ t.mnemonics, e.1 ≠ []) → (∀ b ∈ slotText slot, isWhitespace b = true) →
    decode t slot = .error ⟨.unknownOpcode, .mnemonic, []⟩

/-- R85: the operand text checks, in their order, before any operand is parsed. That the error
carries the operand text is the model's reading of 60_exceptions.md rule R212 (DEDUCED, log entry 7). -/
def Obligations.OperandTextChecks : Prop :=
  ∀ (t : Tables) (slot : Text) (op : Opcode) (tok : Tokens), tok = tokenise (slotText slot) →
    lookup tok.mnemonic t.mnemonics = some op →
    (tok.hasComma = true → tok.src = [] → decode t slot = .error ⟨.malformedOperand, .src, tok.src⟩) ∧
    (tok.hasComma = true → tok.src ≠ [] → tok.dst = [] →
      decode t slot = .error ⟨.malformedOperand, .dst, tok.dst⟩) ∧
    (¬(tok.hasComma = true ∧ (tok.src = [] ∨ tok.dst = [])) → (∃ b ∈ tok.src, isWhitespace b = true) →
      decode t slot = .error ⟨.malformedOperand, .src, tok.src⟩) ∧
    (¬(tok.hasComma = true ∧ (tok.src = [] ∨ tok.dst = [])) → (∀ b ∈ tok.src, isWhitespace b = false) →
      (∃ b ∈ tok.dst, isWhitespace b = true) → decode t slot = .error ⟨.malformedOperand, .dst, tok.dst⟩) ∧
    (tok.hasComma = false → tok.src = [] → parseOperand t tok.src = .ok .empty) ∧
    (tok.hasComma = false → parseOperand t tok.dst = .ok .empty)

/-- R89, R90: a text is a literal of a value exactly when the grammar of R89 says so; an immediate operand and
the offset of a memory operand have the literal's value or raise `MalformedOperand`. That the error carries the
whole operand text is the model's reading of 60_exceptions.md rule R212 (DEDUCED, log entry 7). -/
def Obligations.LiteralGrammar : Prop :=
  (∀ (l : Text) (w : Word), parseLit l = some w ↔ LitDenotes l w) ∧
  ∀ (t : Tables) (l : Text),
    (∀ w, LitDenotes l w → parseOperand t (0x24#8 :: l) = .ok (.imm w)) ∧
    ((∀ w, ¬ LitDenotes l w) → parseOperand t (0x24#8 :: l) = .error (.malformedOperand, 0x24#8 :: l)) ∧
    ∀ whole : Text, l ≠ [] → (∀ w, LitDenotes l w → parseOffset whole l = .ok (some w)) ∧
      ((∀ w, ¬ LitDenotes l w) → parseOffset whole l = .error (.malformedOperand, whole))

/-- R93: a scale is a decimal literal of value 1, 2, 4 or 8; another value raises `IllegalScale`, any
other text `MalformedOperand`. That the first carries the scale and the second the whole operand text is the
model's reading of 60_exceptions.md rule R212 (DEDUCED, log entry 7); that a value of 2^64 or more is illegal and
not malformed follows R93 and not the range of R89 (DESIGN CHOICE, log entry 14). -/
def Obligations.ScaleLiterals : Prop :=
  ∀ (whole s : Text),
    (DigitsDenote 10 s 1 → parseScalePart whole s = .ok .one) ∧
    (DigitsDenote 10 s 2 → parseScalePart whole s = .ok .two) ∧
    (DigitsDenote 10 s 4 → parseScalePart whole s = .ok .four) ∧
    (DigitsDenote 10 s 8 → parseScalePart whole s = .ok .eight) ∧
    (∀ m, DigitsDenote 10 s m → m ≠ 1 → m ≠ 2 → m ≠ 4 → m ≠ 8 →
      parseScalePart whole s = .error (.illegalScale, s)) ∧
    ((∀ m, ¬ DigitsDenote 10 s m) → parseScalePart whole s = .error (.malformedOperand, whole))

/-- R91: a register operand is the whole text of a spelling, and any other text that begins with `%`
raises `UnknownRegisterName`. For a text with an unprintable byte this follows R91 where the last sentence of
R80 names other errors (DESIGN CHOICE, log entry 12), and the text carried is log entry 7's (DEDUCED). -/
def Obligations.RegisterOperands : Prop :=
  ∀ (t : Tables) (cs : Text), (t.registers.map Prod.fst).Nodup →
    (∀ v, (0x25#8 :: cs, v) ∈ t.registers → parseOperand t (0x25#8 :: cs) = .ok (.reg v)) ∧
    ((∀ e ∈ t.registers, e.1 ≠ 0x25#8 :: cs) →
      parseOperand t (0x25#8 :: cs) = .error (.unknownRegisterName, 0x25#8 :: cs))

/-- The nine memory texts and the tag each gives (30_encoding.md rules R88, R92): `l` is a literal of value `v`,
`rb` and `rx` are spellings of the views `b` and `x`, and `s` is a decimal literal of the scale `k`. -/
def Obligations.MemoryOperandTexts : Prop :=
  ∀ (t : Tables) (l rb rx s : Text) (v : Word) (b x : View) (k : Scale), t.wf = true → LitDenotes l v →
    (rb, b) ∈ t.registers → (rx, x) ∈ t.registers →
    (k = .one ∧ DigitsDenote 10 s 1 ∨ k = .two ∧ DigitsDenote 10 s 2 ∨ k = .four ∧ DigitsDenote 10 s 4 ∨
      k = .eight ∧ DigitsDenote 10 s 8) →
    parseOperand t l = .ok (.mem (.imm v)) ∧
    parseOperand t (0x28#8 :: (rb ++ [0x29#8])) = .ok (.mem (.reg b)) ∧
    parseOperand t (l ++ 0x28#8 :: (rb ++ [0x29#8])) = .ok (.mem (.immReg v b)) ∧
    parseOperand t (0x28#8 :: (rb ++ 0x2c#8 :: (rx ++ [0x29#8]))) = .ok (.mem (.reg1Reg2 b x)) ∧
    parseOperand t (l ++ 0x28#8 :: (rb ++ 0x2c#8 :: (rx ++ [0x29#8]))) = .ok (.mem (.immReg1Reg2 v b x)) ∧
    parseOperand t (0x28#8 :: 0x2c#8 :: (rx ++ 0x2c#8 :: (s ++ [0x29#8]))) = .ok (.mem (.reg2S x k)) ∧
    parseOperand t (l ++ 0x28#8 :: 0x2c#8 :: (rx ++ 0x2c#8 :: (s ++ [0x29#8]))) = .ok (.mem (.immReg2S v x k)) ∧
    parseOperand t (0x28#8 :: (rb ++ 0x2c#8 :: (rx ++ 0x2c#8 :: (s ++ [0x29#8])))) =
      .ok (.mem (.reg1Reg2S b x k)) ∧
    parseOperand t (l ++ 0x28#8 :: (rb ++ 0x2c#8 :: (rx ++ 0x2c#8 :: (s ++ [0x29#8])))) =
      .ok (.mem (.immReg1Reg2S v b x k))

/-- R94: what a memory operand text raises, in the order of its two phases: the shape first, then the offset,
the register parts from left to right, and the scale. That a register part without `%` and a malformed scale
carry the whole operand text, and an illegal scale the scale, is the model's reading of 60_exceptions.md rule R212
(DEDUCED, log entry 7). A register part with an unprintable byte follows R94 (DESIGN CHOICE, log entry 12), and a
scale of 2^64 or more is illegal and not malformed (DESIGN CHOICE, log entry 14). -/
def Obligations.MemoryOperandErrors : Prop :=
  ∀ (t : Tables) (u : Text), t.wf = true → u ≠ [] → u.head? ≠ some 0x24#8 → u.head? ≠ some 0x25#8 →
    (0x28#8 ∉ u → (∀ v, LitDenotes u v → parseOperand t u = .ok (.mem (.imm v))) ∧
      ((∀ v, ¬ LitDenotes u v) → parseOperand t u = .error (.malformedOperand, u))) ∧
    (0x28#8 ∈ u → ¬(u.count 0x28#8 = 1 ∧ u.count 0x29#8 = 1 ∧ u.getLast? = some 0x29#8) →
      parseOperand t u = .error (.malformedOperand, u)) ∧
    ∀ (off inner : Text) (parts : List Text), u = off ++ 0x28#8 :: (inner ++ [0x29#8]) →
      (∀ b ∈ off, b ≠ 0x28#8 ∧ b ≠ 0x29#8) → (∀ b ∈ inner, b ≠ 0x28#8 ∧ b ≠ 0x29#8) → parts ≠ [] →
      (∀ p ∈ parts, 0x2c#8 ∉ p) → inner = List.intercalate [0x2c#8] parts →
      (¬ AdmittedParts parts → parseOperand t u = .error (.malformedOperand, u)) ∧
      (AdmittedParts parts → ¬ OffsetOk off → parseOperand t u = .error (.malformedOperand, u)) ∧
      (AdmittedParts parts → OffsetOk off → ∀ (before after : List Text) (p : Text),
        parts.take 2 = before ++ p :: after → p ≠ [] → (∀ q ∈ before, q = [] ∨ RegisterOk t q) →
        (p.head? ≠ some 0x25#8 → parseOperand t u = .error (.malformedOperand, u)) ∧
        (p.head? = some 0x25#8 → ¬ RegisterOk t p → parseOperand t u = .error (.unknownRegisterName, p))) ∧
      (∀ r x s, parts = [r, x, s] → OffsetOk off → (r = [] ∨ RegisterOk t r) → RegisterOk t x →
        ((∀ m, ¬ DigitsDenote 10 s m) → parseOperand t u = .error (.malformedOperand, u)) ∧
        (∀ m, DigitsDenote 10 s m → m ≠ 1 → m ≠ 2 → m ≠ 4 → m ≠ 8 →
          parseOperand t u = .error (.illegalScale, s)))

/-- The default table has 72 spellings, no two equal, and spells every view but the `H` views of R8 to R15
(10_state.md rules R24, R25; the spellings themselves are the spec's general knowledge, D8). -/
def Obligations.DefaultSpellings : Prop :=
  defaultTables.wf = true ∧ defaultTables.registers.length = 72 ∧
    ∀ v : View, v.spelled defaultTables = false ↔ Reg.R8 ≤ v.reg ∧ v.kind = .H

/-- R102, R103: the form check admits exactly the seventeen forms, keeps opcode and operands, and any
other form raises `UnsupportedOperandForm`. That the error carries the slot's text is the model's reading of
95_test_vectors.md program P5 (DEDUCED, log entry 7). -/
def Obligations.AdmittedForms : Prop :=
  (∀ op src dst i, formOf op src dst = some i →
    (op, src.cls, dst.cls) ∈ admittedForms ∧ i.opcode = op ∧ i.src = src ∧ i.dst = dst) ∧
  ∀ (t : Tables) (text : Text) (op : Opcode) (tok : Tokens) (src dst : Operand),
    parseOperand t tok.src = .ok src → parseOperand t tok.dst = .ok dst →
    ((op, src.cls, dst.cls) ∈ admittedForms →
      ∃ i, decodeOperands t text op tok = .ok i ∧ i.opcode = op ∧ i.src = src ∧ i.dst = dst) ∧
    ((op, src.cls, dst.cls) ∉ admittedForms →
      decodeOperands t text op tok = .error ⟨.unsupportedOperandForm, .form, text⟩)

/-- Every slot decodes to an instruction of an admitted form, or is rejected with one of the five decode
errors (30_encoding.md rule R104), in the field that kind of error can stand in. -/
def Obligations.EverySlotDecodesOrIsRejected : Prop :=
  ∀ (t : Tables) (slot : Text),
    (∃ i, decode t slot = .ok i ∧ (i.opcode, i.src.cls, i.dst.cls) ∈ admittedForms) ∨
    ∃ e, decode t slot = .error e ∧
      ((e.kind = .unknownOpcode ∧ e.field = .mnemonic) ∨
       (e.kind = .unsupportedOperandForm ∧ e.field = .form) ∨
       ((e.kind = .unknownRegisterName ∨ e.kind = .illegalScale ∨ e.kind = .malformedOperand) ∧
         (e.field = .src ∨ e.field = .dst)))

/-- R95: the first error is reported in the order mnemonic, text checks, source, destination, form. That
a form error carries the slot's text is the model's reading of 95_test_vectors.md program P5 (DEDUCED, log entry 7);
that a mnemonic with no separator before its operand is an unknown one is its choice (DESIGN CHOICE, log entry 15). -/
def Obligations.FirstErrorInOrder : Prop :=
  ∀ (t : Tables) (slot : Text) (tok : Tokens), tok = tokenise (slotText slot) →
    (lookup tok.mnemonic t.mnemonics = none → decode t slot = .error ⟨.unknownOpcode, .mnemonic, tok.mnemonic⟩) ∧
    ∀ op, lookup tok.mnemonic t.mnemonics = some op →
      (∀ e, textCheck tok = some e → decode t slot = .error e) ∧
      (textCheck tok = none →
        (∀ k x, parseOperand t tok.src = .error (k, x) → decode t slot = .error ⟨k, .src, x⟩) ∧
        (∀ src k x, parseOperand t tok.src = .ok src → parseOperand t tok.dst = .error (k, x) →
          decode t slot = .error ⟨k, .dst, x⟩) ∧
        (∀ src dst, parseOperand t tok.src = .ok src → parseOperand t tok.dst = .ok dst →
          formOf op src dst = none → decode t slot = .error ⟨.unsupportedOperandForm, .form, slotText slot⟩))

/-! ### Registers, operands, memory, fetch -/

/-- R22: byte j of `x[(r,k)]` is byte `off(k)+j` of the register for j below `nbytes(k)`, and 0 above. -/
def Obligations.ViewRead : Prop :=
  ∀ (s : State) (l : View) (j : Nat), j < 8 →
    byteOf (s.readView l) j = if j < nbytesOf l.kind then s.regByte l.reg (offsetOf l.kind + j) else 0#8

/-- R23: a write through a view changes exactly the view's bytes, and reading the view back gives the
value modulo 2^(8*nbytes(k)). -/
def Obligations.ViewWrite : Prop :=
  ∀ (s : State) (l : View) (v : Word),
    ViewWritten l v s.reg (s.writeView l v) ∧
    ((s.writeView l v).readView l).toNat = v.toNat % 2 ^ (8 * nbytesOf l.kind) ∧
    (s.writeView l v).flags = s.flags ∧ (s.writeView l v).pc = s.pc ∧ (s.writeView l v).mem = s.mem ∧
    SameRest s (s.writeView l v)

/-- R97: an operand decodes to its value, its location or its address; the address of a memory target is
used as it is, so that the memory form of CALL, JNE and JMP is the immediate form of that address. -/
def Obligations.OperandDecode : Prop :=
  ∀ s : State, decodeOperand .empty s = .value 0#64 ∧ (∀ v, decodeOperand (.imm v) s = .value v) ∧
    (∀ l, decodeOperand (.reg l) s = .location l) ∧
    ∀ m a, decodeOperand (.mem m) s = .address a ↔ a = s.effectiveAddress m ∧ exec (.callM m) s = exec (.callI a) s ∧
      exec (.jneM m) s = exec (.jneI a) s ∧ exec (.jmpM m) s = exec (.jmpI a) s

/-- R98: the effective address of each of the nine memory tags. -/
def Obligations.EffectiveAddress : Prop :=
  ∀ (s : State) (i : Word) (b x : View) (k : Scale) (f : Word),
    (k = .one → f = 1#64) → (k = .two → f = 2#64) → (k = .four → f = 4#64) → (k = .eight → f = 8#64) →
    s.effectiveAddress (.imm i) = i ∧
    s.effectiveAddress (.reg b) = s.readView b ∧
    s.effectiveAddress (.immReg i b) = i + s.readView b ∧
    s.effectiveAddress (.reg1Reg2 b x) = s.readView b + s.readView x ∧
    s.effectiveAddress (.immReg1Reg2 i b x) = i + s.readView b + s.readView x ∧
    s.effectiveAddress (.reg2S x k) = s.readView x * f ∧
    s.effectiveAddress (.immReg2S i x k) = i + s.readView x * f ∧
    s.effectiveAddress (.reg1Reg2S b x k) = s.readView b + s.readView x * f ∧
    s.effectiveAddress (.immReg1Reg2S i b x k) = i + s.readView b + s.readView x * f

/-- R53: a load is eight bytes, little-endian, from one translation of the address, or fails past the
end of the store. -/
def Obligations.LoadRule : Prop :=
  ∀ (s : State) (a : Word),
    (s.physical a + 8 ≤ s.config.memSize → ∃ v, s.memRead a = .ok v ∧ LoadedFrom (s.physical a) v s) ∧
    (s.config.memSize < s.physical a + 8 → s.memRead a = .error ⟨.memoryOutOfRange, a, s.physical a⟩)

/-- R54: a store writes eight bytes, little-endian, and no other; the range check comes before the
code-region check. -/
def Obligations.StoreRule : Prop :=
  ∀ (s : State) (a v : Word), s.mem.wf →
    (s.physical a + 8 ≤ s.config.memSize →
      (∀ c ∈ s.config.codeRegion, ¬(s.physical a ≤ c ∧ c ≤ s.physical a + 7)) →
      ∃ w, s.memWrite a v = .ok w ∧ StoredAt (s.physical a) v s w ∧ w.memRead a = .ok v ∧ SameRegs s w ∧
        w.flags = s.flags ∧ w.pc = s.pc ∧ SameRest s w) ∧
    (s.config.memSize < s.physical a + 8 → s.memWrite a v = .error ⟨.memoryOutOfRange, a, s.physical a⟩) ∧
    (s.physical a + 8 ≤ s.config.memSize →
      (∃ c ∈ s.config.codeRegion, s.physical a ≤ c ∧ c ≤ s.physical a + 7) →
      s.memWrite a v = .error ⟨.storeToCode, a, s.physical a⟩)

/-- R56: overlapping accesses share bytes, and each byte keeps the last value stored to it. -/
def Obligations.OverlappingAccesses : Prop :=
  ∀ (m : Memory) (p q : Nat) (v : Word) (j : Nat), m.wf → j < 8 →
    byteOf ((m.store64 p v).load64 q) j =
      if p ≤ q + j ∧ q + j < p + 8 then byteOf v (q + j - p) else byteOf (m.load64 q) j

/-- R131: fetch finds a slot exactly where one stands, a well-formed program ends at or below 2^64, and a pc
that is no slot's address raises `FetchOutOfStream`, changing nothing but the error status. -/
def Obligations.FetchRule : Prop :=
  (∀ (c : Config) (pc : Word) (slot : Text), 0 < c.slotWidth →
    (fetchSlot c pc = some slot ↔
      ∃ k, c.program.slots[k]? = some slot ∧ c.program.base.toNat + k * c.slotWidth = pc.toNat)) ∧
  (∀ c : Config, c.wf = true → c.program.base.toNat + c.program.slots.length * c.slotWidth ≤ 2 ^ 64) ∧
  ∀ s : State, s.error = none → s.pc ≠ s.config.exitPc →
    (∀ k, k < s.config.program.slots.length →
      s.config.program.base.toNat + k * s.config.slotWidth ≠ s.pc.toNat) →
    ∃ r, step s = .fault (.fatal r { s with error := some r }) ∧ r.kind = .fetchOutOfStream ∧ r.code = 6 ∧
      r.pc = s.pc ∧ r.slotText = none ∧ r.vaddr = none ∧ r.paddr = none

/-! ### MOV -/

/-- R150: MOV {Register, Register} always completes; it changes the destination view, the flags and the pc. -/
def Obligations.MovRegisterRegister : Prop :=
  ∀ (src dst : View) (s : State), ∃ t, exec (.movRR src dst) s = .next t ∧
    ViewWritten dst (s.readView src) s.reg t ∧ t.flags = Flags.zero ∧
    t.pc = s.pc + BitVec.ofNat 64 s.config.slotWidth ∧ SameMemory s t ∧ SameRest s t

/-- R151: MOV {Register, Memory} stores all eight bytes at the effective address and changes no register,
or fails there. -/
def Obligations.MovRegisterMemory : Prop :=
  ∀ (src : View) (dst : MemOp) (s : State), s.mem.wf →
    (s.writable (s.effectiveAddress dst) → ∃ t, exec (.movRM src dst) s = .next t ∧
      StoredAt (s.physical (s.effectiveAddress dst)) (s.readView src) s t ∧ SameRegs s t ∧
      t.flags = Flags.zero ∧ t.pc = s.pc + BitVec.ofNat 64 s.config.slotWidth ∧ SameRest s t) ∧
    (¬ s.inRange (s.physical (s.effectiveAddress dst)) →
      RaisesMemory (exec (.movRM src dst) s) s .memoryOutOfRange (s.effectiveAddress dst)) ∧
    (s.inRange (s.physical (s.effectiveAddress dst)) →
      s.touchesCode (s.physical (s.effectiveAddress dst)) = true →
      RaisesMemory (exec (.movRM src dst) s) s .storeToCode (s.effectiveAddress dst))

/-- R152: MOV {Memory, Register} loads from the effective address of the old registers into the view,
or fails there. -/
def Obligations.MovMemoryRegister : Prop :=
  ∀ (src : MemOp) (dst : View) (s : State),
    (s.readable (s.effectiveAddress src) → ∃ v t, LoadedFrom (s.physical (s.effectiveAddress src)) v s ∧
      exec (.movMR src dst) s = .next t ∧ ViewWritten dst v s.reg t ∧ t.flags = Flags.zero ∧
      t.pc = s.pc + BitVec.ofNat 64 s.config.slotWidth ∧ SameMemory s t ∧ SameRest s t) ∧
    (¬ s.readable (s.effectiveAddress src) →
      RaisesMemory (exec (.movMR src dst) s) s .memoryOutOfRange (s.effectiveAddress src))

/-- R153: MOV {Immediate, Register} always completes; the pattern is truncated to the view. -/
def Obligations.MovImmediateRegister : Prop :=
  ∀ (imm : Word) (dst : View) (s : State), ∃ t, exec (.movIR imm dst) s = .next t ∧
    ViewWritten dst imm s.reg t ∧ t.flags = Flags.zero ∧
    t.pc = s.pc + BitVec.ofNat 64 s.config.slotWidth ∧ SameMemory s t ∧ SameRest s t

/-! ### The stack -/

/-- R160: PUSH stores the source's old value at SP - 8 and decrements SP, or fails with SP unchanged. -/
def Obligations.PushRegister : Prop :=
  ∀ (src : View) (s : State), s.mem.wf →
    (s.writable (s.reg Reg.SP - 8#64) → ∃ t, exec (.pushR src) s = .next t ∧
      StoredAt (s.physical (s.reg Reg.SP - 8#64)) (s.readView src) s t ∧
      (∀ r, t.reg r = if r = Reg.SP then s.reg Reg.SP - 8#64 else s.reg r) ∧
      t.flags = Flags.zero ∧ t.pc = s.pc + BitVec.ofNat 64 s.config.slotWidth ∧ SameRest s t) ∧
    (¬ s.inRange (s.physical (s.reg Reg.SP - 8#64)) →
      RaisesMemory (exec (.pushR src) s) s .memoryOutOfRange (s.reg Reg.SP - 8#64)) ∧
    (s.inRange (s.physical (s.reg Reg.SP - 8#64)) → s.touchesCode (s.physical (s.reg Reg.SP - 8#64)) = true →
      RaisesMemory (exec (.pushR src) s) s .storeToCode (s.reg Reg.SP - 8#64))

/-- R161: POP loads at SP, increments SP, then writes the view over the incremented SP, or fails. -/
def Obligations.PopRegister : Prop :=
  ∀ (dst : View) (s : State),
    (s.readable (s.reg Reg.SP) → ∃ v t, LoadedFrom (s.physical (s.reg Reg.SP)) v s ∧
      exec (.popR dst) s = .next t ∧
      ViewWritten dst v (fun r => if r = Reg.SP then s.reg Reg.SP + 8#64 else s.reg r) t ∧
      t.flags = Flags.zero ∧ t.pc = s.pc + BitVec.ofNat 64 s.config.slotWidth ∧ SameMemory s t ∧ SameRest s t) ∧
    (¬ s.readable (s.reg Reg.SP) → RaisesMemory (exec (.popR dst) s) s .memoryOutOfRange (s.reg Reg.SP))

/-- R162: LEAVE sets SP to the old BP plus 8 and BP to the value at the old BP, or fails. -/
def Obligations.Leave : Prop :=
  ∀ s : State,
    (s.readable (s.reg Reg.BP) → ∃ v t, LoadedFrom (s.physical (s.reg Reg.BP)) v s ∧ exec .leave s = .next t ∧
      (∀ r, t.reg r = if r = Reg.BP then v else if r = Reg.SP then s.reg Reg.BP + 8#64 else s.reg r) ∧
      t.flags = Flags.zero ∧ t.pc = s.pc + BitVec.ofNat 64 s.config.slotWidth ∧ SameMemory s t ∧ SameRest s t) ∧
    (¬ s.readable (s.reg Reg.BP) → RaisesMemory (exec .leave s) s .memoryOutOfRange (s.reg Reg.BP))

/-- R163: a push of any view, then a pop into the `Q` view of a register other than SP: if the push
completes so does the pop, SP is restored and the register holds the pushed value; and a push of SP
then a pop of SP restores SP. -/
def Obligations.PushThenPop : Prop :=
  ∀ (a b : View) (s t : State), s.mem.wf → exec (.pushR a) s = .next t → b.kind = .Q →
    (b.reg ≠ Reg.SP → ∃ u, exec (.popR b) t = .next u ∧ u.reg Reg.SP = s.reg Reg.SP ∧
      u.readView b = s.readView a) ∧
    (a = ⟨Reg.SP, .Q⟩ → b.reg = Reg.SP → ∃ u, exec (.popR b) t = .next u ∧ u.reg Reg.SP = s.reg Reg.SP)

/-! ### CALL and RET -/

/-- R170: both forms of CALL push the address of the next slot and jump to the immediate or to the
effective address of the old registers, or fail with nothing changed. -/
def Obligations.Call : Prop :=
  ∀ (i : Instr) (target : Word) (s : State), s.mem.wf →
    (i = .callI target ∨ ∃ m, i = .callM m ∧ target = s.effectiveAddress m) →
    (s.writable (s.reg Reg.SP - 8#64) → ∃ t, exec i s = .next t ∧
      StoredAt (s.physical (s.reg Reg.SP - 8#64)) (s.pc + BitVec.ofNat 64 s.config.slotWidth) s t ∧
      (∀ r, t.reg r = if r = Reg.SP then s.reg Reg.SP - 8#64 else s.reg r) ∧
      t.flags = Flags.zero ∧ t.pc = target ∧ SameRest s t) ∧
    (¬ s.inRange (s.physical (s.reg Reg.SP - 8#64)) →
      RaisesMemory (exec i s) s .memoryOutOfRange (s.reg Reg.SP - 8#64)) ∧
    (s.inRange (s.physical (s.reg Reg.SP - 8#64)) → s.touchesCode (s.physical (s.reg Reg.SP - 8#64)) = true →
      RaisesMemory (exec i s) s .storeToCode (s.reg Reg.SP - 8#64))

/-- R171: RET loads the pc at SP and increments SP, or fails. -/
def Obligations.Return : Prop :=
  ∀ s : State,
    (s.readable (s.reg Reg.SP) → ∃ v t, LoadedFrom (s.physical (s.reg Reg.SP)) v s ∧ exec .ret s = .next t ∧
      (∀ r, t.reg r = if r = Reg.SP then s.reg Reg.SP + 8#64 else s.reg r) ∧
      t.flags = Flags.zero ∧ t.pc = v ∧ SameMemory s t ∧ SameRest s t) ∧
    (¬ s.readable (s.reg Reg.SP) → RaisesMemory (exec .ret s) s .memoryOutOfRange (s.reg Reg.SP))

/-- R172: a RET that runs with SP and the return slot as a CALL left them goes to the slot after the
CALL and restores SP, whatever else has changed between. -/
def Obligations.CallThenReturn : Prop :=
  ∀ (i : Instr) (target : Word) (s t u : State), s.mem.wf →
    (i = .callI target ∨ ∃ m, i = .callM m ∧ target = s.effectiveAddress m) → exec i s = .next t →
    u.config = t.config → u.reg Reg.SP = t.reg Reg.SP →
    (∀ j, j < 8 → u.mem.read (u.physical (u.reg Reg.SP) + j) = t.mem.read (t.physical (t.reg Reg.SP) + j)) →
    ∃ w, exec .ret u = .next w ∧ w.pc = s.pc + BitVec.ofNat 64 s.config.slotWidth ∧ w.reg Reg.SP = s.reg Reg.SP

/-! ### The ALU -/

/-- CF and OF of an addition are exact: CF is the unsigned carry out of bit 63, OF holds exactly when
the signed sum does not fit in 64 bits (44_alu.md rule R181). -/
def Obligations.AdditionFlagsExact : Prop :=
  ∀ a b : Word, (aluAdd a b).value.toNat = (a.toNat + b.toNat) % 2 ^ 64 ∧
    ((aluAdd a b).flags.cf = true ↔ 2 ^ 64 ≤ a.toNat + b.toNat) ∧
    ((aluAdd a b).flags.zf = true ↔ (a.toNat + b.toNat) % 2 ^ 64 = 0) ∧
    ((aluAdd a b).flags.sf = true ↔ (aluAdd a b).value.toInt < 0) ∧
    ((aluAdd a b).flags.of = true ↔ ¬(-2 ^ 63 ≤ a.toInt + b.toInt ∧ a.toInt + b.toInt < 2 ^ 63))

/-- CF and OF of a subtraction are exact: CF is the unsigned borrow, in both of the rule's forms, and OF
holds exactly when the signed difference does not fit in 64 bits (44_alu.md rule R182, 90_conflicts.md C2). -/
def Obligations.SubtractionFlagsExact : Prop :=
  ∀ d s : Word, (aluSub d s).value = d - s ∧
    ((aluSub d s).flags.cf = true ↔ d.toNat < s.toNat) ∧
    ((aluSub d s).flags.cf = true ↔ d.toNat < (aluSub d s).value.toNat) ∧
    ((aluSub d s).flags.zf = true ↔ d = s) ∧
    ((aluSub d s).flags.sf = true ↔ (aluSub d s).value.toInt < 0) ∧
    ((aluSub d s).flags.of = true ↔ ¬(-2 ^ 63 ≤ d.toInt - s.toInt ∧ d.toInt - s.toInt < 2 ^ 63))

/-- R190 with R181 and R184: ADD always completes; the flags are those of the 64-bit sum of the
zero-extended views, each sign from its own operand, and the sum is truncated to the destination view. -/
def Obligations.AddRegisterRegister : Prop :=
  ∀ (src dst : View) (s : State) (a b r : Word), a = s.readView dst → b = s.readView src → r = a + b →
    ∃ t, exec (.addRR src dst) s = .next t ∧ ViewWritten dst r s.reg t ∧
      (t.flags.cf = true ↔ r.toNat < a.toNat) ∧ (t.flags.zf = true ↔ r = 0#64) ∧ t.flags.sf = r.getLsbD 63 ∧
      (t.flags.of = true ↔ a.getLsbD 63 = b.getLsbD 63 ∧ r.getLsbD 63 ≠ a.getLsbD 63) ∧
      t.pc = s.pc + BitVec.ofNat 64 s.config.slotWidth ∧ SameMemory s t ∧ SameRest s t

/-- R191 with R182: SUB always completes; the flags are those of the 64-bit difference, and it is
truncated to the destination view. -/
def Obligations.SubImmediateRegister : Prop :=
  ∀ (imm : Word) (dst : View) (s : State) (d r : Word), d = s.readView dst → r = d + (~~~imm + 1#64) →
    ∃ t, exec (.subIR imm dst) s = .next t ∧ ViewWritten dst r s.reg t ∧
      (t.flags.cf = true ↔ d.toNat < imm.toNat) ∧ (t.flags.zf = true ↔ r = 0#64) ∧ t.flags.sf = r.getLsbD 63 ∧
      (t.flags.of = true ↔ imm.getLsbD 63 ≠ d.getLsbD 63 ∧ r.getLsbD 63 ≠ d.getLsbD 63) ∧
      t.pc = s.pc + BitVec.ofNat 64 s.config.slotWidth ∧ SameMemory s t ∧ SameRest s t

/-- R192 with R182: CMP sets the flags of `mem - imm` and writes no register and no memory, or fails. -/
def Obligations.CmpImmediateMemory : Prop :=
  ∀ (imm : Word) (dst : MemOp) (s : State),
    (s.readable (s.effectiveAddress dst) → ∃ d t, LoadedFrom (s.physical (s.effectiveAddress dst)) d s ∧
      exec (.cmpIM imm dst) s = .next t ∧ SameRegs s t ∧
      (t.flags.cf = true ↔ d.toNat < imm.toNat) ∧ (t.flags.zf = true ↔ d = imm) ∧
      t.flags.sf = (d - imm).getLsbD 63 ∧
      (t.flags.of = true ↔ imm.getLsbD 63 ≠ d.getLsbD 63 ∧ (d - imm).getLsbD 63 ≠ d.getLsbD 63) ∧
      t.pc = s.pc + BitVec.ofNat 64 s.config.slotWidth ∧ SameMemory s t ∧ SameRest s t) ∧
    (¬ s.readable (s.effectiveAddress dst) →
      RaisesMemory (exec (.cmpIM imm dst) s) s .memoryOutOfRange (s.effectiveAddress dst))

/-! ### Branches -/

/-- R200: both forms of JNE always complete: to the target when ZF is 0, to the next slot when it is 1,
the flags cleared in either case, registers and memory unchanged. -/
def Obligations.BranchNotEqual : Prop :=
  ∀ (i : Instr) (target : Word) (s : State),
    (i = .jneI target ∨ ∃ m, i = .jneM m ∧ target = s.effectiveAddress m) →
    ∃ t, exec i s = .next t ∧ (s.flags.zf = false → t.pc = target) ∧
      (s.flags.zf = true → t.pc = s.pc + BitVec.ofNat 64 s.config.slotWidth) ∧
      t.flags = Flags.zero ∧ SameRegs s t ∧ SameMemory s t ∧ SameRest s t

/-- R201: both forms of JMP always complete: to the target when ZF is 0; when it is 1, as `JMP_SEMANTICS`
says. -/
def Obligations.Jump : Prop :=
  ∀ (i : Instr) (target : Word) (s : State),
    (i = .jmpI target ∨ ∃ m, i = .jmpM m ∧ target = s.effectiveAddress m) →
    ∃ t, exec i s = .next t ∧ (s.flags.zf = false → t.pc = target) ∧
      (s.flags.zf = true → s.config.jmpSemantics = .unconditional → t.pc = target) ∧
      (s.flags.zf = true → s.config.jmpSemantics = .guardedStay → t.pc = s.pc) ∧
      (s.flags.zf = true → s.config.jmpSemantics = .guardedFallthrough →
        t.pc = s.pc + BitVec.ofNat 64 s.config.slotWidth) ∧
      t.flags = Flags.zero ∧ SameRegs s t ∧ SameMemory s t ∧ SameRest s t

/-- Under `GuardedStay` a JMP with ZF = 1 takes two cycles, and then the state is that of one
`Unconditional` JMP (45_branch.md rule R202). -/
def Obligations.GuardedJumpTakesTwoCycles : Prop :=
  ∀ (s : State) (slot : Text) (i : Instr) (target : Word), s.error = none → s.pc ≠ s.config.exitPc →
    fetchSlot s.config s.pc = some slot → decode s.config.tables slot = .ok i →
    (i = .jmpI target ∨ ∃ m, i = .jmpM m ∧ target = s.effectiveAddress m) →
    s.config.jmpSemantics = .guardedStay → s.flags.zf = true →
    ∃ t u v, step s = .next t ∧ t.pc = s.pc ∧ step t = .next u ∧
      step (s.withJmp .unconditional) = .next v ∧ u.withJmp .unconditional = v ∧ u.pc = target

/-- A run reaches a final state under `GuardedStay` exactly when it does under `Unconditional`, and the
final states are the same (45_branch.md rule R202). -/
def Obligations.GuardedStayAgreesWithUnconditional : Prop :=
  ∀ s t : State, s.config.jmpSemantics = .guardedStay → t.config.jmpSemantics = .guardedStay →
    (ReachesFinal s t ↔ ReachesFinal (s.withJmp .unconditional) (t.withJmp .unconditional))

/-- A taken JNE to its own slot, in either form, once entered, never ends (45_branch.md rule R200). -/
def Obligations.SelfBranchHangs : Prop :=
  ∀ (s : State) (slot : Text) (i : Instr), s.error = none → s.pc ≠ s.config.exitPc → s.flags.zf = false →
    fetchSlot s.config s.pc = some slot → decode s.config.tables slot = .ok i →
    (i = .jneI s.pc ∨ ∃ m, i = .jneM m ∧ s.effectiveAddress m = s.pc) → Hangs s

/-! ### The flags, the frame and the cycle -/

/-- R136: every instruction other than ADD, SUB and CMP that completes leaves all four flags 0. -/
def Obligations.FlagsLastOneInstruction : Prop :=
  ∀ (i : Instr) (s t : State), exec i s = .next t → setsFlags i.opcode = false → t.flags = Flags.zero

/-- After any instruction other than ADD, SUB and CMP, a JNE of either form is taken
(70_reset_and_hazards.md rule R250). -/
def Obligations.BranchAfterOtherInstructionIsTaken : Prop :=
  ∀ (i j : Instr) (s t : State) (target : Word), exec i s = .next t → setsFlags i.opcode = false →
    (j = .jneI target ∨ ∃ m, j = .jneM m ∧ target = t.effectiveAddress m) →
    ∃ u, exec j t = .next u ∧ u.pc = target

/-- CF, SF and OF are never read: a cycle that completes reaches the same state whatever they were
(10_state.md rule R31). -/
def Obligations.OnlyZeroFlagIsRead : Prop :=
  ∀ (s t : State) (f : Flags), f.zf = s.flags.zf → step s = .next t → step (s.setFlags f) = .next t

/-- Every instruction leaves each register alone that 10_state.md rule R28 does not list as written,
leaves every byte alone outside the eight it stores to, and leaves the error status and the parameters alone. -/
def Obligations.InstructionFrame : Prop :=
  ∀ (i : Instr) (s t : State), exec i s = .next t →
    (∀ r, r ∉ writtenRegs i → t.reg r = s.reg r) ∧
    (storeAddress i s = none → SameMemory s t) ∧
    (∀ a, storeAddress i s = some a → ∀ p, p < s.physical a ∨ s.physical a + 8 ≤ p → t.mem.read p = s.mem.read p) ∧
    SameRest s t

/-- Which instruction raises which error, and exactly when (60_exceptions.md rule R211, "raised by"): an
instruction completes, or fails because its one load or store fails; and when that access fails, so does the
instruction, with that error, the range before the code region (rule R213). -/
def Obligations.InstructionFailsExactlyWhenItsAccessDoes : Prop :=
  ∀ (i : Instr) (s : State),
    ((∃ t, exec i s = .next t) ∨
      (∃ a, (storeAddress i s = some a ∨ loadAddress i s = some a) ∧ ¬ s.inRange (s.physical a) ∧
        RaisesMemory (exec i s) s .memoryOutOfRange a) ∨
      (∃ a, storeAddress i s = some a ∧ s.inRange (s.physical a) ∧ s.touchesCode (s.physical a) = true ∧
        RaisesMemory (exec i s) s .storeToCode a)) ∧
    (∀ a, storeAddress i s = some a ∨ loadAddress i s = some a → ¬ s.inRange (s.physical a) →
      RaisesMemory (exec i s) s .memoryOutOfRange a) ∧
    (∀ a, storeAddress i s = some a → s.inRange (s.physical a) → s.touchesCode (s.physical a) = true →
      RaisesMemory (exec i s) s .storeToCode a)

/-- A cycle at a slot that decodes to an instruction is that instruction's execution and nothing around it
(40_dispatch.md rule R138). -/
def Obligations.StepRunsDecodedInstruction : Prop :=
  ∀ (s : State) (slot : Text) (i : Instr), s.error = none → s.pc ≠ s.config.exitPc →
    fetchSlot s.config s.pc = some slot → decode s.config.tables slot = .ok i → step s = exec i s

/-- A cycle at a slot that does not decode raises the parser's error, with the slot's text, and changes
nothing but the error status (40_dispatch.md rule R138, 60_exceptions.md rules R212, R214). -/
def Obligations.StepRaisesDecodeError : Prop :=
  ∀ (s : State) (slot : Text) (e : DecodeError), s.error = none → s.pc ≠ s.config.exitPc →
    fetchSlot s.config s.pc = some slot → decode s.config.tables slot = .error e →
    ∃ r, step s = .fault (.fatal r { s with error := some r }) ∧ r.kind = e.kind ∧ r.pc = s.pc ∧
      r.slotText = some (slotText slot) ∧ r.field = e.field ∧ r.offendingText = e.text ∧
      r.vaddr = none ∧ r.paddr = none

/-- A state with an error makes no step, and a final state is reported as final and executes nothing
(40_dispatch.md rule R138, 70_reset_and_hazards.md rule R246); that "final" is a refusal which carries the
state, and "no step" a fault named `stopped`, is the model's choice (log entries 4 and 8). -/
def Obligations.NoStepAfterErrorOrAtExit : Prop :=
  ∀ s : State, (∀ r, s.error = some r → step s = .fault (.stopped r)) ∧
    (s.error = none → s.pc = s.config.exitPc → step s = .refused (.final s))

/-- A cycle ends in exactly one of the three ways of 00_scope.md rule R9, or is no cycle at all because
of an earlier error; "final" happens exactly in a final state, and nothing is ever refused as not modelled.
That "final" is a refusal which carries the state, and no cycle a fault named `stopped`, is the model's choice
(DESIGN CHOICE, log entries 4 and 8). -/
def Obligations.StepOutcomes : Prop :=
  ∀ s : State,
    (∃ t, step s = .next t ∧ s.error = none ∧ ¬ s.isFinal ∧ t.error = none) ∨
    (∃ r, step s = .fault (.fatal r { s with error := some r }) ∧ s.error = none ∧ ¬ s.isFinal) ∨
    (step s = .refused (.final s) ∧ s.isFinal) ∨
    (∃ r, step s = .fault (.stopped r) ∧ s.error = some r)

/-- R214: an error changes no register, flag, pc or memory byte; it sets the error status to the record
the caller gets, whose pc is the failing instruction's; and the state it leaves is not final and makes no
further step. That an error is a fault which carries the state it leaves, and that no further step is the fault
named `stopped`, is the model's choice (DESIGN CHOICE, log entry 8). -/
def Obligations.ErrorsArePrecise : Prop :=
  ∀ (s t : State) (r : ErrorRecord), step s = .fault (.fatal r t) →
    t.error = some r ∧ t.regs = s.regs ∧ t.flags = s.flags ∧ t.pc = s.pc ∧ t.mem = s.mem ∧
    t.config = s.config ∧ r.pc = s.pc ∧ r.slotText = s.fetchedText ∧ ¬ t.isFinal ∧
    step t = .fault (.stopped r)

/-! ### Invariants and runs -/

/-- The launch state satisfies the invariant, and its error status is the `none` of 10_state.md rule R38.
The other values of the launch state are the model's choice (log entry 1). -/
def Obligations.LaunchInvariant : Prop := State.reset.Inv ∧ State.reset.error = none

/-- Every cycle keeps the invariant: memory canonical and inside the store, parameters well formed, no error. -/
def Obligations.StepKeepsInvariant : Prop :=
  ∀ s t : State, s.Inv → step s = .next t → t.Inv

/-- No run changes the parameters, the instruction stream among them, or any byte of the code region
(20_memory.md rule R65, 70_reset_and_hazards.md rule R252). -/
def Obligations.RunsNeverChangeCode : Prop :=
  ∀ (n : Nat) (s t : State), Steps n s t →
    t.config = s.config ∧ ∀ a ∈ s.config.codeRegion, t.mem.read a = s.mem.read a

/-- From a state with no error a run reaches a final state, or reaches an error, or hangs, and it does
only one of these (70_reset_and_hazards.md rule R247). -/
def Obligations.RunEndsFailsOrHangs : Prop :=
  ∀ s : State, s.error = none →
    ((∃ t, ReachesFinal s t) ∨ (∃ r t, ReachesError s r t) ∨ Hangs s) ∧
    ((∃ t, ReachesFinal s t) → SafeRun s ∧ ¬ Hangs s) ∧ (Hangs s → SafeRun s)

/-! ### The model's choice about error records -/

/-- Every error an instruction raises has the field `execute`. 60_exceptions.md rule R212 lists that field and
ties it to no kind: that the memory errors have it is the model's choice (log entry 13). -/
def Obligations.MemoryErrorsHaveFieldExecute : Prop :=
  ∀ (i : Instr) (s t : State) (r : ErrorRecord), exec i s = .fault (.fatal r t) →
    (r.kind = .memoryOutOfRange ∨ r.kind = .storeToCode) ∧ r.field = .execute
end

