-- ==== Sys2Proof/Laws/Decode.lean ====
section
/-! SUPPORT. What the decoder does with the text the encoder writes: table lookups, literals, the split
at commas, memory shapes, operands and tokens. -/

namespace Sys2Proof

/-! ### Tables -/

theorem lookup_eq_none {α : Type} {k : Text} {l : List (Text × α)} (h : ∀ e ∈ l,
    e.1 ≠ k) : lookup k l = none := by
  induction l with
  | nil => rfl
  | cons e l ih =>
    obtain ⟨k', a⟩ := e
    have : k ≠ k' := fun e => h (k', a) (by simp) e.symm
    simp only [lookup, if_neg this]
    exact ih fun e he => h e (by simp [he])

theorem lookup_eq_some {α : Type} {k : Text} {a : α} {l : List (Text × α)} (hn : (l.map Prod.fst).Nodup)
    (h : (k, a) ∈ l) : lookup k l = some a := by
  induction l with
  | nil => simp at h
  | cons e l ih =>
    obtain ⟨k', b⟩ := e
    simp only [List.map_cons, List.nodup_cons] at hn
    simp only [lookup]
    rcases List.mem_cons.mp h with h | h
    · cases h; simp
    · rw [if_neg, ih hn.2 h]
      intro e
      exact hn.1 (List.mem_map.mpr ⟨(k, a), h, e⟩)

theorem spell_mem {α : Type} [DecidableEq α] {a : α} {l : List (Text × α)} (h : ∃ e ∈ l, e.2 = a) :
    (spell a l, a) ∈ l := by
  induction l with
  | nil => simp at h
  | cons e l ih =>
    obtain ⟨k, b⟩ := e
    simp only [spell]
    split
    next hb => simp [hb]
    next hb =>
      obtain ⟨e, he, hea⟩ := h
      rcases List.mem_cons.mp he with rfl | he
      · exact absurd hea hb
      · exact List.mem_cons_of_mem _ (ih ⟨e, he, hea⟩)

/-! ### Plain texts -/

/-- A byte that ends no token: not NUL, whitespace, comma or parenthesis. -/
def isPlain (b : Byte) : Bool := !(b == 0#8 || isWhitespace b || b == 0x2c#8 || b == 0x28#8 || b == 0x29#8)

/-- A text of plain bytes. -/
abbrev Plain (t : Text) : Prop := ∀ b ∈ t, isPlain b = true

theorem plain_nil : Plain [] := fun _ h => nomatch h

theorem isPlain_ne {b : Byte} (h : isPlain b = true) :
    b ≠ 0#8 ∧ isWhitespace b = false ∧ b ≠ 0x2c#8 ∧ b ≠ 0x28#8 ∧ b ≠ 0x29#8 := by
  simpa [isPlain, and_assoc] using h

theorem plain_spelling {s : Text} (h : Tables.spellingWf s = true) : Plain s ∧ s.head? = some 0x25#8 := by
  simp only [Tables.spellingWf, Bool.and_eq_true, beq_iff_eq, List.all_eq_true] at h
  exact ⟨h.2, h.1⟩

theorem hexChar_plain {d : Nat} (h : d < 16) : isPlain (hexChar d) = true := by
  interval_cases d <;> decide

theorem hexDigit?_hexChar {d : Nat} (h : d < 16) : hexDigit? (hexChar d) = some d := by
  interval_cases d <;> decide

theorem hexDigits_plain (fuel n : Nat) : Plain (hexDigits fuel n) := by
  induction fuel generalizing n with
  | zero => exact plain_nil
  | succ f ih =>
    simp only [hexDigits]
    split
    next h => intro b hb; rw [List.mem_singleton.mp hb]; exact hexChar_plain h
    · intro b hb
      rcases List.mem_append.mp hb with hb | hb
      · exact ih _ b hb
      · rw [List.mem_singleton.mp hb]; exact hexChar_plain (Nat.mod_lt _ (by omega))

theorem digitsValue_append (base : Nat) (a b : Text) (acc : Nat) :
    digitsValue base acc (a ++ b) = (digitsValue base acc a).bind fun v => digitsValue base v b := by
  induction a generalizing acc with
  | nil => rfl
  | cons c cs ih =>
    simp only [List.cons_append, digitsValue]
    cases digit? base c <;> simp [ih]

theorem digit?_hexChar {d : Nat} (h : d < 16) : digit? 16 (hexChar d) = some d := by
  simp [digit?, hexDigit?_hexChar h, h]

/-- The hexadecimal digits of a number read as that number. -/
theorem digitsValue_hexDigits {fuel n : Nat} (h : n < 16 ^ fuel) : digitsValue 16 0 (hexDigits fuel n) = some n := by
  induction fuel generalizing n with
  | zero => simp at h; subst h; rfl
  | succ f ih =>
    simp only [hexDigits]
    split
    next h => simp [digitsValue, digit?_hexChar h]
    next hn =>
      rw [digitsValue_append, ih (by rw [Nat.pow_succ] at h; omega)]
      simp only [Option.bind_some, digitsValue, digit?_hexChar (Nat.mod_lt n (show 0 < 16 by omega))]
      simp; omega

theorem hexDigits_ne_nil (f n : Nat) : hexDigits (f + 1) n ≠ [] := by
  simp only [hexDigits]; split <;> simp

/-- The literal of a value reads as that value. -/
theorem parseLit_litText (w : Word) : parseLit (litText w) = some w := by
  have hw : w.toNat < 16 ^ 16 := by have := w.isLt; simpa using this
  have h1 : parseMagnitude (litText w) = some w.toNat := by
    simp [parseMagnitude, litText, parseDigits, hexDigits_ne_nil, digitsValue_hexDigits hw]
  have h2 : parseLit (litText w) = positiveLit (litText w) := rfl
  rw [h2, positiveLit, h1]
  have := w.isLt
  simp only [if_pos (show w.toNat ≤ 2 ^ 64 - 1 by omega), BitVec.ofNat_toNat, BitVec.setWidth_eq]

theorem plain_litText (w : Word) : Plain (litText w) := by
  intro b hb
  rcases List.mem_cons.mp hb with rfl | hb
  · decide
  · rcases List.mem_cons.mp hb with rfl | hb
    · decide
    · exact hexDigits_plain _ _ b hb

theorem plain_scaleText (k : Scale) : Plain (scaleText k) := by cases k <;> decide

theorem parseScale_scaleText (k : Scale) : parseScale (scaleText k) = .ok k := by cases k <;> decide

/-! ### Splitting -/

theorem splitComma_plain {t : Text} (h : Plain t) (d : Int) (r : Text) :
    splitComma d (t ++ r) = (splitComma d r).map fun p => (t ++ p.1, p.2) := by
  induction t with
  | nil => simp
  | cons c cs ih =>
    obtain ⟨-, -, h1, h2, h3⟩ := isPlain_ne (h c (by simp))
    simp only [List.cons_append, splitComma, if_neg h2, if_neg h3, h1, false_and, if_false]
    rw [ih fun b hb => h b (by simp [hb])]
    simp [Function.comp_def]

/-- A text with no parenthesis inside a group: a comma does not split. -/
theorem splitComma_inside {t : Text} (h : ∀ b ∈ t, b ≠ 0x28#8 ∧ b ≠ 0x29#8) (r : Text) :
    splitComma 1 (t ++ r) = (splitComma 1 r).map fun p => (t ++ p.1, p.2) := by
  induction t with
  | nil => simp
  | cons c cs ih =>
    obtain ⟨h2, h3⟩ := h c (by simp)
    simp only [List.cons_append, splitComma, if_neg h2, if_neg h3, show ¬ ((1 : Int) = 0) by omega,
        and_false, if_false]
    rw [ih fun b hb => h b (by simp [hb])]
    simp [Function.comp_def]

theorem splitComma_group {off inner : Text} (ho : Plain off) (hi : ∀ b ∈ inner, b ≠ 0x28#8 ∧
    b ≠ 0x29#8) (r : Text) :
    splitComma 0 (off ++ 0x28#8 :: (inner ++ 0x29#8 :: r)) =
      (splitComma 0 r).map fun p => (off ++ 0x28#8 :: (inner ++ 0x29#8 :: p.1), p.2) := by
  rw [splitComma_plain ho]
  simp only [splitComma, if_true, Int.zero_add]
  rw [splitComma_inside hi]
  simp [splitComma, Function.comp_def]

theorem splitCommas_plain {t : Text} (h : ∀ b ∈ t, b ≠ 0x2c#8) : splitCommas t = [t] := by
  induction t with
  | nil => rfl
  | cons c cs ih => simp [splitCommas, h c (by simp), ih fun b hb => h b (by simp [hb])]

theorem splitCommas_comma {t : Text} (h : ∀ b ∈ t, b ≠ 0x2c#8) (r : Text) :
    splitCommas (t ++ 0x2c#8 :: r) = t :: splitCommas r := by
  induction t with
  | nil => simp [splitCommas]
  | cons c cs ih => simp [splitCommas, h c (by simp), ih fun b hb => h b (by simp [hb])]

theorem takeWhile_append_stop {p : Byte → Bool} {t r : Text} {c : Byte} (h : ∀ b ∈ t,
    p b = true) (hc : p c = false) :
    (t ++ c :: r).takeWhile p = t := by
  induction t with
  | nil => simp [hc]
  | cons b t ih => simp [h b (by simp), ih fun b hb => h b (by simp [hb])]

theorem dropWhile_append_stop {p : Byte → Bool} {t r : Text} {c : Byte} (h : ∀ b ∈ t,
    p b = true) (hc : p c = false) :
    (t ++ c :: r).dropWhile p = c :: r := by
  induction t with
  | nil => simp [hc]
  | cons b t ih => simp [h b (by simp), ih fun b hb => h b (by simp [hb])]

/-- The shape of `off(inner)`. -/
theorem memShape_group {off inner : Text} (ho : ∀ b ∈ off, b ≠ 0x28#8 ∧ b ≠ 0x29#8)
    (hi : ∀ b ∈ inner, b ≠ 0x28#8 ∧ b ≠ 0x29#8) :
    memShape (off ++ 0x28#8 :: (inner ++ [0x29#8])) = partShape off (splitCommas inner) := by
  have c1 : ∀ (t : Text) (x : Byte), (∀ b ∈ t, b ≠ x) → t.count x = 0 := fun t x h =>
    List.count_eq_zero.mpr fun hm => h x hm rfl
  have a1 := c1 off 0x28#8 fun b hb => (ho b hb).1
  have a2 := c1 off 0x29#8 fun b hb => (ho b hb).2
  have b1 := c1 inner 0x28#8 fun b hb => (hi b hb).1
  have b2 := c1 inner 0x29#8 fun b hb => (hi b hb).2
  have hne : ∀ b ∈ off, (b != 0x28#8) = true := fun b hb => by simpa using (ho b hb).1
  have ht := takeWhile_append_stop (r := inner ++ [0x29#8]) hne (c := 0x28#8) (by decide)
  have hd := dropWhile_append_stop (r := inner ++ [0x29#8]) hne (c := 0x28#8) (by decide)
  simp only [memShape, ht, hd]
  rw [if_pos]
  · simp
  · refine ⟨?_, ?_, ?_⟩
    · simp [List.count_append, a1, b1]
    · simp [List.count_append, a2, b2]
    · rw [List.getLast?_append]; simp [List.getLast?_cons, List.getLast?_append]

/-! ### Operands -/

/-- The facts about well-formed tables the round trip uses. -/
theorem Tables.wf_iff {t : Tables} (h : t.wf = true) :
    (∀ e ∈ t.registers, Tables.spellingWf e.1 = true) ∧ (t.registers.map Prod.fst).Nodup ∧
      (∀ e ∈ t.mnemonics, Tables.mnemonicWf e.1 = true) ∧ (t.mnemonics.map Prod.fst).Nodup := by
  simp only [Tables.wf, Bool.and_eq_true, List.all_eq_true, decide_eq_true_eq] at h
  exact ⟨h.1.1.1.2, h.1.1.2, h.1.2, h.2⟩

theorem View.spelled_mem {t : Tables} {v : View} (h : v.spelled t = true) : (spell v t.registers,
    v) ∈ t.registers := by
  simp only [View.spelled, List.any_eq_true, beq_iff_eq] at h
  exact spell_mem h

/-- The spelling of a spelled view: it is plain, begins with `%`, and looks up to the view. -/
theorem spell_view {t : Tables} (ht : t.wf = true) {v : View} (h : v.spelled t = true) :
    Plain (spell v t.registers) ∧ (spell v t.registers).head? = some 0x25#8 ∧
      lookup (spell v t.registers) t.registers = some v := by
  obtain ⟨h1, h2, -⟩ := Tables.wf_iff ht
  have hm := View.spelled_mem h
  obtain ⟨hp, hh⟩ := plain_spelling (h1 _ hm)
  exact ⟨hp, hh, lookup_eq_some h2 hm⟩

theorem parseRegPart_spell {t : Tables} (ht : t.wf = true) {v : View} (h : v.spelled t = true) (whole : Text) :
    parseRegPart t whole (spell v t.registers) = .ok v := by
  obtain ⟨-, h2, h3⟩ := spell_view ht h
  simp [parseRegPart, h2, h3]

theorem parseOffset_litText (whole : Text) (i : Word) : parseOffset whole (litText i) = .ok (some i) := by
  have : litText i ≠ [] := by simp [litText]
  simp [parseOffset, this, parseLit_litText]

theorem parseScalePart_scaleText (whole : Text) (k : Scale) : parseScalePart whole (scaleText k) = .ok k := by
  simp [parseScalePart, parseScale_scaleText]

theorem spell_ne_nil {t : Tables} (ht : t.wf = true) {v : View} (h : v.spelled t = true) : spell v t.registers ≠ [] := by
  intro e
  have := (spell_view ht h).2.1
  simp [e] at this

theorem Plain.noParen {t : Text} (h : Plain t) : ∀ b ∈ t, b ≠ 0x28#8 ∧ b ≠ 0x29#8 :=
  fun b hb => ⟨(isPlain_ne (h b hb)).2.2.2.1, (isPlain_ne (h b hb)).2.2.2.2⟩

theorem Plain.noComma {t : Text} (h : Plain t) : ∀ b ∈ t, b ≠ 0x2c#8 := fun b hb => (isPlain_ne (h b hb)).2.2.1

/-- A byte that may stand between the parentheses of a memory operand. -/
abbrev Inside (b : Byte) : Prop := (b ≠ 0x28#8 ∧ b ≠ 0x29#8) ∧ b ≠ 0#8 ∧ isWhitespace b = false

/-- A memory operand's text is a literal, or a plain offset with a group of plain parts. -/
theorem memText_cases {t : Tables} (ht : t.wf = true) {m : MemOp} (h : ∀ v ∈ m.views, v.spelled t = true) :
    (∃ i, m = .imm i) ∨ ∃ off inner : Text, Plain off ∧ (∀ b ∈ inner, Inside b) ∧
      memText t m = off ++ 0x28#8 :: (inner ++ [0x29#8]) ∧ (off = [] ∨ ∃ i, off = litText i) ∧
      (∃ sh, partShape off (splitCommas inner) = some sh ∧ ∀ whole, parseShape t whole sh = .ok m) := by
  have pl : ∀ {s : Text}, Plain s → ∀ b ∈ s, Inside b := fun hs b hb =>
    ⟨hs.noParen b hb, (isPlain_ne (hs b hb)).1, (isPlain_ne (hs b hb)).2.1⟩
  have comma : ∀ b ∈ [(0x2c#8 : Byte)], Inside b := by decide
  have app : ∀ {s u : Text}, (∀ b ∈ s, Inside b) → (∀ b ∈ u, Inside b) →
      ∀ b ∈ s ++ u, Inside b := fun hs hu b hb => (List.mem_append.mp hb).elim (hs b) (hu b)
  cases m with
  | imm i => exact .inl ⟨i, rfl⟩
  | reg b =>
    have hb := h b (by simp [MemOp.views])
    refine .inr ⟨[], spell b t.registers, plain_nil, pl (spell_view ht hb).1, by simp [memText], .inl rfl,
        ⟨[], some (spell b t.registers), none, none⟩, ?_, fun w => ?_⟩
    · rw [splitCommas_plain (spell_view ht hb).1.noComma, partShape, if_pos (spell_ne_nil ht hb)]
    · simp [parseShape, parseOffset, parseOptional, parseRegPart_spell ht hb, memTag]
  | immReg i b =>
    have hb := h b (by simp [MemOp.views])
    refine .inr ⟨litText i, spell b t.registers, plain_litText i, pl (spell_view ht hb).1, by simp [memText],
        .inr ⟨i, rfl⟩, ⟨litText i, some (spell b t.registers), none, none⟩, ?_, fun w => ?_⟩
    · rw [splitCommas_plain (spell_view ht hb).1.noComma, partShape, if_pos (spell_ne_nil ht hb)]
    · simp [parseShape, parseOffset_litText, parseOptional, parseRegPart_spell ht hb, memTag]
  | reg1Reg2 b x =>
    have hb := h b (by simp [MemOp.views])
    have hx := h x (by simp [MemOp.views])
    refine .inr ⟨[], spell b t.registers ++ (0x2c#8 :: spell x t.registers), plain_nil,
        app (pl (spell_view ht hb).1) (app comma (pl (spell_view ht hx).1)), by simp [memText], .inl rfl,
        ⟨[], some (spell b t.registers), some (spell x t.registers), none⟩, ?_, fun w => ?_⟩
    · rw [splitCommas_comma (spell_view ht hb).1.noComma, splitCommas_plain (spell_view ht hx).1.noComma,
        partShape, if_pos ⟨spell_ne_nil ht hb, spell_ne_nil ht hx⟩]
    · simp [parseShape, parseOffset, parseOptional, parseRegPart_spell ht hb, parseRegPart_spell ht hx, memTag]
  | immReg1Reg2 i b x =>
    have hb := h b (by simp [MemOp.views])
    have hx := h x (by simp [MemOp.views])
    refine .inr ⟨litText i, spell b t.registers ++ (0x2c#8 :: spell x t.registers), plain_litText i,
        app (pl (spell_view ht hb).1) (app comma (pl (spell_view ht hx).1)), by simp [memText], .inr ⟨i,
        rfl⟩, ⟨litText i, some (spell b t.registers), some (spell x t.registers), none⟩, ?_, fun w => ?_⟩
    · rw [splitCommas_comma (spell_view ht hb).1.noComma, splitCommas_plain (spell_view ht hx).1.noComma,
        partShape, if_pos ⟨spell_ne_nil ht hb, spell_ne_nil ht hx⟩]
    · simp [parseShape, parseOffset_litText, parseOptional, parseRegPart_spell ht hb,
        parseRegPart_spell ht hx, memTag]
  | reg2S x k =>
    have hx := h x (by simp [MemOp.views])
    refine .inr ⟨[], [] ++ (0x2c#8 :: (spell x t.registers ++ (0x2c#8 :: scaleText k))), plain_nil,
        app (by simp) (app comma (app (pl (spell_view ht hx).1) (app comma (pl (plain_scaleText k))))),
        by simp [memText], .inl rfl, ⟨[], none, some (spell x t.registers), some (scaleText k)⟩, ?_,
        fun w => ?_⟩
    · rw [splitCommas_comma (by simp), splitCommas_comma (spell_view ht hx).1.noComma,
        splitCommas_plain (plain_scaleText k).noComma, partShape, if_pos (spell_ne_nil ht hx), if_pos rfl]
    · simp [parseShape, parseOffset, parseOptional, parseRegPart_spell ht hx, parseScalePart_scaleText, memTag]
  | immReg2S i x k =>
    have hx := h x (by simp [MemOp.views])
    refine .inr ⟨litText i, [] ++ (0x2c#8 :: (spell x t.registers ++ (0x2c#8 :: scaleText k))),
        plain_litText i,
        app (by simp) (app comma (app (pl (spell_view ht hx).1) (app comma (pl (plain_scaleText k))))),
        by simp [memText], .inr ⟨i, rfl⟩, ⟨litText i, none, some (spell x t.registers), some (scaleText k)⟩,
        ?_, fun w => ?_⟩
    · rw [splitCommas_comma (by simp), splitCommas_comma (spell_view ht hx).1.noComma,
        splitCommas_plain (plain_scaleText k).noComma, partShape, if_pos (spell_ne_nil ht hx), if_pos rfl]
    · simp [parseShape, parseOffset_litText, parseOptional, parseRegPart_spell ht hx,
        parseScalePart_scaleText, memTag]
  | reg1Reg2S b x k =>
    have hb := h b (by simp [MemOp.views])
    have hx := h x (by simp [MemOp.views])
    refine .inr ⟨[], spell b t.registers ++ (0x2c#8 :: (spell x t.registers ++ (0x2c#8 :: scaleText k))),
        plain_nil,
        app (pl (spell_view ht hb).1)
          (app comma (app (pl (spell_view ht hx).1) (app comma (pl (plain_scaleText k))))),
        by simp [memText], .inl rfl, ⟨[], some (spell b t.registers), some (spell x t.registers), some (scaleText k)⟩, ?_, fun w => ?_⟩
    · rw [splitCommas_comma (spell_view ht hb).1.noComma, splitCommas_comma (spell_view ht hx).1.noComma,
        splitCommas_plain (plain_scaleText k).noComma, partShape, if_pos (spell_ne_nil ht hx),
        if_neg (spell_ne_nil ht hb)]
    · simp [parseShape, parseOffset, parseOptional, parseRegPart_spell ht hb, parseRegPart_spell ht hx,
        parseScalePart_scaleText, memTag]
  | immReg1Reg2S i b x k =>
    have hb := h b (by simp [MemOp.views])
    have hx := h x (by simp [MemOp.views])
    refine .inr ⟨litText i,
        spell b t.registers ++ (0x2c#8 :: (spell x t.registers ++ (0x2c#8 :: scaleText k))), plain_litText i,
        app (pl (spell_view ht hb).1)
          (app comma (app (pl (spell_view ht hx).1) (app comma (pl (plain_scaleText k))))),
        by simp [memText], .inr ⟨i, rfl⟩, ⟨litText i, some (spell b t.registers), some (spell x t.registers), some (scaleText k)⟩, ?_, fun w => ?_⟩
    · rw [splitCommas_comma (spell_view ht hb).1.noComma, splitCommas_comma (spell_view ht hx).1.noComma,
        splitCommas_plain (plain_scaleText k).noComma, partShape, if_pos (spell_ne_nil ht hx),
        if_neg (spell_ne_nil ht hb)]
    · simp [parseShape, parseOffset_litText, parseOptional, parseRegPart_spell ht hb,
        parseRegPart_spell ht hx, parseScalePart_scaleText, memTag]

/-- The views an operand names. -/
def Operand.views : Operand → List View
  | .empty => []
  | .imm _ => []
  | .reg l => [l]
  | .mem m => m.views

/-- Parsing the text of an operand whose views are spelled gives the operand back. -/
theorem parseOperand_operandText {t : Tables} (ht : t.wf = true) {o : Operand}
    (h : ∀ v ∈ o.views, v.spelled t = true) :
    parseOperand t (operandText t o) = .ok o := by
  cases o with
  | empty => rfl
  | imm v => simp [operandText, parseOperand, parseImm, parseLit_litText]
  | reg l =>
    obtain ⟨-, h2, h3⟩ := spell_view ht (h l (by simp [Operand.views]))
    simp only [operandText]
    cases hs : spell l t.registers with
    | nil => simp [hs] at h2
    | cons c cs =>
      obtain rfl : c = 0x25#8 := by simpa [hs] using h2
      simp [parseOperand, parseReg, ← hs, h3]
  | mem m =>
    have hlit : ∀ (i : Word) (r : Text), parseMem t (litText i ++ r) = .ok m →
        parseOperand t (litText i ++ r) = .ok (.mem m) := fun i r hm => by
      simp only [litText, List.cons_append] at hm ⊢
      simp [parseOperand, hm]
    rcases memText_cases ht h with ⟨i, rfl⟩ | ⟨off, inner, ho, hi, hm, hoff, sh, hsh, hp⟩
    · have hc : (litText i).contains 0x28#8 = false := by
        simp only [List.contains_eq_mem, decide_eq_false_iff_not]
        exact fun hc => (plain_litText i).noParen _ hc |>.1 rfl
      have := hlit i [] (by
        simp only [List.append_nil, parseMem, hc, Bool.false_eq_true, if_false, parseLit_litText])
      simpa [operandText, memText] using this
    · have hs := memShape_group ho.noParen (fun b hb => (hi b hb).1)
      have hpm : parseMem t (off ++ 0x28#8 :: (inner ++ [0x29#8])) = .ok m := by
        have hc : (off ++ 0x28#8 :: (inner ++ [0x29#8])).contains 0x28#8 = true := by simp
        simp only [parseMem, hc, if_true, hs, hsh, hp]
      simp only [operandText, hm]
      rcases hoff with rfl | ⟨i, rfl⟩
      · simp only [List.nil_append] at hpm ⊢
        simp [parseOperand, hpm]
      · exact hlit i _ hpm

/-- What the tokeniser needs of an operand's text. -/
theorem operandText_facts {t : Tables} (ht : t.wf = true) {o : Operand} (ho : o ≠ .empty)
    (h : ∀ v ∈ o.views, v.spelled t = true) :
    operandText t o ≠ [] ∧ (∀ b ∈ operandText t o, b ≠ 0#8 ∧ isWhitespace b = false) ∧
      ∀ r, splitComma 0 (operandText t o ++ r) = (splitComma 0 r).map fun p => (operandText t o ++ p.1,
          p.2) := by
  have plain : ∀ {s : Text}, Plain s → s ≠ [] → s ≠ [] ∧ (∀ b ∈ s, b ≠ 0#8 ∧ isWhitespace b = false) ∧
      ∀ r, splitComma 0 (s ++ r) = (splitComma 0 r).map fun p => (s ++ p.1, p.2) := fun hs hn =>
    ⟨hn, fun b hb => ⟨(isPlain_ne (hs b hb)).1, (isPlain_ne (hs b hb)).2.1⟩, splitComma_plain hs 0⟩
  cases o with
  | empty => exact absurd rfl ho
  | imm v =>
    refine plain (s := operandText t (.imm v)) ?_ (by simp [operandText])
    intro b hb
    rcases List.mem_cons.mp hb with rfl | hb
    · decide
    · exact plain_litText v b hb
  | reg l =>
    have hl := h l (by simp [Operand.views])
    exact plain (spell_view ht hl).1 (spell_ne_nil ht hl)
  | mem m =>
    rcases memText_cases ht h with ⟨i, rfl⟩ | ⟨off, inner, ho, hi, hm, -⟩
    · exact plain (plain_litText i) (by simp [operandText, memText, litText])
    · simp only [operandText, hm]
      refine ⟨by simp, ?_, ?_⟩
      · intro b hb
        simp only [List.mem_append, List.mem_cons, List.not_mem_nil, or_false] at hb
        rcases hb with hb | rfl | hb | rfl
        · exact ⟨(isPlain_ne (ho b hb)).1, (isPlain_ne (ho b hb)).2.1⟩
        · decide
        · exact (hi b hb).2
        · decide
      · intro r
        have := splitComma_group ho (fun b hb => (hi b hb).1) r
        simpa using this

theorem ltrim_cons {c : Byte} {cs : Text} (h : isWhitespace c = false) : ltrim (c :: cs) = c :: cs := by
  rw [ltrim, List.dropWhile_cons_of_neg (by simp only [h]; decide)]

theorem ltrim_of_noWs {t : Text} (h : ∀ b ∈ t, isWhitespace b = false) (r : Text) (ht : t ≠ []) :
    ltrim (t ++ r) = t ++ r := by
  cases t with
  | nil => exact absurd rfl ht
  | cons c cs => exact ltrim_cons (h c (by simp))

theorem rtrim_of_noWs {t : Text} (h : ∀ b ∈ t, isWhitespace b = false) (r : Text) (ht : t ≠ []) :
    rtrim (r ++ t) = r ++ t := by
  have := ltrim_of_noWs (t := t.reverse) (by simpa using h) r.reverse (by simpa using ht)
  rw [rtrim, List.reverse_append]
  rw [ltrim] at this
  rw [this]; simp

/-- The mnemonic and the rest of a text whose mnemonic a blank ends and whose rest is trimmed already. -/
theorem trimmed_parts {mn rest : Text} (hm : ∀ b ∈ mn, isWhitespace b = false) (hmn : mn ≠ [])
    (hr : ltrim rest = rest) (hr' : ∀ r, rtrim (r ++ rest) = r ++ rest) :
    ((rtrim (ltrim (mn ++ 0x20#8 :: rest))).takeWhile fun b => !isWhitespace b) = mn ∧
      ltrim ((rtrim (ltrim (mn ++ 0x20#8 :: rest))).dropWhile fun b => !isWhitespace b) = rest := by
  have h1 : ltrim (mn ++ 0x20#8 :: rest) = mn ++ 0x20#8 :: rest := ltrim_of_noWs hm _ hmn
  have h2 : rtrim (mn ++ 0x20#8 :: rest) = mn ++ 0x20#8 :: rest := by
    have := hr' (mn ++ [0x20#8])
    simpa using this
  have hp : ∀ b ∈ mn, (!isWhitespace b) = true := fun b hb => by simp only [hm b hb]; decide
  have h5 : ltrim (0x20#8 :: rest) = rest := by
    rw [ltrim, List.dropWhile_cons_of_pos (by decide)]; exact hr
  rw [h1, h2, takeWhile_append_stop hp (by decide), dropWhile_append_stop hp (by decide)]
  exact ⟨rfl, h5⟩

/-- Tokenising a mnemonic and a source with no comma outside. -/
theorem tokenise_of_noSplit {mn rest : Text} (hm : ∀ b ∈ mn, isWhitespace b = false) (hmn : mn ≠ [])
    (hr : ltrim rest = rest) (hr' : ∀ r, rtrim (r ++ rest) = r ++ rest) (hs : splitComma 0 rest = none) :
    tokenise (mn ++ 0x20#8 :: rest) = ⟨mn, rest, [], false⟩ := by
  obtain ⟨h1, h2⟩ := trimmed_parts hm hmn hr hr'
  simp only [tokenise, h1, h2, hs]

/-- Tokenising a mnemonic, a source and a destination. -/
theorem tokenise_of_split {mn rest l r : Text} (hm : ∀ b ∈ mn, isWhitespace b = false) (hmn : mn ≠ [])
    (hr : ltrim rest = rest) (hr' : ∀ r, rtrim (r ++ rest) = r ++ rest) (hs : splitComma 0 rest = some (l, r)) :
    tokenise (mn ++ 0x20#8 :: rest) = ⟨mn, rtrim l, ltrim r, true⟩ := by
  obtain ⟨h1, h2⟩ := trimmed_parts hm hmn hr hr'
  simp only [tokenise, h1, h2, hs]

/-- The text of a slot padded with 00 is the text. -/
theorem slotText_padSlot {text : Text} (h : ∀ b ∈ text, b ≠ 0#8) (w : Nat) :
    slotText (padSlot w text) = text := by
  have hp : ∀ b ∈ text, (b != 0#8) = true := fun b hb => by simpa using h b hb
  rw [slotText, padSlot]
  cases hk : w - text.length with
  | zero => simp only [List.replicate_zero, List.append_nil]; exact List.takeWhile_eq_self_iff.mpr hp
  | succ k => rw [List.replicate_succ]; exact takeWhile_append_stop hp (by decide)

/-- The views of a well-formed instruction's operands are spelled, and its mnemonic looks up to its opcode. -/
theorem Instr.wf_facts {t : Tables} (ht : t.wf = true) {i : Instr} (h : i.wf t = true) :
    (∀ v ∈ i.src.views, v.spelled t = true) ∧ (∀ v ∈ i.dst.views, v.spelled t = true) ∧
      Tables.mnemonicWf (spell i.opcode t.mnemonics) = true ∧
      lookup (spell i.opcode t.mnemonics) t.mnemonics = some i.opcode := by
  obtain ⟨-, -, h3, h4⟩ := Tables.wf_iff ht
  simp only [Instr.wf, Bool.and_eq_true, List.all_eq_true, List.any_eq_true, beq_iff_eq] at h
  have hm := spell_mem h.2
  refine ⟨fun v hv => h.1 v ?_, fun v hv => h.1 v ?_, h3 _ hm, lookup_eq_some h4 hm⟩
  · cases i <;> simp_all [Instr.src, Instr.views, Operand.views]
  · cases i <;> simp_all [Instr.dst, Instr.views, Operand.views]

end Sys2Proof
end

