-- ==== Sys2Proof/Laws/Memory.lean ====
section
/-! SUPPORT. The laws of memory: read after write, frame, and the canonical form kept. -/

namespace Sys2Proof.Machine

/-- A write leaves every other byte alone, in every memory. -/
theorem Memory.read_write_of_ne (m : Memory) {a a' : Nat} (b : Byte) (h : a' ≠ a) :
    (m.write a b).read a' = m.read a' := by
  induction m with
  | nil => by_cases hb : b = unlistedByte <;> simp [Memory.write, Memory.read, hb, Ne.symm h]
  | cons c m ih =>
    obtain ⟨k, v⟩ := c
    simp only [Memory.write]
    split
    · split <;> simp [Memory.read, Ne.symm h]
    · split
      · subst_vars; split <;> simp [Memory.read, Ne.symm h]
      · simp [Memory.read, ih]

/-- An address below every listed one is unlisted. -/
theorem Memory.read_of_below {m : Memory} {a : Nat} (h : ∀ c ∈ m, a < c.1) : m.read a = unlistedByte := by
  induction m with
  | nil => rfl
  | cons c m ih =>
    obtain ⟨k, v⟩ := c
    have hk : a < k := h (k, v) (by simp)
    simp only [Memory.read, if_neg (Nat.ne_of_gt hk)]
    exact ih fun c hc => h c (by simp [hc])

/-- Read after write at the same address, in a canonical memory. -/
theorem Memory.read_write_self {m : Memory} (hm : m.wf) (a : Nat) (b : Byte) : (m.write a b).read a = b := by
  induction m with
  | nil => by_cases hb : b = unlistedByte <;> simp [Memory.write, Memory.read, hb]
  | cons c m ih =>
    obtain ⟨k, v⟩ := c
    obtain ⟨hp, hv⟩ := hm
    rw [List.pairwise_cons] at hp
    simp only [Memory.write]
    split
    next hlt =>
      split
      next hb =>
        rw [hb]
        refine Memory.read_of_below fun c hc => ?_
        rcases List.mem_cons.mp hc with rfl | hc
        · exact hlt
        · exact Nat.lt_trans hlt (hp.1 c hc)
      · simp [Memory.read]
    · split
      next heq =>
        split
        next hb =>
          rw [hb]
          exact Memory.read_of_below fun c hc => heq ▸ hp.1 c hc
        · simp [Memory.read]
      next hne =>
        simp only [Memory.read, if_neg (Ne.symm hne)]
        exact ih ⟨hp.2, fun c hc => hv c (by simp [hc])⟩

/-- Read after write, at any address of a canonical memory. -/
theorem Memory.read_write {m : Memory} (hm : m.wf) (a a' : Nat) (b : Byte) :
    (m.write a b).read a' = if a' = a then b else m.read a' := by
  by_cases h : a' = a
  · subst h; simp [Memory.read_write_self hm]
  · simp [h, Memory.read_write_of_ne m b h]

/-- Every listed address after a write is the written one or was listed before. -/
theorem Memory.mem_write {m : Memory} {a : Nat} {b : Byte} {c : Host.Cell} (h : c ∈ m.write a b) :
    c = (a, b) ∨ c ∈ m := by
  induction m with
  | nil =>
    simp only [Memory.write] at h
    split at h <;> simp_all
  | cons d m ih =>
    obtain ⟨k, v⟩ := d
    simp only [Memory.write] at h
    split at h
    · split at h
      · exact .inr h
      · rcases List.mem_cons.mp h with h | h
        · exact .inl h
        · exact .inr h
    · split at h
      · split at h
        · exact .inr (List.mem_cons_of_mem _ h)
        · rcases List.mem_cons.mp h with h | h
          · exact .inl h
          · exact .inr (List.mem_cons_of_mem _ h)
      · rcases List.mem_cons.mp h with h | h
        · exact .inr (h ▸ List.mem_cons_self)
        · rcases ih h with h | h
          · exact .inl h
          · exact .inr (List.mem_cons_of_mem _ h)

/-- A write keeps the canonical form. -/
theorem Memory.wf_write {m : Memory} (hm : m.wf) (a : Nat) (b : Byte) : (m.write a b).wf := by
  induction m with
  | nil => by_cases hb : b = unlistedByte <;> simp [Memory.write, Memory.wf, hb]
  | cons c m ih =>
    obtain ⟨k, v⟩ := c
    obtain ⟨hp, hv⟩ := hm
    have hp' := hp
    rw [List.pairwise_cons] at hp'
    have hm' : Memory.wf m := ⟨hp'.2, fun c hc => hv c (by simp [hc])⟩
    simp only [Memory.write]
    split
    next hlt =>
      split
      · exact ⟨hp, hv⟩
      next hb =>
        refine ⟨List.pairwise_cons.mpr ⟨fun c hc => ?_, hp⟩, fun c hc => ?_⟩
        · rcases List.mem_cons.mp hc with rfl | hc
          · exact hlt
          · exact Nat.lt_trans hlt (hp'.1 c hc)
        · rcases List.mem_cons.mp hc with rfl | hc
          · exact hb
          · exact hv c hc
    · split
      next heq =>
        split
        · exact hm'
        next hb =>
          refine ⟨List.pairwise_cons.mpr ⟨fun c hc => heq ▸ hp'.1 c hc, hp'.2⟩, fun c hc => ?_⟩
          rcases List.mem_cons.mp hc with rfl | hc
          · exact hb
          · exact hm'.2 c hc
      next hge hne =>
        have ih' := ih hm'
        refine ⟨List.pairwise_cons.mpr ⟨fun c hc => ?_, ih'.1⟩, fun c hc => ?_⟩
        · rcases Memory.mem_write hc with rfl | hc
          · show k < a
            omega
          · exact hp'.1 c hc
        · rcases List.mem_cons.mp hc with rfl | hc
          · exact hv _ (by simp)
          · exact ih'.2 c hc

/-- Storing bytes keeps the canonical form. -/
theorem Memory.wf_storeBytes {m : Memory} (hm : m.wf) (p : Nat) (bs : Text) : (m.storeBytes p bs).wf := by
  induction bs generalizing m p with
  | nil => exact hm
  | cons b bs ih => exact ih (Memory.wf_write hm p b) (p + 1)

/-- Storing bytes leaves every byte outside alone. -/
theorem Memory.read_storeBytes_outside (m : Memory) (p : Nat) (bs : Text) {a : Nat}
    (h : a < p ∨ p + bs.length ≤ a) : (m.storeBytes p bs).read a = m.read a := by
  induction bs generalizing m p with
  | nil => rfl
  | cons b bs ih =>
    simp only [List.length_cons] at h
    rw [Memory.storeBytes, ih _ _ (by omega), Memory.read_write_of_ne _ _ (by omega)]

/-- The j-th stored byte is read back. -/
theorem Memory.read_storeBytes {m : Memory} (hm : m.wf) (p : Nat) (bs : Text) {j : Nat} (h : j < bs.length) :
    (m.storeBytes p bs).read (p + j) = bs[j] := by
  induction bs generalizing m p j with
  | nil => simp at h
  | cons b bs ih =>
    cases j with
    | zero =>
      rw [Memory.storeBytes, Memory.read_storeBytes_outside _ _ _ (by omega)]
      simp [Memory.read_write_self hm]
    | succ j =>
      have := ih (Memory.wf_write hm p b) (p + 1) (j := j) (by simpa using h)
      rw [Memory.storeBytes, show p + (j + 1) = p + 1 + j by omega, this]
      simp

/-- Every listed address after storing bytes was listed before or is stored to. -/
theorem Memory.mem_storeBytes {m : Memory} {p : Nat} {bs : Text} {c : Host.Cell} (h : c ∈ m.storeBytes p bs) :
    c ∈ m ∨ (p ≤ c.1 ∧ c.1 < p + bs.length) := by
  induction bs generalizing m p with
  | nil => exact .inl h
  | cons b bs ih =>
    simp only [List.length_cons]
    rcases ih h with h | h
    · rcases Memory.mem_write h with rfl | h
      · right; simp
      · exact .inl h
    · right; omega

/-! ### The 8-byte access -/

/-- `store64` keeps the canonical form. -/
theorem Memory.wf_store64 {m : Memory} (hm : m.wf) (p : Nat) (v : Word) : (m.store64 p v).wf :=
  Memory.wf_storeBytes hm _ _

/-- Byte j of a stored value is read back at p + j. -/
theorem Memory.read_store64 {m : Memory} (hm : m.wf) (p : Nat) (v : Word) {j : Nat} (h : j < 8) :
    (m.store64 p v).read (p + j) = byteOf v j := by
  rw [Memory.store64, Memory.read_storeBytes hm _ _ (by simpa using h)]
  interval_cases j <;> rfl

/-- `store64` leaves every byte outside `p .. p+7` alone. -/
theorem Memory.read_store64_outside (m : Memory) (p : Nat) (v : Word) {a : Nat} (h : a < p ∨ p + 8 ≤ a) :
    (m.store64 p v).read a = m.read a :=
  Memory.read_storeBytes_outside m p _ h

/-- `store64` lists no address outside `p .. p+7` that was not listed. -/
theorem Memory.mem_store64 {m : Memory} {p : Nat} {v : Word} {c : Host.Cell} (h : c ∈ m.store64 p v) :
    c ∈ m ∨ (p ≤ c.1 ∧ c.1 < p + 8) :=
  Memory.mem_storeBytes h

/-- Bit i of a loaded value is bit i % 8 of byte i / 8. -/
theorem Memory.getLsbD_load64 (m : Memory) (p : Nat) {i : Nat} (h : i < 64) :
    (m.load64 p).getLsbD i = (m.read (p + i / 8)).getLsbD (i % 8) := by
  simp only [Memory.load64, BitVec.getLsbD_append]
  interval_cases i <;> rfl

/-- Byte j of a loaded value is the byte at p + j. -/
theorem Memory.byteOf_load64 (m : Memory) (p : Nat) {j : Nat} (h : j < 8) :
    byteOf (m.load64 p) j = m.read (p + j) := by
  apply BitVec.eq_of_getLsbD_eq
  intro i hi
  rw [byteOf, BitVec.getLsbD_extractLsb']
  simp only [hi, decide_true, Bool.true_and]
  rw [Memory.getLsbD_load64 _ _ (by omega), show (8 * j + i) / 8 = j by omega, show (8 * j + i) % 8 = i by omega]

/-- Two words with equal bytes are equal. -/
theorem eq_of_byteOf_eq {v w : Word} (h : ∀ j, j < 8 → byteOf v j = byteOf w j) : v = w := by
  apply BitVec.eq_of_getLsbD_eq
  intro i hi
  have := congrArg (fun b : Byte => b.getLsbD (i % 8)) (h (i / 8) (by omega))
  simp only [byteOf, BitVec.getLsbD_extractLsb'] at this
  have h8 : i % 8 < 8 := Nat.mod_lt _ (by omega)
  simpa [h8, Nat.div_add_mod] using this

/-- Load after store at the same address gives the stored value. -/
theorem Memory.load64_store64 {m : Memory} (hm : m.wf) (p : Nat) (v : Word) : (m.store64 p v).load64 p = v :=
  eq_of_byteOf_eq fun j hj => by rw [Memory.byteOf_load64 _ _ hj, Memory.read_store64 hm _ _ hj]

end Sys2Proof.Machine
end

