-- ==== Sys2Proof/Laws/State.lean ====
section
/-! SUPPORT. One lemma per field per update of the state. -/

namespace Sys2Proof.Machine

variable (s : State)

/-! ### Reading a register -/

theorem State.reg_setReg (r r' : Reg) (v : Word) :
    (s.setReg r v).reg r' = if r' = r then v else s.reg r' := by
  simp only [State.reg, State.setReg, Vector.getElem_set]
  by_cases h : r' = r
  · simp [h]
  · have : ¬ r.val = r'.val := fun e => h (Fin.ext e.symm)
    simp [h, this]

@[simp] theorem State.reg_setReg_self (r : Reg) (v : Word) : (s.setReg r v).reg r = v := by
  simp [State.reg_setReg]

theorem State.reg_setReg_of_ne {r r' : Reg} (v : Word) (h : r' ≠ r) : (s.setReg r v).reg r' = s.reg r' := by
  simp [State.reg_setReg, h]

theorem State.reg_writeView (l : View) (v : Word) (r : Reg) :
    (s.writeView l v).reg r = if r = l.reg then viewWrite l.kind (s.reg l.reg) v else s.reg r := by
  simp [State.writeView, State.reg_setReg]

@[simp] theorem State.reg_clearFlags (r : Reg) : s.clearFlags.reg r = s.reg r := rfl
@[simp] theorem State.reg_setFlags (f : Flags) (r : Reg) : (s.setFlags f).reg r = s.reg r := rfl
@[simp] theorem State.reg_setPc (a : Word) (r : Reg) : (s.setPc a).reg r = s.reg r := rfl
@[simp] theorem State.reg_advance (r : Reg) : s.advance.reg r = s.reg r := rfl

/-- Two register files with equal registers are equal. -/
theorem State.regs_ext {s t : State} (h : ∀ r, s.reg r = t.reg r) : s.regs = t.regs := by
  apply Vector.ext
  intro i hi
  exact h ⟨i, hi⟩

/-! ### setReg and writeView -/

@[simp] theorem State.setReg_flags (r : Reg) (v : Word) : (s.setReg r v).flags = s.flags := rfl
@[simp] theorem State.setReg_pc (r : Reg) (v : Word) : (s.setReg r v).pc = s.pc := rfl
@[simp] theorem State.setReg_mem (r : Reg) (v : Word) : (s.setReg r v).mem = s.mem := rfl
@[simp] theorem State.setReg_error (r : Reg) (v : Word) : (s.setReg r v).error = s.error := rfl
@[simp] theorem State.setReg_config (r : Reg) (v : Word) : (s.setReg r v).config = s.config := rfl

@[simp] theorem State.writeView_flags (l : View) (v : Word) : (s.writeView l v).flags = s.flags := rfl
@[simp] theorem State.writeView_pc (l : View) (v : Word) : (s.writeView l v).pc = s.pc := rfl
@[simp] theorem State.writeView_mem (l : View) (v : Word) : (s.writeView l v).mem = s.mem := rfl
@[simp] theorem State.writeView_error (l : View) (v : Word) : (s.writeView l v).error = s.error := rfl
@[simp] theorem State.writeView_config (l : View) (v : Word) : (s.writeView l v).config = s.config := rfl

/-! ### clearFlags and setFlags -/

@[simp] theorem State.clearFlags_regs : s.clearFlags.regs = s.regs := rfl
@[simp] theorem State.clearFlags_flags : s.clearFlags.flags = Flags.zero := rfl
@[simp] theorem State.clearFlags_pc : s.clearFlags.pc = s.pc := rfl
@[simp] theorem State.clearFlags_mem : s.clearFlags.mem = s.mem := rfl
@[simp] theorem State.clearFlags_error : s.clearFlags.error = s.error := rfl
@[simp] theorem State.clearFlags_config : s.clearFlags.config = s.config := rfl

@[simp] theorem State.setFlags_regs (f : Flags) : (s.setFlags f).regs = s.regs := rfl
@[simp] theorem State.setFlags_flags (f : Flags) : (s.setFlags f).flags = f := rfl
@[simp] theorem State.setFlags_pc (f : Flags) : (s.setFlags f).pc = s.pc := rfl
@[simp] theorem State.setFlags_mem (f : Flags) : (s.setFlags f).mem = s.mem := rfl
@[simp] theorem State.setFlags_error (f : Flags) : (s.setFlags f).error = s.error := rfl
@[simp] theorem State.setFlags_config (f : Flags) : (s.setFlags f).config = s.config := rfl

/-! ### setPc and advance -/

@[simp] theorem State.setPc_regs (a : Word) : (s.setPc a).regs = s.regs := rfl
@[simp] theorem State.setPc_flags (a : Word) : (s.setPc a).flags = s.flags := rfl
@[simp] theorem State.setPc_pc (a : Word) : (s.setPc a).pc = a := rfl
@[simp] theorem State.setPc_mem (a : Word) : (s.setPc a).mem = s.mem := rfl
@[simp] theorem State.setPc_error (a : Word) : (s.setPc a).error = s.error := rfl
@[simp] theorem State.setPc_config (a : Word) : (s.setPc a).config = s.config := rfl

@[simp] theorem State.advance_regs : s.advance.regs = s.regs := rfl
@[simp] theorem State.advance_flags : s.advance.flags = s.flags := rfl
@[simp] theorem State.advance_pc : s.advance.pc = s.nextPc := rfl
@[simp] theorem State.advance_mem : s.advance.mem = s.mem := rfl
@[simp] theorem State.advance_error : s.advance.error = s.error := rfl
@[simp] theorem State.advance_config : s.advance.config = s.config := rfl

@[simp] theorem State.nextPc_writeView (l : View) (v : Word) : (s.writeView l v).nextPc = s.nextPc := rfl
@[simp] theorem State.nextPc_clearFlags : s.clearFlags.nextPc = s.nextPc := rfl
@[simp] theorem State.nextPc_setFlags (f : Flags) : (s.setFlags f).nextPc = s.nextPc := rfl

/-! ### The physical address depends on the parameters alone -/

@[simp] theorem State.physical_writeView (l : View) (v a : Word) : (s.writeView l v).physical a = s.physical a := rfl
@[simp] theorem State.touchesCode_writeView (l : View) (v : Word) (p : Nat) :
    (s.writeView l v).touchesCode p = s.touchesCode p := rfl

end Sys2Proof.Machine
end

