-- ==== Sys2Proof/Laws/View.lean ====
section
/-! SUPPORT. The overlay of the register views, byte by byte (10_state.md rules R22, R23). -/

namespace Sys2Proof.Machine

/-- The span of a view ends inside the register. -/
theorem offsetOf_add_nbytesOf_le (k : ViewKind) : offsetOf k + nbytesOf k ≤ 8 := by cases k <;> decide

/-- Bit i of a read view: the register's bit at the view's offset, or 0 above the view. -/
theorem getLsbD_viewRead (k : ViewKind) (x : Word) (i : Nat) :
    (viewRead k x).getLsbD i = (decide (i < 8 * nbytesOf k) && x.getLsbD (8 * offsetOf k + i)) := by
  by_cases hi : i < 64
  · cases k <;> simp [viewRead, offsetOf, nbytesOf, hi] <;> rfl
  · rw [BitVec.getLsbD_of_ge _ _ (by omega)]
    have := offsetOf_add_nbytesOf_le k
    have : ¬ i < 8 * nbytesOf k := by omega
    simp [this]

/-- Bit i of a register whose low `m` bits are replaced by those of `v`. -/
theorem getLsbD_replaceLow (x v : Word) (n m : Nat) (h : n + m = 64) {i : Nat} (hi : i < 64) :
    (x.extractLsb' m n ++ v.extractLsb' 0 m).getLsbD i = if i < m then v.getLsbD i else x.getLsbD i := by
  rw [BitVec.getLsbD_append]
  split
  next h' => simp [h']
  next h' => simp [show i - m < n by omega, show m + (i - m) = i by omega]

/-- Bit i of a written register: a bit of the value inside the view, the old bit outside. -/
theorem getLsbD_viewWrite (k : ViewKind) (x v : Word) {i : Nat} (hi : i < 64) :
    (viewWrite k x v).getLsbD i =
      if 8 * offsetOf k ≤ i ∧ i < 8 * (offsetOf k + nbytesOf k) then v.getLsbD (i - 8 * offsetOf k)
      else x.getLsbD i := by
  cases k
  case Q => simp [viewWrite, offsetOf, nbytesOf, hi]
  case D => exact (getLsbD_replaceLow x v 32 32 rfl hi).trans (by simp [offsetOf, nbytesOf])
  case W => exact (getLsbD_replaceLow x v 48 16 rfl hi).trans (by simp [offsetOf, nbytesOf])
  case L => exact (getLsbD_replaceLow x v 56 8 rfl hi).trans (by simp [offsetOf, nbytesOf])
  case H =>
    show (x.extractLsb' 16 48 ++ v.extractLsb' 0 8 ++ x.extractLsb' 0 8).getLsbD i = _
    rw [BitVec.getLsbD_append, BitVec.getLsbD_append]
    simp only [offsetOf, nbytesOf, BitVec.getLsbD_extractLsb']
    by_cases h : i < 8
    · simp [h, show ¬ 8 ≤ i by omega]
    · by_cases h' : i < 16
      · simp [h, show i - 8 < 8 by omega, show 8 ≤ i by omega, h']
      · simp [h, h', show ¬ i - 8 < 8 by omega, show i - 8 - 8 < 48 by omega, show 16 + (i - 8 - 8) = i by omega]

/-- Byte j of a read view. -/
theorem byteOf_viewRead (k : ViewKind) (x : Word) (j : Nat) :
    byteOf (viewRead k x) j = if j < nbytesOf k then byteOf x (offsetOf k + j) else 0#8 := by
  apply BitVec.eq_of_getLsbD_eq
  intro i hi
  simp only [byteOf, BitVec.getLsbD_extractLsb', getLsbD_viewRead, hi, decide_true, Bool.true_and]
  split
  next h =>
    rw [BitVec.getLsbD_extractLsb']
    simp [hi, show 8 * j + i < 8 * nbytesOf k by omega, show 8 * offsetOf k + (8 * j + i) = 8 * (offsetOf k + j) + i by omega]
  next h => simp [show ¬ 8 * j + i < 8 * nbytesOf k by omega]

/-- Byte j of a written register. -/
theorem byteOf_viewWrite (k : ViewKind) (x v : Word) {j : Nat} (hj : j < 8) :
    byteOf (viewWrite k x v) j =
      if offsetOf k ≤ j ∧ j < offsetOf k + nbytesOf k then byteOf v (j - offsetOf k) else byteOf x j := by
  apply BitVec.eq_of_getLsbD_eq
  intro i hi
  simp only [byteOf, BitVec.getLsbD_extractLsb', hi, decide_true, Bool.true_and]
  rw [getLsbD_viewWrite k x v (by omega)]
  by_cases h : offsetOf k ≤ j ∧ j < offsetOf k + nbytesOf k
  · rw [if_pos (by omega), if_pos h, BitVec.getLsbD_extractLsb']
    simp [hi, show 8 * j + i - 8 * offsetOf k = 8 * (j - offsetOf k) + i by omega]
  · rw [if_neg (by omega), if_neg h, BitVec.getLsbD_extractLsb']
    simp [hi]

/-- Reading a view back after writing it gives the value's low bytes. -/
theorem viewRead_viewWrite (k : ViewKind) (x v : Word) :
    (viewRead k (viewWrite k x v)).toNat = v.toNat % 2 ^ (8 * nbytesOf k) := by
  have hk := offsetOf_add_nbytesOf_le k
  have : viewRead k (viewWrite k x v) = (v.setWidth (8 * nbytesOf k)).setWidth 64 := by
    apply BitVec.eq_of_getLsbD_eq
    intro i hi
    rw [getLsbD_viewRead, BitVec.getLsbD_setWidth, BitVec.getLsbD_setWidth]
    by_cases h : i < 8 * nbytesOf k
    · rw [getLsbD_viewWrite k x v (by omega), if_pos (by omega)]
      simp [h, hi]
    · simp [h]
  rw [this]
  simp only [BitVec.toNat_setWidth]
  rw [Nat.mod_eq_of_lt]
  exact Nat.lt_of_lt_of_le (Nat.mod_lt _ (by positivity)) (Nat.pow_le_pow_right (by omega) (by omega))

/-- A view write over any state, in the terms claims use. -/
theorem viewWritten_writeView (s : State) (l : View) (v : Word) : ViewWritten l v s.reg (s.writeView l v) := by
  intro r j hj
  rw [State.regByte, State.reg_writeView]
  by_cases hr : r = l.reg
  · subst hr; simp [byteOf_viewWrite _ _ _ hj]
  · simp [hr]

/-- What is said of written views depends on the register file alone. -/
theorem ViewWritten.of_regs {l : View} {v : Word} {old : Reg → Word} {t u : State} (h : ViewWritten l v old t)
    (hu : u.regs = t.regs) : ViewWritten l v old u := by
  intro r j hj
  rw [← h r j hj]
  simp [State.regByte, State.reg, hu]

@[simp] theorem State.readView_spView (s : State) : s.readView spView = s.reg Reg.SP := rfl
@[simp] theorem State.readView_bpView (s : State) : s.readView bpView = s.reg Reg.BP := rfl

/-- Writing SP changes register 7 alone. -/
theorem State.reg_writeView_spView (s : State) (v : Word) (r : Reg) :
    (s.writeView spView v).reg r = if r = Reg.SP then v else s.reg r := by
  rw [State.reg_writeView]; rfl

/-- Writing BP changes register 6 alone. -/
theorem State.reg_writeView_bpView (s : State) (v : Word) (r : Reg) :
    (s.writeView bpView v).reg r = if r = Reg.BP then v else s.reg r := by
  rw [State.reg_writeView]; rfl

end Sys2Proof.Machine
end

