-- ==== Sys2Proof/Laws/Ops.lean ====
section
/-! SUPPORT. One lemma per shared operation that says what it can do: loads, stores, push, pop, raise,
commit, fetch and step. -/

namespace Sys2Proof.Machine

/-! ### Loads and stores -/

theorem State.memRead_of_inRange {s : State} {a : Word} (h : s.inRange (s.physical a)) :
    s.memRead a = .ok (s.mem.load64 (s.physical a)) := if_pos h

theorem State.memRead_of_not_inRange {s : State} {a : Word} (h : ¬ s.inRange (s.physical a)) :
    s.memRead a = .error ⟨.memoryOutOfRange, a, s.physical a⟩ := if_neg h

/-- A loaded value is the little-endian value of its eight bytes. -/
theorem loadedFrom_load64 (s : State) (p : Nat) : LoadedFrom p (s.mem.load64 p) s :=
  fun _ hj => Memory.byteOf_load64 _ _ hj

theorem State.memWrite_of_writable {s : State} {a : Word} (v : Word) (h : s.writable a) :
    s.memWrite a v = .ok { s with mem := s.mem.store64 (s.physical a) v } := by
  simp [State.memWrite, h.1, h.2]

theorem State.memWrite_of_not_inRange {s : State} {a : Word} (v : Word) (h : ¬ s.inRange (s.physical a)) :
    s.memWrite a v = .error ⟨.memoryOutOfRange, a, s.physical a⟩ := if_neg h

theorem State.memWrite_of_touchesCode {s : State} {a : Word} (v : Word) (h : s.inRange (s.physical a))
    (hc : s.touchesCode (s.physical a) = true) :
    s.memWrite a v = .error ⟨.storeToCode, a, s.physical a⟩ := by
  simp [State.memWrite, h, hc]

/-- A store that succeeds was allowed, and replaces memory and nothing else. -/
theorem State.memWrite_eq_ok {s w : State} {a v : Word} (h : s.memWrite a v = .ok w) :
    s.writable a ∧ w = { s with mem := s.mem.store64 (s.physical a) v } := by
  simp only [State.memWrite] at h
  split at h
  next hr =>
    split at h
    · cases h
    next hc => cases h; exact ⟨⟨hr, by simpa using hc⟩, rfl⟩
  · cases h

/-- A load that succeeds was in range. -/
theorem State.memRead_eq_ok {s : State} {a v : Word} (h : s.memRead a = .ok v) :
    s.readable a ∧ v = s.mem.load64 (s.physical a) := by
  simp only [State.memRead] at h
  split at h
  next hr => cases h; exact ⟨hr, rfl⟩
  · cases h

/-- Storing eight bytes, in the terms claims use. -/
theorem storedAt_store64 {s t : State} (hm : s.mem.wf) (p : Nat) (v : Word) (h : t.mem = s.mem.store64 p v) :
    StoredAt p v s t :=
  ⟨fun _ hj => by rw [h, Memory.read_store64 hm _ _ hj], fun _ ha => by rw [h, Memory.read_store64_outside _ _ _ ha]⟩

/-- No byte of the code region is among the eight bytes of a store that is allowed. -/
theorem State.not_touchesCode {s : State} {p : Nat} :
    s.touchesCode p = false ↔ ∀ c ∈ s.config.codeRegion, ¬(p ≤ c ∧ c < p + 8) := by
  simp [State.touchesCode]

/-! ### Errors and commit -/

/-- A memory error that is raised, in the terms claims use. -/
theorem raisesMemory_raise (s : State) (b : AccessBy) (k : ErrorKind) (a : Word) :
    RaisesMemory (raise s (memoryError s b ⟨k, a, s.physical a⟩)) s k a :=
  ⟨_, rfl, rfl, rfl, rfl, rfl, rfl⟩

@[simp] theorem commit_ok (s w : State) (b : AccessBy) : commit s b (.ok w) = .next w := rfl
@[simp] theorem commit_error (s : State) (b : AccessBy) (f : MemFault) :
    commit s b (.error f) = raise s (memoryError s b f) := rfl
@[simp] theorem map_ok {α β : Type} (f : α → β) (a : α) : (Except.ok a : Except MemFault α).map f = .ok (f a) := rfl
@[simp] theorem map_error {α β : Type} (f : α → β) (e : MemFault) :
    (Except.error e : Except MemFault α).map f = .error e := rfl

/-- A commit answers a next state exactly when nothing was raised. -/
theorem commit_eq_next {s t : State} {b : AccessBy} {r : Except MemFault State} :
    commit s b r = .next t ↔ r = .ok t := by
  cases r <;> simp [raise]

/-- A commit answers a fault exactly when an access failed, and then the fault is that access's error. -/
theorem commit_eq_fault {s : State} {b : AccessBy} {r : Except MemFault State} {f : Fault} :
    commit s b r = .fault f ↔
      ∃ e, r = .error e ∧
        f = .fatal (recordOf s (memoryError s b e)) { s with error := some (recordOf s (memoryError s b e)) } := by
  cases r <;> simp [raise, eq_comm]

/-- A load fails only by its range. -/
theorem State.memRead_eq_error {s : State} {a : Word} {e : MemFault} (h : s.memRead a = .error e) :
    e = ⟨.memoryOutOfRange, a, s.physical a⟩ := by
  by_cases hr : s.inRange (s.physical a)
  · simp [State.memRead, hr] at h
  · simpa [State.memRead, hr, eq_comm] using h

/-- A store fails by its range or by the code region. -/
theorem State.memWrite_eq_error {s : State} {a v : Word} {e : MemFault} (h : s.memWrite a v = .error e) :
    e = ⟨.memoryOutOfRange, a, s.physical a⟩ ∨ e = ⟨.storeToCode, a, s.physical a⟩ := by
  by_cases hr : s.inRange (s.physical a)
  · by_cases hc : s.touchesCode (s.physical a) = true
    · exact .inr (by simpa [State.memWrite, hr, hc, eq_comm] using h)
    · simp [State.memWrite, hr, hc] at h
  · exact .inl (by simpa [State.memWrite, hr, eq_comm] using h)

/-- Mapping over a result that may have failed. -/
theorem map_eq_error {α β : Type} {f : α → β} {r : Except MemFault α} {e : MemFault} :
    r.map f = .error e ↔ r = .error e := by
  cases r <;> simp

/-- Mapping over a result that may have failed. -/
theorem map_eq_ok {α β : Type} {f : α → β} {r : Except MemFault α} {b : β} :
    r.map f = .ok b ↔ ∃ a, r = .ok a ∧ b = f a := by
  cases r <;> simp [eq_comm]

/-! ### Push and pop -/

/-- The state a push leaves: SP is eight lower and the value is stored there. -/
def State.pushed (s : State) (v : Word) : State :=
  { s.writeView spView (s.reg Reg.SP - 8#64) with mem := s.mem.store64 (s.physical (s.reg Reg.SP - 8#64)) v }

theorem State.push_of_writable {s : State} (v : Word) (h : s.writable (s.reg Reg.SP - 8#64)) :
    s.push v = .ok (s.pushed v) :=
  State.memWrite_of_writable (s := s.writeView spView (s.reg Reg.SP - 8#64)) v h

theorem State.push_of_not_inRange {s : State} (v : Word) (h : ¬ s.inRange (s.physical (s.reg Reg.SP - 8#64))) :
    s.push v = .error ⟨.memoryOutOfRange, s.reg Reg.SP - 8#64, s.physical (s.reg Reg.SP - 8#64)⟩ :=
  State.memWrite_of_not_inRange (s := s.writeView spView (s.reg Reg.SP - 8#64)) v h

theorem State.push_of_touchesCode {s : State} (v : Word) (h : s.inRange (s.physical (s.reg Reg.SP - 8#64)))
    (hc : s.touchesCode (s.physical (s.reg Reg.SP - 8#64)) = true) :
    s.push v = .error ⟨.storeToCode, s.reg Reg.SP - 8#64, s.physical (s.reg Reg.SP - 8#64)⟩ :=
  State.memWrite_of_touchesCode (s := s.writeView spView (s.reg Reg.SP - 8#64)) v h hc

/-- A push that succeeds was allowed. -/
theorem State.push_eq_ok {s w : State} {v : Word} (h : s.push v = .ok w) :
    s.writable (s.reg Reg.SP - 8#64) ∧ w = s.pushed v :=
  State.memWrite_eq_ok (s := s.writeView spView (s.reg Reg.SP - 8#64)) h

@[simp] theorem State.pushed_mem (s : State) (v : Word) :
    (s.pushed v).mem = s.mem.store64 (s.physical (s.reg Reg.SP - 8#64)) v := rfl
@[simp] theorem State.pushed_flags (s : State) (v : Word) : (s.pushed v).flags = s.flags := rfl
@[simp] theorem State.pushed_pc (s : State) (v : Word) : (s.pushed v).pc = s.pc := rfl
@[simp] theorem State.pushed_error (s : State) (v : Word) : (s.pushed v).error = s.error := rfl
@[simp] theorem State.pushed_config (s : State) (v : Word) : (s.pushed v).config = s.config := rfl
@[simp] theorem State.nextPc_pushed (s : State) (v : Word) : (s.pushed v).nextPc = s.nextPc := rfl
theorem State.reg_pushed (s : State) (v : Word) (r : Reg) :
    (s.pushed v).reg r = if r = Reg.SP then s.reg Reg.SP - 8#64 else s.reg r :=
  State.reg_writeView_spView s _ r

theorem State.pop_of_readable {s : State} (k : Word → State → State) (h : s.readable (s.reg Reg.SP)) :
    s.pop k = .ok (k (s.mem.load64 (s.physical (s.reg Reg.SP))) (s.writeView spView (s.reg Reg.SP + 8#64))) := by
  simp [State.pop, State.memRead_of_inRange h]

theorem State.pop_of_not_readable {s : State} (k : Word → State → State) (h : ¬ s.readable (s.reg Reg.SP)) :
    s.pop k = .error ⟨.memoryOutOfRange, s.reg Reg.SP, s.physical (s.reg Reg.SP)⟩ := by
  simp [State.pop, State.memRead_of_not_inRange h]

/-- A pop that succeeds was allowed. -/
theorem State.pop_eq_ok {s w : State} {k : Word → State → State} (h : s.pop k = .ok w) :
    s.readable (s.reg Reg.SP) ∧
      w = k (s.mem.load64 (s.physical (s.reg Reg.SP))) (s.writeView spView (s.reg Reg.SP + 8#64)) := by
  obtain ⟨v, hv, hw⟩ := map_eq_ok.mp h
  obtain ⟨hr, rfl⟩ := State.memRead_eq_ok hv
  exact ⟨hr, hw⟩

/-! ### The cycle -/

/-- What a cycle with no error, not at `EXIT_PC`, does: the fetch fails, the decode fails, or the
decoded instruction runs. -/
theorem step_of_running {s : State} (he : s.error = none) (hx : s.pc ≠ s.config.exitPc) :
    step s = match fetchSlot s.config s.pc with
      | none => raise s (fetchError s)
      | some slot => match decode s.config.tables slot with
        | .error e => raise s (parseError e)
        | .ok i => exec i s := by
  unfold step
  rw [he]
  exact if_neg hx

/-- A cycle that answers a next state ran a decoded instruction. -/
theorem step_eq_next {s t : State} (h : step s = .next t) :
    s.error = none ∧ s.pc ≠ s.config.exitPc ∧
      ∃ slot i, fetchSlot s.config s.pc = some slot ∧ decode s.config.tables slot = .ok i ∧ exec i s = .next t := by
  cases he : s.error with
  | some r => simp [step, he] at h
  | none =>
    by_cases hx : s.pc = s.config.exitPc
    · simp [step, he, hx] at h
    · rw [step_of_running he hx] at h
      cases hf : fetchSlot s.config s.pc with
      | none => rw [hf] at h; cases h
      | some slot =>
        rw [hf] at h
        cases hd : decode s.config.tables slot with
        | error e => simp only [hd] at h; cases h
        | ok i => simp only [hd] at h; exact ⟨rfl, hx, slot, i, rfl, hd, h⟩

/-- The slot found from an address on, by its number. -/
theorem slotAt_eq_some {w addr : Nat} {slots : List Text} {pc : Word} {slot : Text} (hw : 0 < w) :
    slotAt w addr slots pc = some slot ↔ ∃ k, slots[k]? = some slot ∧ addr + k * w = pc.toNat := by
  induction slots generalizing addr with
  | nil => simp [slotAt]
  | cons s slots ih =>
    simp only [slotAt]
    split
    next h =>
      constructor
      · rintro ⟨⟩; exact ⟨0, rfl, by simpa using h⟩
      · rintro ⟨k, hk, ha⟩
        have : k * w = 0 := by omega
        obtain rfl : k = 0 := by
          rcases Nat.mul_eq_zero.mp this with h | h
          · exact h
          · omega
        simpa using hk
    next h =>
      rw [ih]
      constructor
      · rintro ⟨k, hk, ha⟩; exact ⟨k + 1, by simpa using hk, by rw [Nat.succ_mul]; omega⟩
      · rintro ⟨k, hk, ha⟩
        cases k with
        | zero => simp at ha; exact absurd ha h
        | succ k => exact ⟨k, by simpa using hk, by rw [Nat.succ_mul] at ha; omega⟩

/-- No slot is found where none stands. -/
theorem slotAt_eq_none {w addr : Nat} {slots : List Text} {pc : Word}
    (h : ∀ k, k < slots.length → addr + k * w ≠ pc.toNat) : slotAt w addr slots pc = none := by
  induction slots generalizing addr with
  | nil => rfl
  | cons s slots ih =>
    have h0 := h 0 (by simp)
    simp only [Nat.zero_mul, Nat.add_zero] at h0
    simp only [slotAt, if_neg h0]
    refine ih fun k hk => ?_
    have := h (k + 1) (by simpa using hk)
    rw [Nat.succ_mul] at this
    omega

end Sys2Proof.Machine
end

