-- ==== Sys2Proof/Laws/Exec.lean ====
section
/-! SUPPORT. What an instruction that completes can do to memory, and what a cycle can do at all. -/

namespace Sys2Proof.Machine

/-- An instruction that completes keeps memory, or stores eight bytes where it was allowed to. -/
theorem exec_next_mem {i : Instr} {s t : State} (h : exec i s = .next t) :
    (storeAddress i s = none ∧ t.mem = s.mem) ∨
      ∃ a v, storeAddress i s = some a ∧ s.writable a ∧ t.mem = s.mem.store64 (s.physical a) v := by
  cases i <;>
    simp only [exec, execMovRR, execMovRM, execMovMR, execMovIR, execPushR, execPopR, execLeave, execCallI,
      execCallM, callTo, execRet, execAddRR, execSubIR, writeAlu, execCmpIM, execJneI, execJneM, jneTo, execJmpI,
      execJmpM, jmpTo, commit_eq_next, map_eq_ok, Host.Outcome.next.injEq] at h
  case movRR | movIR | addRR | subIR | jmpI | jmpM => subst h; exact .inl ⟨rfl, rfl⟩
  case jneI | jneM => subst h; exact .inl ⟨rfl, by cases s.flags.zf <;> rfl⟩
  case movMR | cmpIM => obtain ⟨_, _, rfl⟩ := h; exact .inl ⟨rfl, rfl⟩
  case popR | leave | ret => obtain ⟨_, rfl⟩ := State.pop_eq_ok h; exact .inl ⟨rfl, rfl⟩
  case movRM =>
    obtain ⟨w, hw, rfl⟩ := h
    obtain ⟨hr, rfl⟩ := State.memWrite_eq_ok hw
    exact .inr ⟨_, _, rfl, hr, rfl⟩
  case pushR | callI | callM =>
    obtain ⟨w, hw, rfl⟩ := h
    obtain ⟨hr, rfl⟩ := State.push_eq_ok hw
    exact .inr ⟨_, _, rfl, hr, rfl⟩

/-- An instruction that completes keeps the error status and the parameters. -/
theorem exec_next_rest {i : Instr} {s t : State} (h : exec i s = .next t) : SameRest s t := by
  cases i <;>
    simp only [exec, execMovRR, execMovRM, execMovMR, execMovIR, execPushR, execPopR, execLeave, execCallI,
      execCallM, callTo, execRet, execAddRR, execSubIR, writeAlu, execCmpIM, execJneI, execJneM, jneTo, execJmpI,
      execJmpM, jmpTo, commit_eq_next, map_eq_ok, Host.Outcome.next.injEq] at h
  case movRR | movIR | addRR | subIR | jmpI | jmpM => subst h; exact ⟨rfl, rfl⟩
  case jneI | jneM => subst h; cases s.flags.zf <;> exact ⟨rfl, rfl⟩
  case movMR | cmpIM => obtain ⟨_, _, rfl⟩ := h; exact ⟨rfl, rfl⟩
  case popR | leave | ret => obtain ⟨_, rfl⟩ := State.pop_eq_ok h; exact ⟨rfl, rfl⟩
  case movRM =>
    obtain ⟨w, hw, rfl⟩ := h
    obtain ⟨-, rfl⟩ := State.memWrite_eq_ok hw
    exact ⟨rfl, rfl⟩
  case pushR | callI | callM =>
    obtain ⟨w, hw, rfl⟩ := h
    obtain ⟨-, rfl⟩ := State.push_eq_ok hw
    exact ⟨rfl, rfl⟩

/-- An instruction completes, or raises an error of an access of its own. -/
theorem exec_next_or_raise (i : Instr) (s : State) :
    (∃ t, exec i s = .next t) ∨ ∃ e, exec i s = raise s e := by
  have hc : ∀ b r, (∃ t, commit s b r = .next t) ∨ ∃ e, commit s b r = raise s e := fun b r => by
    cases r with
    | ok t => exact .inl ⟨t, rfl⟩
    | error e => exact .inr ⟨_, rfl⟩
  cases i
  case movRR | movIR | addRR | subIR | jneI | jneM | jmpI | jmpM => exact .inl ⟨_, rfl⟩
  all_goals exact hc _ _

/-- A cycle of a state with no error, not at `EXIT_PC`, answers a next state or raises an error. -/
theorem step_next_or_raise {s : State} (he : s.error = none) (hx : s.pc ≠ s.config.exitPc) :
    (∃ t, step s = .next t) ∨ ∃ e, step s = raise s e := by
  rw [step_of_running he hx]
  split
  · exact .inr ⟨_, rfl⟩
  · split
    · exact .inr ⟨_, rfl⟩
    · exact exec_next_or_raise _ s

/-- A cycle that answers a next state keeps the parameters and leaves no error. -/
theorem step_next_rest {s t : State} (h : step s = .next t) : t.config = s.config ∧ t.error = none := by
  obtain ⟨he, -, _, _, -, -, hi⟩ := step_eq_next h
  have := exec_next_rest hi
  exact ⟨this.2, this.1.trans he⟩

/-- A run can be cut after its first `m` cycles. -/
theorem steps_add {m n : Nat} {s t : State} : Steps (m + n) s t ↔ ∃ u, Steps m s u ∧ Steps n u t := by
  induction m generalizing s with
  | zero => simp [Steps]
  | succ m ih =>
    rw [Nat.succ_add]
    simp only [Steps, ih]
    constructor
    · rintro ⟨a, ha, u, hu, ht⟩; exact ⟨u, ⟨a, ha, hu⟩, ht⟩
    · rintro ⟨u, ⟨a, ha, hu⟩, ht⟩; exact ⟨a, ha, u, hu, ht⟩

/-- A run of a given length reaches one state. -/
theorem steps_unique {n : Nat} {s t u : State} (ht : Steps n s t) (hu : Steps n s u) : t = u := by
  induction n generalizing s with
  | zero => exact ht.symm.trans hu
  | succ n ih =>
    obtain ⟨a, ha, ht⟩ := ht
    obtain ⟨b, hb, hu⟩ := hu
    cases Host.Outcome.next.inj (ha.symm.trans hb)
    exact ih ht hu

end Sys2Proof.Machine
end

