-- ==== Sys2Proof/Laws/PerInstr.lean ====
section
/-! SUPPORT. Facts about every instruction as syntax, one lemma per constructor. -/

namespace Sys2Proof.Laws.OperandForm

open Sys2Proof.Machine (admittedForms)

/-- The form check gives the instruction back from its opcode and operands, its form is one that
30_encoding.md rule R102 lists, and it names the views its operands name (rule R107). -/
def Statement (i : Instr) : Prop :=
  formOf i.opcode i.src i.dst = some i ∧ (i.opcode, i.src.cls, i.dst.cls) ∈ admittedForms ∧
    i.views = i.src.views ++ i.dst.views

theorem movRR (src dst : View) : Statement (.movRR src dst) :=
  ⟨rfl, of_decide_eq_true rfl, rfl⟩

theorem movRM (src : View) (dst : MemOp) : Statement (.movRM src dst) :=
  ⟨rfl, of_decide_eq_true rfl, rfl⟩

theorem movMR (src : MemOp) (dst : View) : Statement (.movMR src dst) :=
  ⟨rfl, of_decide_eq_true rfl, rfl⟩

theorem movIR (src : Word) (dst : View) : Statement (.movIR src dst) :=
  ⟨rfl, of_decide_eq_true rfl, rfl⟩

theorem pushR (src : View) : Statement (.pushR src) :=
  ⟨rfl, of_decide_eq_true rfl, rfl⟩

theorem popR (dst : View) : Statement (.popR dst) :=
  ⟨rfl, of_decide_eq_true rfl, rfl⟩

theorem leave : Statement .leave :=
  ⟨rfl, of_decide_eq_true rfl, rfl⟩

theorem callI (target : Word) : Statement (.callI target) :=
  ⟨rfl, of_decide_eq_true rfl, rfl⟩

theorem callM (target : MemOp) : Statement (.callM target) :=
  ⟨rfl, of_decide_eq_true rfl, (List.append_nil _).symm⟩

theorem ret : Statement .ret :=
  ⟨rfl, of_decide_eq_true rfl, rfl⟩

theorem addRR (src dst : View) : Statement (.addRR src dst) :=
  ⟨rfl, of_decide_eq_true rfl, rfl⟩

theorem subIR (src : Word) (dst : View) : Statement (.subIR src dst) :=
  ⟨rfl, of_decide_eq_true rfl, rfl⟩

theorem cmpIM (src : Word) (dst : MemOp) : Statement (.cmpIM src dst) :=
  ⟨rfl, of_decide_eq_true rfl, rfl⟩

theorem jneI (target : Word) : Statement (.jneI target) :=
  ⟨rfl, of_decide_eq_true rfl, rfl⟩

theorem jneM (target : MemOp) : Statement (.jneM target) :=
  ⟨rfl, of_decide_eq_true rfl, (List.append_nil _).symm⟩

theorem jmpI (target : Word) : Statement (.jmpI target) :=
  ⟨rfl, of_decide_eq_true rfl, rfl⟩

theorem jmpM (target : MemOp) : Statement (.jmpM target) :=
  ⟨rfl, of_decide_eq_true rfl, (List.append_nil _).symm⟩

end Sys2Proof.Laws.OperandForm
end

