-- ==== Sys2Proof/Laws/Text.lean ====
section
/-! SUPPORT. The decoder's text functions against the declarative terms of Safety: literals, splits and
trims. -/

namespace Sys2Proof.Machine

/-! ### Literals -/

/-- A digit has a value exactly when it denotes it. -/
theorem digit?_eq_some {base : Nat} (hb : base ≤ 16) (c : Byte) (d : Nat) : digit? base c = some d ↔
    IsDigit base c d := by
  have hc := c.isLt
  simp only [digit?, hexDigit?, IsDigit]
  by_cases h1 : 48 ≤ c.toNat ∧ c.toNat ≤ 57
  · simp only [if_pos h1]; split <;> simp <;> omega
  · by_cases h2 : 97 ≤ c.toNat ∧ c.toNat ≤ 102
    · simp only [if_neg h1, if_pos h2]; split <;> simp <;> omega
    · by_cases h3 : 65 ≤ c.toNat ∧ c.toNat ≤ 70
      · simp only [if_neg h1, if_neg h2, if_pos h3]; split <;> simp <;> omega
      · simp only [if_neg h1, if_neg h2, if_neg h3]; simp; omega

/-- Reading digits after a value `acc` is the fold over the digits' values. -/
theorem digitsValue_eq_some {base : Nat} (hb : base ≤ 16) (t : Text) (acc m : Nat) :
    digitsValue base acc t = some m ↔ ∃ ds, List.Forall₂ (IsDigit base) t ds ∧
        m = ds.foldl (fun a d => a * base + d) acc := by
  induction t generalizing acc with
  | nil => simp [digitsValue, eq_comm]
  | cons c cs ih =>
    simp only [digitsValue]
    constructor
    · intro h
      split at h
      next d hd =>
        obtain ⟨ds, h1, h2⟩ := (ih _).mp h
        exact ⟨d :: ds, .cons ((digit?_eq_some hb _ _).mp hd) h1, h2⟩
      · cases h
    · rintro ⟨_, h, rfl⟩
      cases h with
      | cons hd h => rw [(digit?_eq_some hb _ _).mpr hd]; exact (ih _).mpr ⟨_, h, rfl⟩

/-- `dec` and the digits of `hex`, read as the grammar says. -/
theorem parseDigits_eq_some {base : Nat} (hb : base ≤ 16) (t : Text) (m : Nat) : parseDigits base t = some m ↔ DigitsDenote base t m := by
  simp only [parseDigits, DigitsDenote]
  split
  next h => simp [h]
  next h => rw [digitsValue_eq_some hb]; simp [h]

/-- `magnitude`, read as the grammar says. -/
theorem parseMagnitude_eq_some (t : Text) (m : Nat) : parseMagnitude t = some m ↔ MagnitudeDenotes t m := by
  unfold parseMagnitude MagnitudeDenotes
  split
  next z x ds =>
    split
    next h =>
      obtain ⟨rfl, hx⟩ := h
      rw [parseDigits_eq_some (by omega)]
      constructor
      · intro h; refine .inr ⟨ds, ?_, h⟩; rcases hx with rfl | rfl <;> simp
      · rintro (⟨_, vs, h, _⟩ | ⟨_, h, h'⟩)
        · exfalso
          cases h with | cons _ h => cases h with | cons h _ =>
          obtain ⟨h1, h2⟩ := h
          rcases hx with rfl | rfl <;> simp at h2 <;> omega
        · rcases h with h | h <;> simp at h <;> rw [h.2]<;> exact h'
    next h =>
      rw [parseDigits_eq_some (by omega)]
      constructor
      · exact .inl
      · rintro (h | ⟨ds, h' | h', _⟩)
        · exact h
        · simp at h'; exact absurd ⟨h'.1, .inl h'.2.1⟩ h
        · simp at h'; exact absurd ⟨h'.1, .inr h'.2.1⟩ h
  next h =>
    rw [parseDigits_eq_some (by omega)]
    constructor
    · exact .inl
    · rintro (h' | ⟨ds, h' | h', _⟩)
      · exact h'
      · exact absurd h' (h _ _ _)
      · exact absurd h' (h _ _ _)

/-! ### Splitting and trimming -/

/-- Splitting texts joined by commas gives the texts back. -/
theorem splitCommas_intercalate {parts : List Text} (h0 : parts ≠ []) (h : ∀ p ∈ parts, 0x2c#8 ∉ p) :
    splitCommas (List.intercalate [0x2c#8] parts) = parts := by
  induction parts with
  | nil => exact absurd rfl h0
  | cons p ps ih =>
    have hp : ∀ b ∈ p, b ≠ 0x2c#8 := fun b hb e => h p (by simp) (e ▸ hb)
    cases ps with
    | nil => simp [List.intercalate, splitCommas_plain hp]
    | cons q qs =>
      have : List.intercalate [0x2c#8] (p :: q :: qs) = p ++ 0x2c#8 :: List.intercalate [0x2c#8] (q :: qs) := by
        simp [List.intercalate, List.intersperse]
      rw [this, splitCommas_comma hp, ih (by simp) fun p hp => h p (by simp [hp])]

/-- Leading blanks go. -/
theorem ltrim_blanks {a : Text} (ha : Blanks a) (r : Text) : ltrim (a ++ r) = ltrim r := by
  induction a with
  | nil => rfl
  | cons c cs ih =>
    have := ha c (by simp)
    rw [List.cons_append, ltrim, List.dropWhile_cons_of_pos (by simpa using this)]
    exact ih fun b hb => ha b (by simp [hb])

/-- A text that does not begin with a blank stays. -/
theorem ltrim_head {t : Text} (h : ∃ b, t.head? = some b ∧ isWhitespace b = false) : ltrim t = t := by
  obtain ⟨b, hb, hw⟩ := h
  cases t with
  | nil => simp at hb
  | cons c cs => simp at hb; subst hb; exact ltrim_cons hw

/-- Trailing blanks go. -/
theorem rtrim_blanks {a : Text} (ha : Blanks a) (r : Text) : rtrim (r ++ a) = rtrim r := by
  have := ltrim_blanks (a := a.reverse) (fun b hb => ha b (by simpa using hb)) r.reverse
  simp only [ltrim] at this
  simp only [rtrim, List.reverse_append, this]

/-- A text that does not end with a blank stays. -/
theorem rtrim_last {t : Text} (h : ∃ b, t.getLast? = some b ∧ isWhitespace b = false) : rtrim t = t := by
  have := ltrim_head (t := t.reverse) (by simpa using h)
  simp only [ltrim] at this
  simp [rtrim, this]

/-- Blanks alone trim to nothing. -/
theorem ltrim_nil_of_blanks {a : Text} (ha : Blanks a) : ltrim a = [] := by
  have := ltrim_blanks ha []
  simpa [ltrim] using this

/-- A text with no comma at depth 0 is not split. -/
theorem splitComma_none (t : Text) (d : Int)
    (h : ∀ p q : Text, t = p ++ 0x2c#8 :: q → d + p.count 0x28#8 ≠ p.count 0x29#8) : splitComma d t = none := by
  induction t generalizing d with
  | nil => rfl
  | cons c cs ih =>
    have tail : ∀ p q : Text, cs = p ++ 0x2c#8 :: q → c :: cs = c :: p ++ 0x2c#8 :: q := fun p q e => by simp [e]
    simp only [splitComma]
    split
    next e =>
      subst e
      refine Option.map_eq_none_iff.mpr (ih _ fun p q e => ?_)
      have := h _ _ (tail p q e)
      simp at this
      omega
    next e1 =>
      split
      next e =>
        subst e
        refine Option.map_eq_none_iff.mpr (ih _ fun p q e => ?_)
        have := h _ _ (tail p q e)
        simp at this
        omega
      next e2 =>
        split
        next e => have := h [] cs (by simp [e.1]); simp [e.2] at this
        next =>
          refine Option.map_eq_none_iff.mpr (ih _ fun p q e => ?_)
          have := h _ _ (tail p q e)
          simpa [e1, e2] using this

/-- The split is at the first comma at depth 0. -/
theorem splitComma_at (t r : Text) (d : Int)
    (h : ∀ p q : Text, t = p ++ 0x2c#8 :: q → d + p.count 0x28#8 ≠ p.count 0x29#8)
    (hb : d + t.count 0x28#8 = t.count 0x29#8) : splitComma d (t ++ 0x2c#8 :: r) = some (t, r) := by
  induction t generalizing d with
  | nil => simp at hb; simp [splitComma, hb]
  | cons c cs ih =>
    have tail : ∀ p q : Text, cs = p ++ 0x2c#8 :: q → c :: cs = c :: p ++ 0x2c#8 :: q := fun p q e => by simp [e]
    simp only [List.cons_append, splitComma]
    split
    next e =>
      subst e
      rw [ih (d + 1) ?_ (by simp at hb; omega)]
      · rfl
      · intro p q e
        have := h _ _ (tail p q e)
        simp at this
        omega
    next e1 =>
      split
      next e =>
        subst e
        rw [ih (d - 1) ?_ (by simp at hb; omega)]
        · rfl
        · intro p q e
          have := h _ _ (tail p q e)
          simp at this
          omega
      next e2 =>
        split
        next e => have := h [] cs (by simp [e.1]); simp [e.2] at this
        next =>
          rw [ih d ?_ (by simpa [e1, e2] using hb)]
          · rfl
          · intro p q e
            have := h _ _ (tail p q e)
            simpa [e1, e2] using this

end Sys2Proof.Machine
end

