-- ==== Sys2Proof/Tests/Slice0.lean ====
section
/-! SUPPORT. Tests: expected results are those of spec/95_test_vectors.md (the vector's id stands in the
comment) or of the rule cited. After them, for each statement with hypotheses, a witness that meets them. -/

namespace Sys2Proof.Tests

open Sys2Proof Sys2Proof.Machine

/-! ### Helpers -/

/-- The slot of 64 bytes that holds a text. -/
def slotOf (cs : List Char) : Text := padSlot 64 (txt cs)

/-- What the decoder answers under the default tables. -/
def dec (cs : List Char) : Except DecodeError Instr := decode defaultTables (slotOf cs)

/-- The kind and field of a decode error. -/
def decErr (cs : List Char) : Option (ErrorKind × ErrorField) :=
  match dec cs with
  | .ok _ => none
  | .error e => some (e.kind, e.field)

/-- The launch state with some registers set. -/
def regsOf (l : List (Reg × Word)) : State := l.foldl (fun s p => s.setReg p.1 p.2) State.reset

/-- The state with one slot at its pc. -/
def load (s : State) (cs : List Char) : State :=
  { s with config := { s.config with program := ⟨s.pc, [slotOf cs]⟩ } }

/-- The state with a 64-bit value in memory. -/
def poke (s : State) (p : Nat) (v : Word) : State := { s with mem := s.mem.store64 p v }

/-- The state with a code region. -/
def withCode (s : State) (r : List Nat) : State := { s with config := { s.config with codeRegion := r } }

/-- The state with all four flags set but ZF, which is as given. -/
def flagged (s : State) (zf : Bool) : State := s.setFlags ⟨true, zf, true, true⟩

/-- The outcome is a next state with the property. -/
def check (o : Result) (p : State → Bool) : Bool :=
  match o with
  | .next t => p t
  | .fault _ => false
  | .refused _ => false

/-- The kind and the virtual address of a fatal error that leaves registers, flags, pc and memory alone. -/
def errOf (s : State) : Option (ErrorKind × Option Word) :=
  match step s with
  | .fault (.fatal r t) =>
    if t.regs = s.regs ∧ t.flags = s.flags ∧ t.pc = s.pc ∧ t.mem = s.mem ∧ t.error.isSome = true then
      some (r.kind, r.vaddr)
    else none
  | .fault (.stopped _) => none
  | .next _ => none
  | .refused _ => none

def rax : View := ⟨Reg.A, .Q⟩
def rbx : View := ⟨Reg.B, .Q⟩
def rcx : View := ⟨Reg.C, .Q⟩
def rsp : View := ⟨Reg.SP, .Q⟩
def rbp : View := ⟨Reg.BP, .Q⟩

/-! ### Well-formedness refuses -/

theorem smoke_source_view : (Instr.movRR ⟨Reg.R8, .H⟩ rax).wf defaultTables = false := by decide
theorem smoke_destination_view : (Instr.popR ⟨Reg.R15, .H⟩).wf defaultTables = false := by decide
theorem smoke_base_view : (Instr.callM (.reg ⟨Reg.R9, .H⟩)).wf defaultTables = false := by decide
theorem smoke_index_view : (Instr.cmpIM 0 (.reg2S ⟨Reg.R9, .H⟩ .two)).wf defaultTables = false := by decide
theorem smoke_mnemonic : Instr.ret.wf ⟨defaultRegisters, []⟩ = false := by decide
theorem smoke_well_formed : (Instr.movRR ⟨Reg.SI, .H⟩ ⟨Reg.R15, .L⟩).wf defaultTables = true := by decide

theorem smoke_spelling_percent : Tables.spellingWf (txt ['r', 'a', 'x']) = false := by decide
theorem smoke_spelling_blank : Tables.spellingWf (txt ['%', 'r', ' ', 'x']) = false := by decide
theorem smoke_spelling_comma : Tables.spellingWf (txt ['%', 'r', ',', 'x']) = false := by decide
theorem smoke_spelling_paren : Tables.spellingWf (txt ['%', 'r', ')']) = false := by decide
theorem smoke_spelling_nul : Tables.spellingWf [0x25#8, 0#8] = false := by decide
theorem smoke_mnemonic_empty : Tables.mnemonicWf [] = false := by decide
theorem smoke_mnemonic_blank : Tables.mnemonicWf (txt ['m', ' ', 'v']) = false := by decide
theorem smoke_tables : defaultTables.wf = true := by decide +kernel
theorem smoke_tables_count : Tables.wf ⟨defaultRegisters.drop 1, defaultMnemonics⟩ = false := by decide
theorem smoke_tables_spelling :
    Tables.wf ⟨(txt ['x'], rax) :: defaultRegisters.drop 1, defaultMnemonics⟩ = false := by decide
theorem smoke_tables_twice :
    Tables.wf ⟨(txt ['%', 'r', 'b', 'x'], rax) :: defaultRegisters.drop 1, defaultMnemonics⟩ =
      false := by decide +kernel
theorem smoke_tables_mnemonic : Tables.wf ⟨defaultRegisters, [([], .MOV)]⟩ = false := by decide +kernel
theorem smoke_tables_mnemonic_twice :
    Tables.wf ⟨defaultRegisters, (txt ['m', 'o', 'v'], .ADD) :: defaultMnemonics⟩ = false := by decide +kernel

theorem smoke_program_slot : Program.wf 64 ⟨0, [[0x61#8]]⟩ = false := by decide
theorem smoke_program_wraps : Program.wf 64 ⟨0xFFFFFFFFFFFFFFC1#64, [slotOf []]⟩ = false := by decide
theorem smoke_program_end : Program.wf 64 ⟨0xFFFFFFFFFFFFFFC0#64, [slotOf []]⟩ = true := by decide
theorem smoke_config_width : Config.wf { launchConfig with slotWidth := 0 } = false := by decide
theorem smoke_config_memory : Config.wf { launchConfig with memSize := 0 } = false := by decide
theorem smoke_config_code : Config.wf { launchConfig with codeRegion := [3, 3] } = false := by decide
theorem smoke_config_program :
    Config.wf { launchConfig with program := ⟨0, [[]]⟩ } = false := by decide
theorem smoke_config_tables : Config.wf { launchConfig with tables := ⟨[], []⟩ } = false := by decide

/-! ### Decoding is right: words of 95_test_vectors.md, byte by byte -/

/-- P1, `mov %rsp, %rbp`. -/
theorem test_decode_movRR : decode defaultTables (padSlot 64 [0x6d#8, 0x6f#8, 0x76#8, 0x20#8, 0x25#8, 0x72#8,
  0x73#8, 0x70#8, 0x2c#8, 0x20#8, 0x25#8, 0x72#8, 0x62#8, 0x70#8]) =
    .ok (.movRR rsp rbp) := by decide
/-- P1, `mov %rdi, -0x18(%rbp)`. -/
theorem test_decode_movRM : decode defaultTables (padSlot 64 [0x6d#8, 0x6f#8, 0x76#8, 0x20#8, 0x25#8, 0x72#8,
  0x64#8, 0x69#8, 0x2c#8, 0x20#8, 0x2d#8, 0x30#8, 0x78#8, 0x31#8, 0x38#8, 0x28#8, 0x25#8, 0x72#8, 0x62#8,
  0x70#8, 0x29#8]) =
    .ok (.movRM ⟨Reg.DI, .Q⟩ (.immReg 0xFFFFFFFFFFFFFFE8#64 rbp)) := by decide
/-- P1, `mov -0x20(%rbp), %rax`. -/
theorem test_decode_movMR : decode defaultTables (padSlot 64 [0x6d#8, 0x6f#8, 0x76#8, 0x20#8, 0x2d#8, 0x30#8,
  0x78#8, 0x32#8, 0x30#8, 0x28#8, 0x25#8, 0x72#8, 0x62#8, 0x70#8, 0x29#8, 0x2c#8, 0x20#8, 0x25#8, 0x72#8,
  0x61#8, 0x78#8]) =
    .ok (.movMR (.immReg 0xFFFFFFFFFFFFFFE0#64 rbp) rax) := by decide
/-- P3, `mov $0x1234, %ax`. -/
theorem test_decode_movIR : decode defaultTables (padSlot 64 [0x6d#8, 0x6f#8, 0x76#8, 0x20#8, 0x24#8, 0x30#8,
  0x78#8, 0x31#8, 0x32#8, 0x33#8, 0x34#8, 0x2c#8, 0x20#8, 0x25#8, 0x61#8, 0x78#8]) =
    .ok (.movIR 0x1234#64 ⟨Reg.A, .W⟩) := by decide
/-- P3, `push %rax`. -/
theorem test_decode_pushR : decode defaultTables (padSlot 64 [0x70#8, 0x75#8, 0x73#8, 0x68#8, 0x20#8, 0x25#8,
  0x72#8, 0x61#8, 0x78#8]) = .ok (.pushR rax) := by decide
/-- P3, `pop %rcx`. -/
theorem test_decode_popR : decode defaultTables (padSlot 64 [0x70#8, 0x6f#8, 0x70#8, 0x20#8, 0x25#8, 0x72#8,
  0x63#8, 0x78#8]) = .ok (.popR rcx) := by decide
/-- P1, `leaveq`. -/
theorem test_decode_leave : decode defaultTables (padSlot 64 [0x6c#8, 0x65#8, 0x61#8, 0x76#8, 0x65#8,
  0x71#8]) = .ok .leave := by decide
/-- P1, `callq $0x400000`. -/
theorem test_decode_callI : decode defaultTables (padSlot 64 [0x63#8, 0x61#8, 0x6c#8, 0x6c#8, 0x71#8, 0x20#8,
  0x24#8, 0x30#8, 0x78#8, 0x34#8, 0x30#8, 0x30#8, 0x30#8, 0x30#8, 0x30#8]) =
    .ok (.callI 0x400000#64) := by decide
/-- L2, `callq 8(%rsp)`. -/
theorem test_decode_callM : dec ['c', 'a', 'l', 'l', 'q', ' ', '8', '(', '%', 'r', 's', 'p', ')'] =
  .ok (.callM (.immReg 8#64 rsp)) := by decide
/-- P1, `retq`. -/
theorem test_decode_ret : decode defaultTables (padSlot 64 [0x72#8, 0x65#8, 0x74#8, 0x71#8]) =
  .ok .ret := by decide
/-- P1, `add %rdx, %rax`. -/
theorem test_decode_addRR : decode defaultTables (padSlot 64 [0x61#8, 0x64#8, 0x64#8, 0x20#8, 0x25#8, 0x72#8,
  0x64#8, 0x78#8, 0x2c#8, 0x20#8, 0x25#8, 0x72#8, 0x61#8, 0x78#8]) =
    .ok (.addRR ⟨Reg.D, .Q⟩ rax) := by decide
/-- P2, `sub $1, %rcx`. -/
theorem test_decode_subIR : decode defaultTables (padSlot 64 [0x73#8, 0x75#8, 0x62#8, 0x20#8, 0x24#8, 0x31#8,
  0x2c#8, 0x20#8, 0x25#8, 0x72#8, 0x63#8, 0x78#8]) =
    .ok (.subIR 1#64 rcx) := by decide
/-- P3, `cmpq $-5, 8(%rbx)`. -/
theorem test_decode_cmpIM : decode defaultTables (padSlot 64 [0x63#8, 0x6d#8, 0x70#8, 0x71#8, 0x20#8, 0x24#8,
  0x2d#8, 0x35#8, 0x2c#8, 0x20#8, 0x38#8, 0x28#8, 0x25#8, 0x72#8, 0x62#8, 0x78#8, 0x29#8]) =
    .ok (.cmpIM 0xFFFFFFFFFFFFFFFB#64 (.immReg 8#64 rbx)) := by decide
/-- P2, `jne $0x400040`. -/
theorem test_decode_jneI : decode defaultTables (padSlot 64 [0x6a#8, 0x6e#8, 0x65#8, 0x20#8, 0x24#8, 0x30#8,
  0x78#8, 0x34#8, 0x30#8, 0x30#8, 0x30#8, 0x34#8, 0x30#8]) =
    .ok (.jneI 0x400040#64) := by decide
/-- B10, `jne 0x400100`. -/
theorem test_decode_jneM : dec ['j', 'n', 'e', ' ', '0', 'x', '4', '0', '0', '1', '0', '0'] =
  .ok (.jneM (.imm 0x400100#64)) := by decide
/-- P4, `jmp $0x4000c0`. -/
theorem test_decode_jmpI : decode defaultTables (padSlot 64 [0x6a#8, 0x6d#8, 0x70#8, 0x20#8, 0x24#8, 0x30#8,
  0x78#8, 0x34#8, 0x30#8, 0x30#8, 0x30#8, 0x63#8, 0x30#8]) =
    .ok (.jmpI 0x4000c0#64) := by decide
/-- Rules R92, R102: `jmp 0x10(%rax)`. -/
theorem test_decode_jmpM : dec ['j', 'm', 'p', ' ', '0', 'x', '1', '0', '(', '%', 'r', 'a', 'x', ')'] =
  .ok (.jmpM (.immReg 0x10#64 rax)) := by decide

/-- The nine memory tags, A1 to A9. -/
theorem test_memory_tags :
    parseOperand defaultTables (txt ['0', 'x', '2', '0', '0', '0']) = .ok (.mem (.imm 0x2000#64)) ∧
    parseOperand defaultTables (txt ['(', '%', 'r', 'a', 'x', ')']) = .ok (.mem (.reg rax)) ∧
    parseOperand defaultTables (txt ['-', '8', '(', '%', 'r', 'a', 'x', ')']) =
      .ok (.mem (.immReg 0xFFFFFFFFFFFFFFF8#64 rax)) ∧
    parseOperand defaultTables (txt ['(', '%', 'r', 'a', 'x', ',', '%', 'r', 'b', 'x', ')']) =
      .ok (.mem (.reg1Reg2 rax rbx)) ∧
    parseOperand defaultTables (txt ['8', '(', '%', 'r', 'a', 'x', ',', '%', 'r', 'b', 'x', ')']) =
      .ok (.mem (.immReg1Reg2 8#64 rax rbx)) ∧
    parseOperand defaultTables (txt ['(', ',', '%', 'r', 'b', 'x', ',', '4', ')']) =
      .ok (.mem (.reg2S rbx .four)) ∧
    parseOperand defaultTables (txt ['0', 'x', '1', '0', '0', '(', ',', '%', 'r', 'b', 'x', ',', '8', ')']) =
      .ok (.mem (.immReg2S 0x100#64 rbx .eight)) ∧
    parseOperand defaultTables (txt ['(', '%', 'r', 'a', 'x', ',', '%', 'r', 'b', 'x', ',', '2', ')']) =
      .ok (.mem (.reg1Reg2S rax rbx .two)) ∧
    parseOperand defaultTables (txt ['-', '4', '(', '%', 'r', 'a', 'x', ',', '%', 'r', 'b', 'x', ',', '8', ')']) =
      .ok (.mem (.immReg1Reg2S 0xFFFFFFFFFFFFFFFC#64 rax rbx .eight)) := by decide

/-- E3, E4: the mnemonic. -/
theorem test_unknown_opcode :
    decErr ['M', 'O', 'V', ' ', '%', 'r', 'a', 'x', ',', ' ', '%', 'r', 'b', 'x'] = some (.unknownOpcode,
      .mnemonic) ∧ decErr [] = some (.unknownOpcode, .mnemonic) ∧
    decErr [' ', ' ', ' ', ' '] = some (.unknownOpcode, .mnemonic) := by decide

/-- E1, E2, E11, E18: the operand text checks. -/
theorem test_text_checks :
    decErr ['m', 'o', 'v', ' ', '(', '%', 'r', 'a', 'x', ',', ' ', '%', 'r', 'b', 'x', ')', ',', ' ', '%', 'r',
      'c', 'x'] = some (.malformedOperand, .src) ∧
    decErr ['m', 'o', 'v', ' ', '%', 'r', 'a', 'x', ' ', '%', 'r', 'b', 'x'] = some (.malformedOperand, .src) ∧
    decErr ['m', 'o', 'v', ' ', '(', '%', 'r', 'a', 'x', ',', '%', 'r', 'b', 'x', ',', '3', ',', ' ', '%', 'r',
      'c', 'x'] = some (.malformedOperand, .src) ∧
    decErr ['m', 'o', 'v', ' ', ',', ' ', '%', 'r', 'a', 'x'] = some (.malformedOperand, .src) ∧
    decErr ['m', 'o', 'v', ' ', '%', 'r', 'a', 'x', ','] = some (.malformedOperand, .dst) := by decide

/-- E5, E6, E7, E8, E17, E21: literals. -/
theorem test_literals :
    dec ['m', 'o', 'v', ' ', '$', '1', '8', '4', '4', '6', '7', '4', '4', '0', '7', '3', '7', '0', '9', '5',
      '5', '1', '6', '1', '5', ',', ' ', '%', 'r', 'a', 'x'] = .ok (.movIR 0xFFFFFFFFFFFFFFFF#64 rax) ∧
    decErr ['m', 'o', 'v', ' ', '$', '1', '8', '4', '4', '6', '7', '4', '4', '0', '7', '3', '7', '0', '9', '5',
      '5', '1', '6', '1', '6', ',', ' ', '%', 'r', 'a', 'x'] = some (.malformedOperand, .src) ∧
    dec ['m', 'o', 'v', ' ', '$', '-', '9', '2', '2', '3', '3', '7', '2', '0', '3', '6', '8', '5', '4', '7',
      '7', '5', '8', '0', '8', ',', ' ', '%', 'r', 'a', 'x'] = .ok (.movIR 0x8000000000000000#64 rax) ∧
    decErr ['m', 'o', 'v', ' ', '$', '-', '9', '2', '2', '3', '3', '7', '2', '0', '3', '6', '8', '5', '4', '7',
      '7', '5', '8', '0', '9', ',', ' ', '%', 'r', 'a', 'x'] = some (.malformedOperand, .src) ∧
    decErr ['m', 'o', 'v', ' ', '$', ',', ' ', '%', 'r', 'a', 'x'] = some (.malformedOperand, .src) ∧
      decErr ['m', 'o', 'v', ' ', '$', '0', 'x', ',', ' ', '%', 'r', 'a', 'x'] = some (.malformedOperand, .src) ∧
    decErr ['m', 'o', 'v', ' ', '$', '+', '1', ',', ' ', '%', 'r', 'a', 'x'] = some (.malformedOperand, .src) ∧
      dec ['m', 'o', 'v', ' ', '$', '0', '1', '0', ',', ' ', '%', 'r', 'a', 'x'] = .ok (.movIR 10#64 rax) := by
  decide

/-- S6, E9, E10, E14, E15, E16: scales and shapes. -/
theorem test_memory_errors :
    dec ['m', 'o', 'v', ' ', '4', '(', '%', 'r', 'a', 'x', ',', '%', 'r', 'b', 'x', ',', '3', ')', ',', ' ',
      '%', 'r', 'c', 'x'] = .error ⟨.illegalScale, .src, txt ['3']⟩ ∧
    decErr ['m', 'o', 'v', ' ', '(', '%', 'r', 'a', 'x', ',', '%', 'r', 'b', 'x', ',', '0', 'x', '8', ')', ',',
      ' ', '%', 'r', 'c', 'x'] = some (.malformedOperand, .src) ∧
    decErr ['m', 'o', 'v', ' ', '(', '%', 'r', 'a', 'x', ',', '%', 'r', 'b', 'x', ',', '1', '6', ')', ',', ' ',
      '%', 'r', 'a', 'x'] = some (.illegalScale, .src) ∧
    decErr ['m', 'o', 'v', ' ', '(', ',', '%', 'r', 'b', 'x', ')', ',', ' ', '%', 'r', 'a', 'x'] =
      some (.malformedOperand, .src) ∧
    decErr ['m', 'o', 'v', ' ', '(', '%', 'r', 'a', 'x', ',', ',', '2', ')', ',', ' ', '%', 'r', 'a', 'x'] =
      some (.malformedOperand, .src) ∧
    decErr ['m', 'o', 'v', ' ', '(', 'r', 'a', 'x', ')', ',', ' ', '%', 'r', 'b', 'x'] =
      some (.malformedOperand, .src) := by decide

/-- V10, E12, E13: register names, and the source before the destination. -/
theorem test_error_order :
    dec ['m', 'o', 'v', ' ', '%', 'r', '8', 'h', ',', ' ', '%', 'r', 'a', 'x'] = .error ⟨.unknownRegisterName,
      .src, txt ['%', 'r', '8', 'h']⟩ ∧
    decErr ['m', 'o', 'v', ' ', '(', '%', 'r', 'a', 'x', ',', '%', 'r', 'b', 'x', ',', '3', ')', ',', ' ', '%',
      'x', 'y', 'z'] = some (.illegalScale, .src) ∧
    decErr ['m', 'o', 'v', ' ', '%', 'x', 'y', 'z', ',', ' ', '(', '%', 'r', 'a', 'x', ',', '%', 'r', 'b', 'x',
      ',', '3', ')'] = some (.unknownRegisterName, .src) := by decide

/-- E22 to E27: forms that are not admitted. -/
theorem test_forms :
    decErr ['s', 'u', 'b', ' ', '%', 'r', 'a', 'x', ',', ' ', '%', 'r', 'b', 'x'] =
      some (.unsupportedOperandForm, .form) ∧
    decErr ['c', 'm', 'p', 'q', ' ', '$', '1', ',', ' ', '%', 'r', 'a', 'x'] = some (.unsupportedOperandForm,
      .form) ∧
    decErr ['m', 'o', 'v', ' ', '$', '1', ',', ' ', '(', '%', 'r', 'a', 'x', ')'] =
      some (.unsupportedOperandForm, .form) ∧
    decErr ['p', 'u', 's', 'h'] = some (.unsupportedOperandForm, .form) ∧ decErr ['r', 'e', 't', 'q', ' ', '$',
      '8'] = some (.unsupportedOperandForm, .form) ∧
    decErr ['j', 'm', 'p', ' ', '%', 'r', 'a', 'x'] = some (.unsupportedOperandForm, .form) ∧
    decErr ['c', 'a', 'l', 'l', 'q', ' ', '%', 'r', 'a', 'x'] = some (.unsupportedOperandForm, .form) := by decide

/-- P5: the text of the error, and its code. -/
theorem test_form_error : dec ['a', 'd', 'd', ' ', '$', '1', ',', ' ', '%', 'r', 'a', 'x'] =
  .error ⟨.unsupportedOperandForm, .form, txt ['a', 'd', 'd', ' ', '$', '1', ',', ' ', '%', 'r', 'a', 'x']⟩ ∧
    errorCode .unsupportedOperandForm = 4 := by decide

/-- E19, E20: tabs and trailing spaces. -/
theorem test_whitespace : dec ['m', 'o', 'v', '\t', '$', '1', ',', '\t', '%', 'r', 'a', 'x'] =
  .ok (.movIR 1#64 rax) ∧ dec ['a', 'd', 'd', ' ', '%', 'r', 'b', 'x', ',', ' ', '%', 'r', 'a', 'x', ' ', ' ',
  ' '] = .ok (.addRR rbx rax) := by
  decide

/-- Character i of the text is byte i of the slot: `retq` as the host's number. -/
theorem test_decodeTableWord : decodeTableWord 32 0x71746572 = some .ret := by decide

/-! ### Registers and operands -/

/-- V1, V2, V7, V9: views of 0x1122334455667788, 0x0102030405060708, 0xABCD. -/
theorem test_view_read :
    viewRead .Q 0x1122334455667788#64 = 0x1122334455667788#64 ∧ viewRead .D 0x1122334455667788#64 =
      0x55667788#64 ∧
    viewRead .W 0x1122334455667788#64 = 0x7788#64 ∧ viewRead .L 0x1122334455667788#64 = 0x88#64 ∧
    viewRead .H 0x1122334455667788#64 = 0x77#64 := by decide

/-- V3 to V6: writes through views. -/
theorem test_view_write :
    viewWrite .D 0x1122334455667788#64 0xAABBCCDD#64 = 0x11223344AABBCCDD#64 ∧
    viewWrite .W 0x1122334455667788#64 0xBEEF#64 = 0x112233445566BEEF#64 ∧
    viewWrite .L 0x1122334455667788#64 0x1FF#64 = 0x11223344556677FF#64 ∧
    viewWrite .H 0x1122334455667788#64 0xEE#64 = 0x112233445566EE88#64 := by decide

/-- A6, A9, A10: scaled, full and wrapping addresses. -/
theorem test_effective_address :
    (regsOf [(Reg.A, 0x1000#64), (Reg.B, 0x10#64)]).effectiveAddress (.reg2S rbx .four) = 0x40#64 ∧
    (regsOf [(Reg.A, 0x1000#64), (Reg.B, 0x10#64)]).effectiveAddress
      (.immReg1Reg2S 0xFFFFFFFFFFFFFFFC#64 rax rbx .eight) = 0x107C#64 ∧
    (regsOf []).effectiveAddress (.immReg 0xFFFFFFFFFFFFFFF8#64 rcx) = 0xFFFFFFFFFFFFFFF8#64 := by decide

/-- A11, A12, A13: a product that wraps, a byte-1 base and a 32-bit base. -/
theorem test_effective_address_views :
    (regsOf [(Reg.A, 0x1000#64), (Reg.D, 0x2000000000000000#64)]).effectiveAddress
      (.reg1Reg2S rax ⟨Reg.D, .Q⟩ .eight) = 0x1000#64 ∧
    (regsOf [(Reg.A, 0x1234#64)]).effectiveAddress (.reg ⟨Reg.A, .H⟩) = 0x12#64 ∧
    (regsOf [(Reg.A, 0xFFFFFFFF00001000#64)]).effectiveAddress (.reg ⟨Reg.A, .D⟩) = 0x1000#64 := by decide

/-! ### One step -/

/-- M1. -/
theorem test_movRR_views : check (step (load (regsOf [(Reg.A, 0x1122334455667788#64)]) ['m', 'o', 'v', ' ',
  '%', 'a', 'h', ',', ' ', '%', 'b', 'l'])) (fun t =>
    t.reg Reg.B == 0x77#64 && t.flags == Flags.zero && t.pc == 0x400040#64) = true := by decide
/-- M9. -/
theorem test_movRR_flags : check (step (load (flagged (regsOf []) true) ['m', 'o', 'v', ' ', '%', 'r', 'a',
  'x', ',', ' ', '%', 'r', 'a', 'x'])) (fun t =>
    t.regs == State.reset.regs && t.flags == Flags.zero && t.pc == 0x400040#64) = true := by decide
/-- M7. -/
theorem test_movRM_narrow :
    check (step (load (poke (regsOf [(Reg.A, 0x1122334455667788#64), (Reg.B, 0x100#64)]) 0x100 (~~~0#64))
      ['m', 'o', 'v', ' ', '%', 'a', 'l', ',', ' ', '(', '%', 'r', 'b', 'x', ')'])) (fun t => t.mem == [(0x100,
        0x88#8)]) = true := by decide
/-- M12. -/
theorem test_movRM_code : errOf (load (withCode State.reset [0x17]) ['m', 'o', 'v', ' ', '%', 'r', 'a', 'x',
  ',', ' ', '0', 'x', '1', '0']) =
    some (.storeToCode, some 0x10#64) := by decide
/-- M6. -/
theorem test_movMR_base : check (step (load (poke (regsOf [(Reg.A, 0x100#64)]) 0x100 0xDEAD#64) ['m', 'o', 'v',
  ' ', '(', '%', 'r', 'a', 'x', ')', ',', ' ', '%', 'r', 'a', 'x'])) (fun t =>
    t.reg Reg.A == 0xDEAD#64) = true := by decide
/-- M8. -/
theorem test_movMR_narrow :
    check (step (load (poke (regsOf [(Reg.A, 0x1122334455667788#64), (Reg.B,
      0x100#64)]) 0x100 0x0807060504030201#64)
      ['m', 'o', 'v', ' ', '(', '%', 'r', 'b', 'x', ')', ',', ' ', '%', 'a',
        'x'])) (fun t => t.reg Reg.A == 0x1122334455660201#64) = true := by decide
/-- M4. -/
theorem test_movIR_narrow : check (step (load (regsOf []) ['m', 'o', 'v', ' ', '$', '-', '1', ',', ' ', '%',
  'e', 'a', 'x'])) (fun t =>
    t.reg Reg.A == 0xFFFFFFFF#64 && t.pc == 0x400040#64) = true := by decide
/-- M5. -/
theorem test_movIR_truncates : check (step (load (regsOf []) ['m', 'o', 'v', ' ', '$', '0', 'x', '1', '2', '3',
  '4', ',', ' ', '%', 'a', 'l'])) (fun t =>
    t.reg Reg.A == 0x34#64) = true := by decide
/-- K1. -/
theorem test_pushR : check (step (load (regsOf [(Reg.BP, 0x7777#64)]) ['p', 'u', 's', 'h', ' ', '%', 'r', 'b',
  'p'])) (fun t =>
    t.reg Reg.SP == 0x7FF8#64 && t.mem == [(0x7FF8, 0x77#8), (0x7FF9, 0x77#8)] && t.flags == Flags.zero) =
      true := by
  decide
/-- K6. -/
theorem test_pushR_wraps : errOf (load (regsOf [(Reg.SP, 4#64)]) ['p', 'u', 's', 'h', ' ', '%', 'r', 'a', 'x']) =
    some (.memoryOutOfRange, some 0xFFFFFFFFFFFFFFFC#64) := by decide
/-- K3. -/
theorem test_popR_sp : check (step (load (poke (regsOf [(Reg.SP,
  0x7FF8#64)]) 0x7FF8 0x1122334455667788#64) ['p', 'o', 'p', ' ', '%', 'r', 's', 'p'])) (fun t =>
    t.reg Reg.SP == 0x1122334455667788#64) = true := by decide
/-- K4. -/
theorem test_popR_esp : check (step (load (poke (regsOf [(Reg.SP,
  0x7FF8#64)]) 0x7FF8 0x1122334455667788#64) ['p', 'o', 'p', ' ', '%', 'e', 's', 'p'])) (fun t =>
    t.reg Reg.SP == 0x55667788#64) = true := by decide
/-- K8. -/
theorem test_leave :
    check (step (load (poke (regsOf [(Reg.BP, 0x7FF0#64), (Reg.SP, 0x7FD0#64)]) 0x7FF0 0x7777#64) ['l', 'e',
      'a', 'v', 'e', 'q'])) (fun t =>
      t.reg Reg.SP == 0x7FF8#64 && t.reg Reg.BP == 0x7777#64 && t.pc == 0x400040#64) = true := by decide
/-- K9. -/
theorem test_leave_out_of_range : errOf (load (regsOf [(Reg.BP, 0xFFFC#64), (Reg.SP, 0x7FD0#64)]) ['l', 'e',
  'a', 'v', 'e', 'q']) =
    some (.memoryOutOfRange, some 0xFFFC#64) := by decide
/-- L1. -/
theorem test_callI : check (step (load ((regsOf []).setPc 0x4002C0#64) ['c', 'a', 'l', 'l', 'q', ' ', '$', '0',
  'x', '4', '0', '0', '0', '0', '0'])) (fun t =>
    t.reg Reg.SP == 0x7FF8#64 && t.mem.load64 0x7FF8 == 0x400300#64 && t.pc == 0x400000#64) = true := by decide
/-- L2. -/
theorem test_callM : check (step (load (regsOf []) ['c', 'a', 'l', 'l', 'q', ' ', '8', '(', '%', 'r', 's', 'p',
  ')'])) (fun t =>
    t.reg Reg.SP == 0x7FF8#64 && t.mem.load64 0x7FF8 == 0x400040#64 && t.pc == 0x8008#64) = true := by decide
/-- L3. -/
theorem test_ret : check (step (load (poke (regsOf [(Reg.SP, 0x7FF8#64)]) 0x7FF8 0x400300#64) ['r', 'e', 't',
  'q'])) (fun t =>
    t.reg Reg.SP == 0x8000#64 && t.pc == 0x400300#64) = true := by decide
/-- S7: RAX = 5, RBX = 3. -/
theorem test_addRR : check (step (load (regsOf [(Reg.A, 5#64), (Reg.B, 3#64)]) ['a', 'd', 'd', ' ', '%', 'r',
  'b', 'x', ',', ' ', '%', 'r', 'a', 'x'])) (fun t =>
    t.reg Reg.A == 8#64 && t.reg Reg.B == 3#64 && t.flags == Flags.zero && t.pc == 0x400040#64) =
      true := by decide
/-- A-I3. -/
theorem test_addRR_narrow : check (step (load (regsOf [(Reg.A, 0xFF#64), (Reg.B, 1#64)]) ['a', 'd', 'd', ' ',
  '%', 'b', 'l', ',', ' ', '%', 'a', 'l'])) (fun t =>
    t.reg Reg.A == 0#64 && t.flags == Flags.zero) = true := by decide
/-- A-A2 to A-A5, A-A7, A-A8: the flags CF, ZF, SF, OF of an addition. -/
theorem test_aluAdd :
    aluAdd 0x7FFFFFFFFFFFFFFF#64 1#64 = ⟨0x8000000000000000#64, ⟨false, false, true, true⟩⟩ ∧
    aluAdd 0xFFFFFFFFFFFFFFFF#64 1#64 = ⟨0#64, ⟨true, true, false, false⟩⟩ ∧
    aluAdd 0x8000000000000000#64 0x8000000000000000#64 = ⟨0#64, ⟨true, true, false, true⟩⟩ ∧
    aluAdd 0xFFFFFFFFFFFFFFFF#64 0xFFFFFFFFFFFFFFFF#64 = ⟨0xFFFFFFFFFFFFFFFE#64, ⟨true, false, true, false⟩⟩ ∧
    aluAdd 0x8000000000000000#64 0x7FFFFFFFFFFFFFFF#64 = ⟨0xFFFFFFFFFFFFFFFF#64, ⟨false, false, true, false⟩⟩ ∧
    aluAdd 1#64 0xFFFFFFFFFFFFFFFF#64 = ⟨0#64, ⟨true, true, false, false⟩⟩ := by decide
/-- A-S4 to A-S9: the flags CF, ZF, SF, OF of a subtraction; A-S7 is the vector of conflict C2. -/
theorem test_aluSub :
    aluSub 0#64 0x8000000000000000#64 = ⟨0x8000000000000000#64, ⟨true, false, true, true⟩⟩ ∧
    aluSub 0x8000000000000000#64 1#64 = ⟨0x7FFFFFFFFFFFFFFF#64, ⟨false, false, false, true⟩⟩ ∧
    aluSub 0#64 0xFFFFFFFFFFFFFFFF#64 = ⟨1#64, ⟨true, false, false, false⟩⟩ ∧
    aluSub 0xFFFFFFFFFFFFFFFF#64 0x8000000000000000#64 = ⟨0x7FFFFFFFFFFFFFFF#64, ⟨false, false, false, false⟩⟩ ∧
    aluSub 0x7FFFFFFFFFFFFFFF#64 0xFFFFFFFFFFFFFFFF#64 = ⟨0x8000000000000000#64, ⟨true, false, true, true⟩⟩ ∧
    aluSub 0x8000000000000000#64 0x7FFFFFFFFFFFFFFF#64 = ⟨1#64, ⟨false, false, false, true⟩⟩ := by decide
/-- A-I1. -/
theorem test_subIR : check (step (load (regsOf [(Reg.A, 3#64)]) ['s', 'u', 'b', ' ', '$', '5', ',', ' ', '%',
  'r', 'a', 'x'])) (fun t =>
    t.reg Reg.A == 0xFFFFFFFFFFFFFFFE#64 && t.flags == ⟨true, false, true, false⟩) = true := by decide
/-- A-I4. -/
theorem test_subIR_narrow : check (step (load (regsOf [(Reg.A, 0xAAAAAAAA00000000#64)]) ['s', 'u', 'b', ' ',
  '$', '1', ',', ' ', '%', 'e', 'a', 'x'])) (fun t =>
    t.reg Reg.A == 0xAAAAAAAAFFFFFFFF#64 && t.flags == ⟨true, false, true, false⟩) = true := by decide
/-- A-I8. -/
theorem test_cmpIM : check (step (load (poke (regsOf [(Reg.B, 0x100#64)]) 0x100 7#64) ['c', 'm', 'p', 'q', ' ',
  '$', '-', '1', ',', ' ', '(', '%', 'r', 'b', 'x', ')'])) (fun t =>
    t.flags == ⟨true, false, false, false⟩ && t.mem == [(0x100, 7#8)] && t.reg Reg.B == 0x100#64) =
      true := by decide
/-- A-I9. -/
theorem test_cmpIM_out_of_range : errOf (load (flagged (regsOf [(Reg.B, 0xFFFC#64)]) true) ['c', 'm', 'p', 'q',
  ' ', '$', '0', ',', ' ', '(', '%', 'r', 'b', 'x', ')']) =
    some (.memoryOutOfRange, some 0xFFFC#64) := by decide
/-- B1, B2. -/
theorem test_jneI :
    check (step (load (flagged State.reset false) ['j', 'n', 'e', ' ', '$', '0', 'x', '4', '0', '0', '1', '0',
      '0'])) (fun t =>
      t.pc == 0x400100#64 && t.flags == Flags.zero) = true ∧
    check (step (load (flagged State.reset true) ['j', 'n', 'e', ' ', '$', '0', 'x', '4', '0', '0', '1', '0',
      '0'])) (fun t =>
      t.pc == 0x400040#64 && t.flags == Flags.zero) = true := by decide
/-- B9. -/
theorem test_jneM : check (step (load (flagged (regsOf [(Reg.A, 0x400000#64)]) false) ['j', 'n', 'e', ' ', '0',
  'x', '1', '0', '(', '%', 'r', 'a', 'x', ')'])) (fun t =>
    t.pc == 0x400010#64) = true := by decide
/-- B4, B6, B8. -/
theorem test_jmpI :
    check (step (load ((flagged State.reset true).withJmp .unconditional) ['j', 'm', 'p', ' ', '$', '0', 'x',
      '4', '0', '0', '1', '0', '0'])) (fun t =>
      t.pc == 0x400100#64 && t.flags == Flags.zero) = true ∧
    check (step (load ((flagged State.reset true).withJmp .guardedStay) ['j', 'm', 'p', ' ', '$', '0', 'x',
      '4', '0', '0', '1', '0', '0'])) (fun t =>
      t.pc == 0x400000#64 && t.flags == Flags.zero) = true ∧
    check (step (load ((flagged State.reset true).withJmp .guardedFallthrough) ['j', 'm', 'p', ' ', '$', '0',
      'x', '4', '0', '0', '1', '0', '0'])) (fun t =>
      t.pc == 0x400040#64 && t.flags == Flags.zero) = true := by decide
/-- B5 in the memory form. -/
theorem test_jmpM : check (step (load (flagged State.reset false) ['j', 'm', 'p', ' ', '0', 'x', '4', '0', '0',
  '1', '0', '0'])) (fun t =>
    t.pc == 0x400100#64) = true := by decide

/-! ### Fetch, launch and end -/

/-- E28, E29: a pc inside a slot, and one just past the last slot. -/
theorem test_fetch_out_of_stream :
    errOf ({ load State.reset ['r', 'e', 't', 'q'] with pc := 0x400020#64 }) = some (.fetchOutOfStream, none) ∧
    errOf ({ load State.reset ['r', 'e', 't', 'q'] with pc := 0x400040#64 }) = some (.fetchOutOfStream,
      none) := by decide

/-- The launch state: RSP = 0x8000 and the rest of 95_test_vectors.md's launch values (log entry 1). -/
theorem test_reset : State.reset.reg Reg.SP = 0x8000#64 ∧ State.reset.reg Reg.A = 0#64 ∧
    State.reset.pc = 0x400000#64 ∧ State.reset.mem = [] ∧ State.reset.error = none := by decide

/-- A final state executes nothing (70_reset_and_hazards.md rule R246). -/
theorem test_final : step { State.reset with pc := 0#64 } =
  .refused (.final { State.reset with pc := 0#64 }) := rfl

/-- The host's load of one word: `retq` runs as the very next step (95_test_vectors.md L3). -/
theorem test_withFetchWord :
    check (step ((poke (regsOf [(Reg.SP, 0x7FF8#64)]) 0x7FF8 0x400300#64).withFetchWord 32 0x71746572)) (fun t =>
      t.pc == 0x400300#64) = true := by decide

/-- Each memory translation of 20_memory.md rule R52 that is named there. -/
theorem test_translate : translateBy .identity 0x12345#64 = 0x12345 ∧
  translateBy (.modulo 0x10000) 0x12345#64 = 0x2345 ∧
    translateBy (.mask 8) 0x12345#64 = 0x45 := by decide

/-! ### Witnesses: states and operands that meet the hypotheses of each statement -/

/-- A view spelled by the default table, a memory operand with every field, and a slot they fit in. -/
theorem witness_DecodeOfEncode : defaultTables.wf = true ∧
    (Instr.movMR (.immReg1Reg2S 0xFFFFFFFFFFFFFFFF#64 rbp ⟨Reg.R15, .L⟩ .eight) ⟨Reg.SI,
      .H⟩).wf defaultTables = true ∧
    (encode defaultTables
      (.movMR (.immReg1Reg2S 0xFFFFFFFFFFFFFFFF#64 rbp ⟨Reg.R15, .L⟩ .eight) ⟨Reg.SI, .H⟩)).length ≤ 64 :=
  ⟨smoke_tables, by decide, by decide⟩

/-- A text with no comma at depth 0, checked at each comma. -/
theorem noOuterComma_of_take {t : Text}
    (h : ∀ n, n < t.length → t[n]? = some 0x2c#8 → (t.take n).count 0x28#8 ≠ (t.take n).count 0x29#8) :
    NoOuterComma t := by
  rintro p q rfl
  have := h p.length (by simp) (by simp)
  simpa using this

theorem witness_TokeniserFields_blanks : Blanks (txt [' ']) ∧ Blanks (txt ['\t', ' ']) ∧ txt ['\t', ' '] ≠ [] ∧
    txt ['m', 'o', 'v'] ≠ [] ∧ ∀ b ∈ txt ['m', 'o', 'v'], isWhitespace b = false := by decide

theorem witness_TokeniserFields_operands : Trimmed (txt ['(', '%', 'r', 'a', 'x', ',', '%', 'r', 'b', 'x', ',',
  '8', ')']) ∧ NoOuterComma (txt ['(', '%', 'r', 'a', 'x', ',', '%', 'r', 'b', 'x', ',', '8', ')']) ∧
    (txt ['(', '%', 'r', 'a', 'x', ',', '%', 'r', 'b', 'x', ',', '8', ')']).count 0x28#8 = (txt ['(', '%', 'r',
      'a', 'x', ',', '%', 'r', 'b', 'x', ',', '8', ')']).count 0x29#8 ∧ Trimmed (txt ['%', 'r', 'c', 'x']) :=
  ⟨⟨⟨_, rfl, by decide⟩, ⟨_, rfl, by decide⟩⟩, noOuterComma_of_take (by decide), by decide,
    ⟨⟨_, rfl, by decide⟩, ⟨_, rfl, by decide⟩⟩⟩

/-- A source whose parentheses do not balance, for the clause with no comma outside (E11). -/
theorem witness_TokeniserFields_unbalanced : Trimmed (txt ['(', '%', 'r', 'a', 'x', ',', '3']) ∧
  NoOuterComma (txt ['(', '%', 'r', 'a', 'x', ',', '3']) :=
  ⟨⟨⟨_, rfl, by decide⟩, ⟨_, rfl, by decide⟩⟩, noOuterComma_of_take (by decide)⟩

/-- A source and a destination that are empty: nothing stands before, or after, the comma (E18). -/
theorem witness_TokeniserFields_emptySides : NoOuterComma [] ∧
    ([] : Text).count 0x28#8 = ([] : Text).count 0x29#8 ∧ Trimmed (txt ['%', 'r', 'a', 'x']) ∧
      NoOuterComma (txt ['%', 'r', 'a', 'x']) ∧
    (txt ['%', 'r', 'a', 'x']).count 0x28#8 = (txt ['%', 'r', 'a', 'x']).count 0x29#8 :=
  ⟨noOuterComma_of_take (by decide), rfl, ⟨⟨_, rfl, by decide⟩, ⟨_, rfl, by decide⟩⟩,
    noOuterComma_of_take (by decide), by decide⟩

theorem witness_UnknownMnemonicRejected :
    (∀ e ∈ defaultTables.mnemonics, e.1 ≠ (tokenise (slotText (slotOf ['M', 'O', 'V', ' ', '%', 'r', 'a', 'x',
      ',', ' ', '%', 'r', 'b', 'x']))).mnemonic) ∧
    (∀ e ∈ defaultTables.mnemonics, e.1 ≠ []) ∧ (∀ b ∈ slotText (slotOf [' ', ' ', ' ']), isWhitespace b = true) ∧
    ∀ b ∈ slotText (slotOf []), isWhitespace b = true := by decide

/-- The tokens of a text. -/
def tok (cs : List Char) : Tokens := tokenise (slotText (slotOf cs))

theorem witness_OperandTextChecks :
    (lookup (tok ['m', 'o', 'v', ' ', ',', ' ', '%', 'r', 'a', 'x']).mnemonic defaultTables.mnemonics =
      some .MOV ∧ (tok ['m', 'o', 'v', ' ', ',', ' ', '%', 'r', 'a', 'x']).hasComma = true ∧
      (tok ['m', 'o', 'v', ' ', ',', ' ', '%', 'r', 'a', 'x']).src = []) ∧
    (lookup (tok ['m', 'o', 'v', ' ', '%', 'r', 'a', 'x', ',']).mnemonic defaultTables.mnemonics = some .MOV ∧
      (tok ['m', 'o', 'v', ' ', '%', 'r', 'a', 'x', ',']).hasComma = true ∧
      (tok ['m', 'o', 'v', ' ', '%', 'r', 'a', 'x', ',']).src ≠ [] ∧ (tok ['m', 'o', 'v', ' ', '%', 'r', 'a',
        'x', ',']).dst = []) ∧
    (lookup (tok ['m', 'o', 'v', ' ', '%', 'r', 'a', 'x', ' ', '%', 'r', 'b',
      'x']).mnemonic defaultTables.mnemonics = some .MOV ∧
      (tok ['m', 'o', 'v', ' ', '%', 'r', 'a', 'x', ' ', '%', 'r', 'b', 'x']).hasComma = false ∧
        ∃ b ∈ (tok ['m', 'o', 'v', ' ', '%', 'r', 'a', 'x', ' ', '%', 'r', 'b', 'x']).src, isWhitespace b =
        true) ∧
    (lookup (tok ['m', 'o', 'v', ' ', '%', 'r', 'a', 'x', ',', ' ', '%', 'r', 'b', 'x', ' ',
      'x']).mnemonic defaultTables.mnemonics = some .MOV ∧
      (tok ['m', 'o', 'v', ' ', '%', 'r', 'a', 'x', ',', ' ', '%', 'r', 'b', 'x', ' ', 'x']).src ≠ [] ∧
        (tok ['m', 'o', 'v', ' ', '%', 'r', 'a', 'x', ',', ' ', '%', 'r', 'b', 'x', ' ', 'x']).dst ≠ [] ∧
      (∀ b ∈ (tok ['m', 'o', 'v', ' ', '%', 'r', 'a', 'x', ',', ' ', '%', 'r', 'b', 'x', ' ', 'x']).src,
        isWhitespace b = false) ∧
      ∃ b ∈ (tok ['m', 'o', 'v', ' ', '%', 'r', 'a', 'x', ',', ' ', '%', 'r', 'b', 'x', ' ', 'x']).dst,
        isWhitespace b = true) ∧
    (lookup (tok ['r', 'e', 't', 'q']).mnemonic defaultTables.mnemonics = some .RET ∧ (tok ['r', 'e', 't',
      'q']).hasComma = false ∧
      (tok ['r', 'e', 't', 'q']).src = []) := by decide

/-- Magnitudes through the reader, for texts whose value the reader gives. -/
theorem mag_of {t : Text} {m : Nat} (h : parseMagnitude t = some m) : MagnitudeDenotes t m :=
  (parseMagnitude_eq_some t m).mp h

/-- The greatest literal, the least, and a hexadecimal one. -/
theorem witness_LiteralGrammar_denotes :
    LitDenotes (txt ['1', '8', '4', '4', '6', '7', '4', '4', '0', '7', '3', '7', '0', '9', '5', '5', '1', '6',
      '1', '5']) 0xFFFFFFFFFFFFFFFF#64 ∧
    LitDenotes (txt ['-', '9', '2', '2', '3', '3', '7', '2', '0', '3', '6', '8', '5', '4', '7', '7', '5', '8',
      '0', '8']) 0x8000000000000000#64 ∧ LitDenotes (txt ['0', 'X', 'f', 'F']) 0xFF#64 ∧
    txt ['0', 'X', 'f', 'F'] ≠ [] :=
  ⟨.inl ⟨18446744073709551615, mag_of (by decide), by decide, by decide⟩,
    .inr ⟨txt ['9', '2', '2', '3', '3', '7', '2', '0', '3', '6', '8', '5', '4', '7', '7', '5', '8', '0', '8'],
      9223372036854775808, rfl, mag_of (by decide), by decide, by decide⟩,
    .inl ⟨255, mag_of (by decide), by decide, by decide⟩, by decide⟩

/-- A text with no sign whose magnitude is too great, or that is no magnitude, is no literal. -/
theorem not_lit {c : Byte} {cs : Text} (hc : c ≠ 0x2d#8)
    (h : ∀ m, parseMagnitude (c :: cs) = some m → 2 ^ 64 ≤ m) : ∀ w, ¬ LitDenotes (c :: cs) w := by
  rintro w (⟨m, hm, hle, -⟩ | ⟨u, m, he, -⟩)
  · have := h m ((parseMagnitude_eq_some _ _).mpr hm)
    omega
  · exact hc (List.cons.inj he).1

/-- The same after a `-`. -/
theorem not_neg_lit {cs : Text} (h0 : parseMagnitude (0x2d#8 :: cs) = none)
    (h : ∀ m, parseMagnitude cs = some m → 2 ^ 63 < m) : ∀ w, ¬ LitDenotes (0x2d#8 :: cs) w := by
  rintro w (⟨m, hm, -⟩ | ⟨u, m, he, hm, hle, -⟩)
  · rw [(parseMagnitude_eq_some _ _).mpr hm] at h0
    exact absurd h0 (by simp)
  · have := h m ((parseMagnitude_eq_some _ _).mpr ((List.cons.inj he).2 ▸ hm))
    omega

/-- One past the greatest, one past the least, and no digits. -/
theorem witness_LiteralGrammar_rejects :
    (∀ w, ¬ LitDenotes (txt ['1', '8', '4', '4', '6', '7', '4', '4', '0', '7', '3', '7', '0', '9', '5', '5',
      '1', '6', '1', '6']) w) ∧ (∀ w, ¬ LitDenotes (txt ['-', '9', '2', '2', '3', '3', '7', '2', '0', '3', '6',
      '8', '5', '4', '7', '7', '5', '8', '0', '9']) w) ∧
    ∀ w, ¬ LitDenotes (txt ['0', 'x']) w := by
  refine ⟨not_lit (by decide) fun m h => ?_, not_neg_lit (by decide) fun m h => ?_,
    not_lit (by decide) fun m h => ?_⟩
  · rw [show parseMagnitude _ = some 18446744073709551616 by decide] at h
    obtain rfl := Option.some.inj h
    decide
  · rw [show parseMagnitude _ = some 9223372036854775809 by decide] at h
    obtain rfl := Option.some.inj h
    decide
  · rw [show parseMagnitude _ = none by decide] at h
    cases h

/-- A decimal literal through the reader. -/
theorem dec_of {t : Text} {m : Nat} (h : parseDigits 10 t = some m) : DigitsDenote 10 t m :=
  (parseDigits_eq_some (by omega) t m).mp h

/-- Not a decimal literal, through the reader. -/
theorem not_dec {t : Text} (h : parseDigits 10 t = none) : ∀ m, ¬ DigitsDenote 10 t m := by
  intro m hm
  rw [(parseDigits_eq_some (by omega) t m).mpr hm] at h
  cases h

theorem witness_ScaleLiterals :
    DigitsDenote 10 (txt ['1']) 1 ∧ DigitsDenote 10 (txt ['0', '2']) 2 ∧ DigitsDenote 10 (txt ['4']) 4 ∧
    DigitsDenote 10 (txt ['8']) 8 ∧ DigitsDenote 10 (txt ['3']) 3 ∧ DigitsDenote 10 (txt ['0']) 0 ∧
    (∀ m, ¬ DigitsDenote 10 (txt ['0', 'x', '8']) m) ∧ ∀ m, ¬ DigitsDenote 10 [] m :=
  ⟨dec_of (by decide), dec_of (by decide), dec_of (by decide), dec_of (by decide), dec_of (by decide),
    dec_of (by decide), not_dec (by decide), not_dec (by decide)⟩

theorem witness_RegisterOperands : (defaultTables.registers.map Prod.fst).Nodup ∧
    (0x25#8 :: txt ['r', 's', 'p'], rsp) ∈ defaultTables.registers ∧
    ∀ e ∈ defaultTables.registers, e.1 ≠ 0x25#8 :: txt ['r', '8', 'h'] :=
  ⟨(Tables.wf_iff smoke_tables).2.1, by decide, by decide⟩

theorem witness_MemoryOperandTexts : defaultTables.wf = true ∧ LitDenotes (txt ['1', '6']) 16#64 ∧
    (txt ['%', 'r', 'a', 'x'], rax) ∈ defaultTables.registers ∧ (txt ['%', 'r', 'b', 'x'],
      rbx) ∈ defaultTables.registers ∧
    DigitsDenote 10 (txt ['1']) 1 ∧ DigitsDenote 10 (txt ['2']) 2 ∧ DigitsDenote 10 (txt ['4']) 4 ∧
    DigitsDenote 10 (txt ['8']) 8 :=
  ⟨smoke_tables, .inl ⟨16, mag_of (by decide), by decide, by decide⟩, by decide, by decide,
    dec_of (by decide), dec_of (by decide), dec_of (by decide), dec_of (by decide)⟩

/-- A text that can be a memory operand. -/
abbrev memTextOk (u : Text) : Prop := u ≠ [] ∧ u.head? ≠ some 0x24#8 ∧ u.head? ≠ some 0x25#8

/-- The text is `off`, `(`, the parts joined by commas, and `)`, as the statement asks. -/
abbrev grouped (u off : Text) (parts : List Text) : Prop :=
  u = off ++ 0x28#8 :: (List.intercalate [0x2c#8] parts ++ [0x29#8]) ∧ (∀ b ∈ off, b ≠ 0x28#8 ∧ b ≠ 0x29#8) ∧
    (∀ b ∈ List.intercalate [0x2c#8] parts, b ≠ 0x28#8 ∧ b ≠ 0x29#8) ∧ parts ≠ [] ∧ ∀ p ∈ parts, 0x2c#8 ∉ p

/-- Phase 1: a literal, no literal, and a `)` that is not last. -/
theorem witness_MemoryOperandErrors_shape : defaultTables.wf = true ∧
    (memTextOk (txt ['1', '6']) ∧ 0x28#8 ∉ txt ['1', '6'] ∧ LitDenotes (txt ['1', '6']) 16#64) ∧
    (memTextOk (txt ['x']) ∧ 0x28#8 ∉ txt ['x'] ∧ ∀ v, ¬ LitDenotes (txt ['x']) v) ∧
    (memTextOk (txt ['(', '%', 'r', 'a', 'x', ')', '8']) ∧ 0x28#8 ∈ txt ['(', '%', 'r', 'a', 'x', ')', '8'] ∧
      (txt ['(', '%', 'r', 'a', 'x', ')', '8']).getLast? ≠ some 0x29#8) :=
  ⟨smoke_tables, ⟨by decide, by decide, .inl ⟨16, mag_of (by decide), by decide, by decide⟩⟩,
    ⟨by decide, by decide, not_lit (by decide) fun m h => by
      rw [show parseMagnitude _ = none by decide] at h; cases h⟩,
    ⟨by decide, by decide, by decide⟩⟩

/-- Shapes that are not admitted: `()`, `(,%rbx)` and four parts. -/
theorem witness_MemoryOperandErrors_parts :
    (memTextOk (txt ['(', ')']) ∧ grouped (txt ['(', ')']) [] [[]] ∧ ¬ AdmittedParts [[]]) ∧
    (memTextOk (txt ['(', ',', '%', 'r', 'b', 'x', ')']) ∧ grouped (txt ['(', ',', '%', 'r', 'b', 'x',
      ')']) [] [[], txt ['%', 'r', 'b', 'x']] ∧ ¬ AdmittedParts [[], txt ['%', 'r', 'b', 'x']]) ∧
    (memTextOk (txt ['(', ',', ',', ',', ')']) ∧ grouped (txt ['(', ',', ',', ',', ')']) [] [[], [], [], []] ∧
      ¬ AdmittedParts [[], [], [], []]) :=
  ⟨⟨by decide, by decide, by simp [AdmittedParts]⟩, ⟨by decide, by decide, by simp [AdmittedParts]⟩,
    ⟨by decide, by decide, by simp [AdmittedParts]⟩⟩

/-- A bad offset before an admitted shape. -/
theorem witness_MemoryOperandErrors_offset : memTextOk (txt ['x', '(', '%', 'r', 'a', 'x', ')']) ∧
    grouped (txt ['x', '(', '%', 'r', 'a', 'x', ')']) (txt ['x']) [txt ['%', 'r', 'a', 'x']] ∧
      AdmittedParts [txt ['%', 'r', 'a', 'x']] ∧ ¬ OffsetOk (txt ['x']) := by
  refine ⟨by decide, by decide, .inl ⟨_, rfl, by decide⟩, ?_⟩
  rintro (h | ⟨v, h⟩)
  · exact absurd h (by decide)
  · exact not_lit (by decide) (fun m h => by rw [show parseMagnitude _ = none by decide] at h; cases h) v h

/-- Register parts: `rax` has no `%`, and `%r8h`, after a spelling, is none. -/
theorem witness_MemoryOperandErrors_register :
    (memTextOk (txt ['(', 'r', 'a', 'x', ')']) ∧ grouped (txt ['(', 'r', 'a', 'x', ')']) [] [txt ['r', 'a',
      'x']] ∧ AdmittedParts [txt ['r', 'a', 'x']] ∧ OffsetOk [] ∧
      [txt ['r', 'a', 'x']].take 2 = [] ++ txt ['r', 'a', 'x'] :: [] ∧ (txt ['r', 'a',
        'x']).head? ≠ some 0x25#8) ∧
    (memTextOk (txt ['(', '%', 'r', 'a', 'x', ',', '%', 'r', '8', 'h', ')']) ∧ grouped (txt ['(', '%', 'r',
      'a', 'x', ',', '%', 'r', '8', 'h', ')']) [] [txt ['%', 'r', 'a', 'x'], txt ['%', 'r', '8', 'h']] ∧
      AdmittedParts [txt ['%', 'r', 'a', 'x'], txt ['%', 'r', '8', 'h']] ∧
      [txt ['%', 'r', 'a', 'x'], txt ['%', 'r', '8', 'h']].take 2 = [txt ['%', 'r', 'a', 'x']] ++ txt ['%',
        'r', '8', 'h'] :: [] ∧
      RegisterOk defaultTables (txt ['%', 'r', 'a', 'x']) ∧ (txt ['%', 'r', '8', 'h']).head? = some 0x25#8 ∧
      ¬ RegisterOk defaultTables (txt ['%', 'r', '8', 'h'])) := by
  refine ⟨⟨by decide, by decide, .inl ⟨_, rfl, by decide⟩, .inl rfl, rfl, by decide⟩,
    ⟨by decide, by decide, .inr (.inl ⟨_, _, rfl, by decide, by decide⟩), rfl, ⟨rax, by decide⟩, rfl, ?_⟩⟩
  rintro ⟨v, h⟩
  exact (show ∀ e ∈ defaultTables.registers, e.1 ≠ txt ['%', 'r', '8', 'h'] by decide) _ h rfl

/-- Scales: `x` is no decimal literal, and 3 is no scale. -/
theorem witness_MemoryOperandErrors_scale :
    memTextOk (txt ['(', ',', '%', 'r', 'b', 'x', ',', 'x', ')']) ∧ grouped (txt ['(', ',', '%', 'r', 'b', 'x',
      ',', 'x', ')']) [] [[], txt ['%', 'r', 'b', 'x'], txt ['x']] ∧
    (∀ m, ¬ DigitsDenote 10 (txt ['x']) m) ∧ memTextOk (txt ['(', '%', 'r', 'a', 'x', ',', '%', 'r', 'b', 'x',
      ',', '3', ')']) ∧
    grouped (txt ['(', '%', 'r', 'a', 'x', ',', '%', 'r', 'b', 'x', ',', '3', ')']) [] [txt ['%', 'r', 'a',
      'x'], txt ['%', 'r', 'b', 'x'], txt ['3']] ∧ OffsetOk [] ∧
    RegisterOk defaultTables (txt ['%', 'r', 'a', 'x']) ∧ RegisterOk defaultTables (txt ['%', 'r', 'b', 'x']) ∧
      DigitsDenote 10 (txt ['3']) 3 :=
  ⟨by decide, by decide, not_dec (by decide), by decide, by decide, .inl rfl, ⟨rax, by decide⟩, ⟨rbx, by decide⟩,
    dec_of (by decide)⟩

/-- An admitted form and one that is not (E25). -/
theorem witness_AdmittedForms :
    formOf .ADD (.reg rbx) (.reg rax) = some (.addRR rbx rax) ∧
    (parseOperand defaultTables (tok ['a', 'd', 'd', ' ', '%', 'r', 'b', 'x', ',', ' ', '%', 'r', 'a',
      'x']).src = .ok (.reg rbx) ∧
      parseOperand defaultTables (tok ['a', 'd', 'd', ' ', '%', 'r', 'b', 'x', ',', ' ', '%', 'r', 'a',
        'x']).dst = .ok (.reg rax) ∧
      (.ADD, .Register, .Register) ∈ admittedForms) ∧
    (parseOperand defaultTables (tok ['a', 'd', 'd', ' ', '$', '1', ',', ' ', '%', 'r', 'a', 'x']).src =
      .ok (.imm 1#64) ∧
      parseOperand defaultTables (tok ['a', 'd', 'd', ' ', '$', '1', ',', ' ', '%', 'r', 'a', 'x']).dst =
        .ok (.reg rax) ∧
      (.ADD, .Immediate, .Register) ∉ admittedForms) := by decide

/-- One slot for each place an error can stand. -/
theorem witness_FirstErrorInOrder :
    lookup (tok ['M', 'O', 'V', ' ', '%', 'x', 'y', 'z']).mnemonic defaultTables.mnemonics = none ∧
    (lookup (tok ['m', 'o', 'v', ' ', '%', 'x', 'y', 'z', ',']).mnemonic defaultTables.mnemonics = some .MOV ∧
      textCheck (tok ['m', 'o', 'v', ' ', '%', 'x', 'y', 'z', ',']) = some ⟨.malformedOperand, .dst, []⟩) ∧
    (textCheck (tok ['m', 'o', 'v', ' ', '%', 'x', 'y', 'z', ',', ' ', '(', '%', 'r', 'a', 'x', ',', '%', 'r',
      'b', 'x', ',', '3', ')']) = none ∧
      parseOperand defaultTables (tok ['m', 'o', 'v', ' ', '%', 'x', 'y', 'z', ',', ' ', '(', '%', 'r', 'a',
        'x', ',', '%', 'r', 'b', 'x', ',', '3', ')']).src =
        .error (.unknownRegisterName, txt ['%', 'x', 'y', 'z'])) ∧
    (textCheck (tok ['a', 'd', 'd', ' ', '(', '%', 'r', 'a', 'x', ')', ',', ' ', '(', '%', 'r', 'a', 'x', ',',
      '%', 'r', 'b', 'x', ',', '3', ')']) = none ∧
      parseOperand defaultTables (tok ['a', 'd', 'd', ' ', '(', '%', 'r', 'a', 'x', ')', ',', ' ', '(', '%',
        'r', 'a', 'x', ',', '%', 'r', 'b', 'x', ',', '3', ')']).src = .ok (.mem (.reg rax)) ∧
      parseOperand defaultTables (tok ['a', 'd', 'd', ' ', '(', '%', 'r', 'a', 'x', ')', ',', ' ', '(', '%',
        'r', 'a', 'x', ',', '%', 'r', 'b', 'x', ',', '3', ')']).dst = .error (.illegalScale, txt ['3'])) ∧
    (textCheck (tok ['s', 'u', 'b', ' ', '%', 'r', 'a', 'x', ',', ' ', '%', 'r', 'b', 'x']) = none ∧
      parseOperand defaultTables (tok ['s', 'u', 'b', ' ', '%', 'r', 'a', 'x', ',', ' ', '%', 'r', 'b',
        'x']).src = .ok (.reg rax) ∧
      parseOperand defaultTables (tok ['s', 'u', 'b', ' ', '%', 'r', 'a', 'x', ',', ' ', '%', 'r', 'b',
        'x']).dst = .ok (.reg rbx) ∧
      formOf .SUB (.reg rax) (.reg rbx) = none) := by decide

/-- The last byte of each span, and the first byte past it. -/
theorem witness_ViewRead : (7 < 8 ∧ 7 < nbytesOf .Q) ∧ (3 < nbytesOf .D ∧ ¬ 4 < nbytesOf .D) ∧
    (1 < nbytesOf .W ∧ ¬ 2 < nbytesOf .W) ∧ (0 < nbytesOf .L ∧ ¬ 1 < nbytesOf .L) ∧
    (0 < nbytesOf .H ∧ ¬ 1 < nbytesOf .H) := by decide

theorem witness_EffectiveAddress : ∃ (k : Scale) (f : Word), (k = .one → f = 1#64) ∧ (k = .two → f = 2#64) ∧
    (k = .four → f = 4#64) ∧ (k = .eight → f = 8#64) := ⟨.eight, 8#64, by decide⟩

/-- The last load that fits, and the first that does not (M10, M11). -/
theorem witness_LoadRule : State.reset.physical 0xFFF8#64 + 8 ≤ State.reset.config.memSize ∧
    State.reset.config.memSize < State.reset.physical 0xFFF9#64 + 8 := by decide

/-- A code region that the store at 0x10 touches with its last byte, and the store at 0xF does not (M12). -/
theorem witness_StoreRule : (withCode State.reset [0x17]).mem.wf ∧
    ((withCode State.reset [0x17]).physical 0xF#64 + 8 ≤ 0x10000 ∧
      ∀ c ∈ (withCode State.reset [0x17]).config.codeRegion, ¬((withCode State.reset [0x17]).physical 0xF#64 ≤ c ∧
        c ≤ (withCode State.reset [0x17]).physical 0xF#64 + 7)) ∧
    State.reset.config.memSize < State.reset.physical 0xFFF9#64 + 8 ∧
    ((withCode State.reset [0x17]).physical 0x10#64 + 8 ≤ 0x10000 ∧
      ∃ c ∈ (withCode State.reset [0x17]).config.codeRegion, (withCode State.reset [0x17]).physical 0x10#64 ≤ c ∧
        c ≤ (withCode State.reset [0x17]).physical 0x10#64 + 7) := by decide

/-- A store at 0x1000 and a load at 0x1004: byte 3 is shared, byte 4 is not. -/
theorem witness_OverlappingAccesses : Memory.wf [(0x1008, 1#8)] ∧ (3 < 8 ∧ 0x1000 ≤ 0x1004 + 3 ∧
  0x1004 + 3 < 0x1000 + 8) ∧
    (4 < 8 ∧ ¬ 0x1004 + 4 < 0x1000 + 8) := by decide

/-- A slot at the pc; the parameters are well formed; and a pc inside the slot. -/
theorem witness_FetchRule :
    (0 < (load State.reset ['r', 'e', 't', 'q']).config.slotWidth ∧
      fetchSlot (load State.reset ['r', 'e', 't', 'q']).config 0x400000#64 = some (slotOf ['r', 'e', 't', 'q'])) ∧
    (load State.reset ['r', 'e', 't', 'q']).config.wf = true ∧
    (((load State.reset ['r', 'e', 't', 'q']).setPc 0x400020#64).error = none ∧
      0x400020#64 ≠ (load State.reset ['r', 'e', 't', 'q']).config.exitPc ∧
      ∀ k, k < 1 → 0x400000 + k * 64 ≠ 0x400020) :=
  ⟨by decide, by decide +kernel, by decide, by decide, by omega⟩

/-- Stores by MOV: in the store, past its end, into code. -/
theorem witness_MovRegisterMemory : (withCode State.reset [0x17]).mem.wf ∧
    (withCode State.reset [0x17]).writable ((withCode State.reset [0x17]).effectiveAddress (.imm 0xFFF8#64)) ∧
    ¬ State.reset.inRange (State.reset.physical (State.reset.effectiveAddress (.imm 0xFFF9#64))) ∧
    (withCode State.reset [0x17]).inRange
      ((withCode State.reset [0x17]).physical ((withCode State.reset [0x17]).effectiveAddress (.imm 0x10#64))) ∧
    (withCode State.reset [0x17]).touchesCode
      ((withCode State.reset [0x17]).physical ((withCode State.reset [0x17]).effectiveAddress (.imm 0x10#64))) = true := by
  decide

/-- Loads by MOV and CMP: the last that fits, and the first that does not. -/
theorem witness_MovMemoryRegister : State.reset.readable (State.reset.effectiveAddress (.imm 0xFFF8#64)) ∧
    ¬ State.reset.readable (State.reset.effectiveAddress (.imm 0xFFF9#64)) := by decide

theorem witness_CmpImmediateMemory : State.reset.readable (State.reset.effectiveAddress (.imm 0xFFF8#64)) ∧
    ¬ State.reset.readable (State.reset.effectiveAddress (.imm 0xFFF9#64)) := by decide

/-- PUSH and CALL: SP = 8 is the least that works, SP = 7 wraps (K7), and a stack slot in the code region (L4). -/
theorem witness_PushRegister : State.reset.mem.wf ∧
    (regsOf [(Reg.SP, 8#64)]).writable ((regsOf [(Reg.SP, 8#64)]).reg Reg.SP - 8#64) ∧
    ¬ (regsOf [(Reg.SP, 7#64)]).inRange ((regsOf [(Reg.SP, 7#64)]).physical ((regsOf [(Reg.SP,
      7#64)]).reg Reg.SP - 8#64)) ∧
    (withCode State.reset [0x7FF8]).inRange
      ((withCode State.reset [0x7FF8]).physical ((withCode State.reset [0x7FF8]).reg Reg.SP - 8#64)) ∧
    (withCode State.reset [0x7FF8]).touchesCode
      ((withCode State.reset [0x7FF8]).physical ((withCode State.reset [0x7FF8]).reg Reg.SP - 8#64)) =
        true := by decide

theorem witness_Call : State.reset.mem.wf ∧ (∃ t, Instr.callI 5#64 = .callI t) ∧
    (∃ m, Instr.callM (.imm 5#64) = .callM m ∧ 5#64 = State.reset.effectiveAddress m) ∧
    State.reset.writable (State.reset.reg Reg.SP - 8#64) ∧
    ¬ (regsOf [(Reg.SP, 0#64)]).inRange ((regsOf [(Reg.SP, 0#64)]).physical ((regsOf [(Reg.SP,
      0#64)]).reg Reg.SP - 8#64)) ∧
    (withCode State.reset [0x7FFF]).inRange
      ((withCode State.reset [0x7FFF]).physical ((withCode State.reset [0x7FFF]).reg Reg.SP - 8#64)) ∧
    (withCode State.reset [0x7FFF]).touchesCode
      ((withCode State.reset [0x7FFF]).physical ((withCode State.reset [0x7FFF]).reg Reg.SP - 8#64)) = true :=
  ⟨by decide, ⟨_, rfl⟩, ⟨_, rfl, by decide⟩, by decide, by decide, by decide, by decide⟩

/-- POP and RET: SP = 0xFFF8 is the greatest that works. -/
theorem witness_PopRegister : (regsOf [(Reg.SP, 0xFFF8#64)]).readable ((regsOf [(Reg.SP,
  0xFFF8#64)]).reg Reg.SP) ∧
    ¬ (regsOf [(Reg.SP, 0xFFF9#64)]).readable ((regsOf [(Reg.SP, 0xFFF9#64)]).reg Reg.SP) := by decide

theorem witness_Return : (regsOf [(Reg.SP, 0xFFF8#64)]).readable ((regsOf [(Reg.SP, 0xFFF8#64)]).reg Reg.SP) ∧
    ¬ (regsOf [(Reg.SP, 0xFFF9#64)]).readable ((regsOf [(Reg.SP, 0xFFF9#64)]).reg Reg.SP) := by decide

theorem witness_Leave : (regsOf [(Reg.BP, 0xFFF8#64)]).readable ((regsOf [(Reg.BP, 0xFFF8#64)]).reg Reg.BP) ∧
    ¬ (regsOf [(Reg.BP, 0xFFF9#64)]).readable ((regsOf [(Reg.BP, 0xFFF9#64)]).reg Reg.BP) := by decide

/-- A push completes; both clauses, with a register other than SP and with SP itself (S10). -/
theorem witness_PushThenPop : State.reset.mem.wf ∧ (∃ t, exec (.pushR rax) State.reset = .next t) ∧
    (rbx.kind = .Q ∧ rbx.reg ≠ Reg.SP) ∧ (∃ t, exec (.pushR rsp) State.reset = .next t) ∧ rsp = ⟨Reg.SP, .Q⟩ :=
  ⟨by decide, ⟨_, rfl⟩, by decide, ⟨_, rfl⟩, rfl⟩

/-- A call completes, and the state it leaves has SP and the return slot as it left them. -/
theorem witness_CallThenReturn : ∃ t, State.reset.mem.wf ∧ exec (.callI 0x400000#64) State.reset = .next t ∧
    t.config = t.config ∧ t.reg Reg.SP = t.reg Reg.SP ∧
    ∀ j, j < 8 → t.mem.read (t.physical (t.reg Reg.SP) + j) = t.mem.read (t.physical (t.reg Reg.SP) + j) :=
  ⟨_, by decide, rfl, rfl, rfl, fun _ _ => rfl⟩

theorem witness_AddRegisterRegister : ∃ a b r : Word, a = State.reset.readView ⟨Reg.A, .L⟩ ∧
    b = State.reset.readView rsp ∧ r = a + b := ⟨_, _, _, rfl, rfl, rfl⟩

theorem witness_SubImmediateRegister : ∃ d r : Word, d = State.reset.readView rsp ∧ r = d + (~~~0x10#64 + 1#64) :=
  ⟨_, _, rfl, rfl⟩

/-- Both forms, and both values of ZF. -/
theorem witness_BranchNotEqual : (∃ m, Instr.jneM (.imm 5#64) = .jneM m ∧ 5#64 = State.reset.effectiveAddress m) ∧
    (flagged State.reset false).flags.zf = false ∧ (flagged State.reset true).flags.zf = true :=
  ⟨⟨_, rfl, by decide⟩, rfl, rfl⟩

/-- Both forms, both values of ZF, and each `JMP_SEMANTICS`. -/
theorem witness_Jump : (∃ m, Instr.jmpM (.imm 5#64) = .jmpM m ∧ 5#64 = State.reset.effectiveAddress m) ∧
    (flagged State.reset false).flags.zf = false ∧
    ∀ j : JmpSemantics, ((flagged State.reset true).withJmp j).flags.zf = true ∧
      ((flagged State.reset true).withJmp j).config.jmpSemantics = j :=
  ⟨⟨_, rfl, by decide⟩, rfl, fun _ => ⟨rfl, rfl⟩⟩

/-- A running state at a `jmp`, with ZF = 1, under `GuardedStay` (B6). -/
theorem witness_GuardedJumpTakesTwoCycles : (load (flagged State.reset true) ['j', 'm', 'p', ' ', '$', '0',
  'x', '4', '0', '0', '1', '0', '0']).error = none ∧
    (load (flagged State.reset true) ['j', 'm', 'p', ' ', '$', '0', 'x', '4', '0', '0', '1', '0',
      '0']).pc ≠ (load (flagged State.reset true) ['j', 'm', 'p', ' ', '$', '0', 'x', '4', '0', '0', '1', '0',
      '0']).config.exitPc ∧
    fetchSlot (load (flagged State.reset true) ['j', 'm', 'p', ' ', '$', '0', 'x', '4', '0', '0', '1', '0',
      '0']).config 0x400000#64 = some (slotOf ['j', 'm', 'p', ' ', '$', '0', 'x', '4', '0', '0', '1', '0', '0']) ∧
    decode defaultTables (slotOf ['j', 'm', 'p', ' ', '$', '0', 'x', '4', '0', '0', '1', '0', '0']) =
      .ok (.jmpI 0x400100#64) ∧
    (load (flagged State.reset true) ['j', 'm', 'p', ' ', '$', '0', 'x', '4', '0', '0', '1', '0',
      '0']).config.jmpSemantics = .guardedStay ∧
    (load (flagged State.reset true) ['j', 'm', 'p', ' ', '$', '0', 'x', '4', '0', '0', '1', '0',
      '0']).flags.zf = true := by decide

theorem witness_GuardedStayAgreesWithUnconditional : State.reset.config.jmpSemantics = .guardedStay := rfl

/-- A running state at a JNE to its own slot, with ZF = 0. -/
theorem witness_SelfBranchHangs : (load State.reset ['j', 'n', 'e', ' ', '$', '0', 'x', '4', '0', '0', '0',
  '0', '0']).error = none ∧
    (load State.reset ['j', 'n', 'e', ' ', '$', '0', 'x', '4', '0', '0', '0', '0',
      '0']).pc ≠ (load State.reset ['j', 'n', 'e', ' ', '$', '0', 'x', '4', '0', '0', '0', '0',
      '0']).config.exitPc ∧
    (load State.reset ['j', 'n', 'e', ' ', '$', '0', 'x', '4', '0', '0', '0', '0', '0']).flags.zf = false ∧
    fetchSlot (load State.reset ['j', 'n', 'e', ' ', '$', '0', 'x', '4', '0', '0', '0', '0',
      '0']).config 0x400000#64 = some (slotOf ['j', 'n', 'e', ' ', '$', '0', 'x', '4', '0', '0', '0', '0', '0']) ∧
    decode defaultTables (slotOf ['j', 'n', 'e', ' ', '$', '0', 'x', '4', '0', '0', '0', '0', '0']) =
      .ok (.jneI 0x400000#64) := by decide

/-- The same with the memory form of JNE. -/
theorem witness_SelfBranchHangs_memory : (load State.reset ['j', 'n', 'e', ' ', '0', 'x', '4', '0', '0', '0',
  '0', '0']).error = none ∧
    (load State.reset ['j', 'n', 'e', ' ', '0', 'x', '4', '0', '0', '0', '0',
      '0']).pc ≠ (load State.reset ['j', 'n', 'e', ' ', '0', 'x', '4', '0', '0', '0', '0', '0']).config.exitPc ∧
    (load State.reset ['j', 'n', 'e', ' ', '0', 'x', '4', '0', '0', '0', '0', '0']).flags.zf = false ∧
    fetchSlot (load State.reset ['j', 'n', 'e', ' ', '0', 'x', '4', '0', '0', '0', '0',
      '0']).config 0x400000#64 = some (slotOf ['j', 'n', 'e', ' ', '0', 'x', '4', '0', '0', '0', '0', '0']) ∧
    decode defaultTables (slotOf ['j', 'n', 'e', ' ', '0', 'x', '4', '0', '0', '0', '0', '0']) =
      .ok (.jneM (.imm 0x400000#64)) ∧
    (load State.reset ['j', 'n', 'e', ' ', '0', 'x', '4', '0', '0', '0', '0',
      '0']).effectiveAddress (.imm 0x400000#64) =
      (load State.reset ['j', 'n', 'e', ' ', '0', 'x', '4', '0', '0', '0', '0', '0']).pc := by decide

/-- An instruction that completes and sets no flags, and one that completes and stores. -/
theorem witness_FlagsLastOneInstruction : (∃ t, exec (.pushR rax) (flagged State.reset true) = .next t) ∧
    setsFlags (Instr.pushR rax).opcode = false := ⟨⟨_, rfl⟩, rfl⟩

theorem witness_BranchAfterOtherInstructionIsTaken : (∃ t, exec (.movRR rax rbx) (flagged State.reset true) =
  .next t) ∧
    setsFlags (Instr.movRR rax rbx).opcode = false ∧
    ∀ t : State, ∃ m, Instr.jneM (.reg rax) = .jneM m ∧ t.effectiveAddress (.reg rax) = t.effectiveAddress m :=
  ⟨⟨_, rfl⟩, rfl, fun _ => ⟨_, rfl, rfl⟩⟩

/-- A step that completes, and flags that differ in CF, SF and OF only. -/
theorem witness_OnlyZeroFlagIsRead : (∃ t, step (load State.reset ['j', 'n', 'e', ' ', '$', '0', 'x', '4', '0',
  '0', '1', '0', '0']) = .next t) ∧
    (⟨true, false, true, true⟩ : Flags).zf = (load State.reset ['j', 'n', 'e', ' ', '$', '0', 'x', '4', '0',
      '0', '1', '0', '0']).flags.zf := by
  refine ⟨?_, rfl⟩
  exact ⟨_, rfl⟩

/-- An instruction that stores, with the address, and one that does not. -/
theorem witness_InstructionFrame : (∃ t, exec (.pushR rax) State.reset = .next t) ∧
    storeAddress (.pushR rax) State.reset = some 0x7FF8#64 ∧ Reg.A ∉ writtenRegs (.pushR rax) ∧
    (∃ t, exec (.popR rax) State.reset = .next t) ∧ storeAddress (.popR rax) State.reset = none :=
  ⟨⟨_, rfl⟩, by decide, by decide, ⟨_, rfl⟩, rfl⟩

/-- A load and a store that just do not fit, and a store whose last byte is in the code region. -/
theorem witness_InstructionFailsExactlyWhenItsAccessDoes :
    (loadAddress (.movMR (.imm 0xFFF9#64) rax) State.reset = some 0xFFF9#64 ∧
      storeAddress (.movRM rax (.imm 0xFFF9#64)) State.reset = some 0xFFF9#64 ∧
      ¬ State.reset.inRange (State.reset.physical 0xFFF9#64)) ∧
    (storeAddress (.movRM rax (.imm 0x10#64)) (withCode State.reset [0x17]) = some 0x10#64 ∧
      (withCode State.reset [0x17]).inRange ((withCode State.reset [0x17]).physical 0x10#64) ∧
      (withCode State.reset [0x17]).touchesCode ((withCode State.reset [0x17]).physical 0x10#64) =
        true) := by decide

/-- A store into the code region raises an error (M12). -/
theorem witness_MemoryErrorsHaveFieldExecute :
    ∃ r t, exec (.movRM rax (.imm 0x10#64)) (withCode State.reset [0x17]) = .fault (.fatal r t) := ⟨_, _, rfl⟩

theorem witness_StepRunsDecodedInstruction : (load State.reset ['r', 'e', 't', 'q']).error = none ∧
    (load State.reset ['r', 'e', 't', 'q']).pc ≠ (load State.reset ['r', 'e', 't', 'q']).config.exitPc ∧
    fetchSlot (load State.reset ['r', 'e', 't', 'q']).config (load State.reset ['r', 'e', 't', 'q']).pc =
      some (slotOf ['r', 'e', 't', 'q']) ∧
    decode (load State.reset ['r', 'e', 't', 'q']).config.tables (slotOf ['r', 'e', 't', 'q']) =
      .ok .ret := by decide

theorem witness_StepRaisesDecodeError : (load State.reset ['r', 'e', 't', 'q', ' ', '$', '8']).error = none ∧
    (load State.reset ['r', 'e', 't', 'q', ' ', '$', '8']).pc ≠ (load State.reset ['r', 'e', 't', 'q', ' ',
      '$', '8']).config.exitPc ∧
    fetchSlot (load State.reset ['r', 'e', 't', 'q', ' ', '$', '8']).config (load State.reset ['r', 'e', 't',
      'q', ' ', '$', '8']).pc = some (slotOf ['r', 'e', 't', 'q', ' ', '$', '8']) ∧
    decode (load State.reset ['r', 'e', 't', 'q', ' ', '$', '8']).config.tables (slotOf ['r', 'e', 't', 'q',
      ' ', '$', '8']) =
      .error ⟨.unsupportedOperandForm, .form, txt ['r', 'e', 't', 'q', ' ', '$', '8']⟩ := by decide

/-- A state with an error, and a final one. -/
theorem witness_NoStepAfterErrorOrAtExit : (∃ s : State, ∃ r, s.error = some r) ∧
    (State.reset.setPc 0#64).error = none ∧ (State.reset.setPc 0#64).pc =
      (State.reset.setPc 0#64).config.exitPc :=
  ⟨⟨{ State.reset with error := some (recordOf State.reset (fetchError State.reset)) }, _, rfl⟩, rfl, rfl⟩

/-- The launch state has no program: its first step is a fatal error. -/
theorem witness_ErrorsArePrecise : ∃ r t, step State.reset = .fault (.fatal r t) := ⟨_, _, rfl⟩

/-- A state that meets the invariant and makes a step. -/
theorem witness_StepKeepsInvariant : (load State.reset ['p', 'u', 's', 'h', ' ', '%', 'r', 'a', 'x']).Inv ∧
    ∃ t, step (load State.reset ['p', 'u', 's', 'h', ' ', '%', 'r', 'a', 'x']) = .next t :=
  ⟨⟨by decide, by decide, by decide +kernel, rfl⟩, ⟨_, rfl⟩⟩

/-- A cycle that stores beside a code region. -/
theorem witness_RunsNeverChangeCode : (∃ t, Steps 1 (load (withCode State.reset [0x7FF7]) ['p', 'u', 's', 'h',
  ' ', '%', 'r', 'a', 'x']) t) ∧
    0x7FF7 ∈ (load (withCode State.reset [0x7FF7]) ['p', 'u', 's', 'h', ' ', '%', 'r', 'a',
      'x']).config.codeRegion :=
  ⟨⟨_, _, rfl, rfl⟩, by decide⟩

/-- A running state, a final one, and one that hangs: the branch to itself of `witness_SelfBranchHangs`. -/
theorem witness_RunEndsFailsOrHangs : State.reset.error = none ∧
    ReachesFinal (State.reset.setPc 0#64) (State.reset.setPc 0#64) := ⟨rfl, 0, rfl, rfl, rfl⟩

end Sys2Proof.Tests
end

section
/-! The outcomes of a cycle (00_scope.md rule R9). -/

namespace Sys2Proof.Machine

/-- 40_dispatch.md rule R138, first line. -/
theorem step_of_error {s : State} {r : ErrorRecord} (he : s.error = some r) : step s = .fault (.stopped r) := by
  simp [step, he]

/-- 40_dispatch.md rule R138, second line. -/
theorem step_of_isFinal {s : State} (hf : s.isFinal) : step s = .refused (.final s) := by
  obtain ⟨he, hx⟩ := hf
  simp [step, he, hx]

/-- Settles O53: an earlier error, a final state and a running state are the only cases, and a running
state's cycle completes or raises (`step_next_or_raise`). -/
theorem stepOutcomes : Obligations.StepOutcomes := by
  intro s
  cases he : s.error with
  | some r => exact .inr (.inr (.inr ⟨r, step_of_error he, rfl⟩))
  | none =>
    by_cases hf : s.isFinal
    · exact .inr (.inr (.inl ⟨step_of_isFinal hf, hf⟩))
    · have hx : s.pc ≠ s.config.exitPc := fun hx => hf ⟨he, hx⟩
      rcases step_next_or_raise he hx with ⟨t, ht⟩ | ⟨e, hraise⟩
      · exact .inl ⟨t, ht, rfl, hf, (step_next_rest ht).2⟩
      · exact .inr (.inl ⟨recordOf s e, hraise, rfl, hf⟩)

end Sys2Proof.Machine
end

section
/-! Register views: a view read and a view write (10_state.md rules R22, R23). -/

namespace Sys2Proof.Machine

/-- A view write leaves every other register alone (10_state.md rule R23). -/
theorem State.reg_writeView_of_ne (s : State) {l : View} {r : Reg} (v : Word) (h : r ≠ l.reg) :
    (s.writeView l v).reg r = s.reg r := by
  rw [State.reg_writeView, if_neg h]

/-- Reading a view back after writing it (10_state.md rules R22, R23). -/
theorem State.toNat_readView_writeView (s : State) (l : View) (v : Word) :
    ((s.writeView l v).readView l).toNat = v.toNat % 2 ^ (8 * nbytesOf l.kind) := by
  rw [State.readView, State.reg_writeView, if_pos rfl, viewRead_viewWrite]

/-- Settles O16: the bytes of a read view of the register's value (`byteOf_viewRead`). Named apart from the
model's function `viewRead`. -/
theorem viewReadBytes : Obligations.ViewRead :=
  fun s l j _ => byteOf_viewRead l.kind (s.reg l.reg) j

/-- Settles O17: the written bytes, the value read back, and one rule of the state per other field. Named
apart from the model's function `viewWrite`. -/
theorem viewWriteBytes : Obligations.ViewWrite := fun s l v =>
  ⟨viewWritten_writeView s l v, s.toNat_readView_writeView l v, s.writeView_flags l v, s.writeView_pc l v,
    s.writeView_mem l v, s.writeView_error l v, s.writeView_config l v⟩

end Sys2Proof.Machine
end

section
/-! CF, SF and OF are never read (10_state.md rule R31): every operation commutes with setting flags, and
every instruction replaces the flags or reads ZF alone. -/

namespace Sys2Proof.Machine

/-- Whether a commit completes, and in which state, depends on the result committed alone. -/
theorem commit_next_congr {s s' t : State} {b : AccessBy} {r r' : Except MemFault State} (hr : r' = r)
    (h : commit s b r = .next t) : commit s' b r' = .next t :=
  commit_eq_next.mpr (hr.trans (commit_eq_next.mp h))

/-- A store whose continuation replaces the flags does not depend on them. -/
theorem State.map_memWrite_setFlags (s : State) (a v : Word) {f : Flags} {k : State → State}
    (hk : ∀ w : State, k (w.setFlags f) = k w) :
    ((s.setFlags f).memWrite a v).map k = (s.memWrite a v).map k := by
  have hw : (s.setFlags f).memWrite a v = (s.memWrite a v).map (State.setFlags · f) := by
    by_cases hr : s.inRange (s.physical a)
    · by_cases hc : s.touchesCode (s.physical a) = true
      · rw [State.memWrite_of_touchesCode v hr hc]
        exact State.memWrite_of_touchesCode (s := s.setFlags f) v hr hc
      · have hc : s.touchesCode (s.physical a) = false := Bool.eq_false_of_not_eq_true hc
        rw [State.memWrite_of_writable v ⟨hr, hc⟩]
        exact State.memWrite_of_writable (s := s.setFlags f) v ⟨hr, hc⟩
    · rw [State.memWrite_of_not_inRange v hr]
      exact State.memWrite_of_not_inRange (s := s.setFlags f) v hr
  rw [hw]
  cases s.memWrite a v with
  | ok w => exact congrArg Except.ok (hk w)
  | error e => rfl

/-- A push whose continuation replaces the flags does not depend on them. -/
theorem State.map_push_setFlags (s : State) (v : Word) {f : Flags} {k : State → State}
    (hk : ∀ w : State, k (w.setFlags f) = k w) : ((s.setFlags f).push v).map k = (s.push v).map k :=
  (s.writeView spView (s.readView spView - 8#64)).map_memWrite_setFlags _ v hk

/-- JNE reads ZF alone (45_branch.md rule R200). -/
theorem jneTo_setFlags {s : State} {f : Flags} (hz : f.zf = s.flags.zf) (target : Word) :
    jneTo target (s.setFlags f) = jneTo target s := by
  rw [jneTo, jneTo, State.setFlags_flags, hz]
  cases s.flags.zf <;> rfl

/-- JMP reads ZF alone (45_branch.md rule R201). -/
theorem jmpTo_setFlags {s : State} {f : Flags} (hz : f.zf = s.flags.zf) (target : Word) :
    jmpTo target (s.setFlags f) = jmpTo target s := by
  have hpc : jmpPc target (s.setFlags f) = jmpPc target s := by
    rw [jmpPc, jmpPc, State.setFlags_flags, hz]
    rfl
  rw [jmpTo, jmpTo, hpc]
  rfl

/-- An instruction that completes does so in the same state whatever CF, SF and OF were. -/
theorem exec_setFlags_next {i : Instr} {s t : State} {f : Flags} (hz : f.zf = s.flags.zf)
    (h : exec i s = .next t) : exec i (s.setFlags f) = .next t := by
  cases i
  case movRR | movIR | addRR | subIR => exact h
  case movMR | cmpIM | popR | leave | ret => exact commit_next_congr rfl h
  case movRM => exact commit_next_congr (s.map_memWrite_setFlags _ _ fun _ => rfl) h
  case pushR | callI | callM => exact commit_next_congr (s.map_push_setFlags _ fun _ => rfl) h
  case jneI | jneM => exact (jneTo_setFlags hz _).trans h
  case jmpI | jmpM => exact (jmpTo_setFlags hz _).trans h

/-- Settles O47: the fetch and the decode read no flag, and the instruction reads ZF alone. -/
theorem onlyZeroFlagIsRead : Obligations.OnlyZeroFlagIsRead := by
  intro s t f hz h
  obtain ⟨he, hx, slot, i, hfetch, hdecode, hexec⟩ := step_eq_next h
  rw [step_of_running (s := s.setFlags f) he hx]
  simp only [State.setFlags_config, State.setFlags_pc, hfetch, hdecode]
  exact exec_setFlags_next hz hexec

end Sys2Proof.Machine
end

section
/-! What an instruction leaves unchanged (10_state.md rule R28, 20_memory.md rule R57). -/

namespace Sys2Proof.Machine

/-- A completed instruction leaves every register alone that 10_state.md rule R28 does not list for it. -/
theorem exec_next_reg {i : Instr} {s t : State} (h : exec i s = .next t) {r : Reg} (hr : r ∉ writtenRegs i) :
    t.reg r = s.reg r := by
  cases i
  case movRR | movIR | addRR | subIR =>
    obtain rfl := Host.Outcome.next.inj h
    exact s.reg_writeView_of_ne _ (List.mem_singleton.not.mp hr)
  case jneI | jneM =>
    obtain rfl := Host.Outcome.next.inj h
    cases s.flags.zf <;> rfl
  case jmpI | jmpM =>
    obtain rfl := Host.Outcome.next.inj h
    rfl
  case movMR =>
    obtain ⟨v, -, rfl⟩ := map_eq_ok.mp (commit_eq_next.mp h)
    exact s.reg_writeView_of_ne v (List.mem_singleton.not.mp hr)
  case cmpIM =>
    obtain ⟨d, -, rfl⟩ := map_eq_ok.mp (commit_eq_next.mp h)
    rfl
  case movRM =>
    obtain ⟨w, hw, rfl⟩ := map_eq_ok.mp (commit_eq_next.mp h)
    obtain ⟨-, rfl⟩ := State.memWrite_eq_ok hw
    rfl
  case pushR | callI | callM =>
    have hsp : r ≠ Reg.SP := List.mem_singleton.not.mp hr
    obtain ⟨w, hw, rfl⟩ := map_eq_ok.mp (commit_eq_next.mp h)
    obtain ⟨-, rfl⟩ := State.push_eq_ok hw
    simp [State.reg_pushed, hsp]
  case popR dst =>
    obtain ⟨hdst, hsp⟩ : r ≠ dst.reg ∧ r ≠ Reg.SP := not_or.mp (List.mem_pair.not.mp hr)
    obtain ⟨-, rfl⟩ := State.pop_eq_ok (commit_eq_next.mp h)
    simp [State.reg_writeView_of_ne _ _ hdst, State.reg_writeView_spView, hsp]
  case leave =>
    obtain ⟨hsp, hbp⟩ : r ≠ Reg.SP ∧ r ≠ Reg.BP := not_or.mp (List.mem_pair.not.mp hr)
    obtain ⟨-, rfl⟩ := State.pop_eq_ok (commit_eq_next.mp h)
    simp [State.reg_writeView_spView, State.reg_writeView_bpView, hsp, hbp]
  case ret =>
    have hsp : r ≠ Reg.SP := List.mem_singleton.not.mp hr
    obtain ⟨-, rfl⟩ := State.pop_eq_ok (commit_eq_next.mp h)
    simp [State.reg_writeView_spView, hsp]

/-- Settles O48: registers by `exec_next_reg`, memory by `exec_next_mem` (nothing is stored, or eight bytes
at the store address), the rest by `exec_next_rest`. -/
theorem instructionFrame : Obligations.InstructionFrame := by
  intro i s t h
  refine ⟨fun r => exec_next_reg h, ?_, ?_, exec_next_rest h⟩
  · intro hnone p
    rcases exec_next_mem h with ⟨-, hmem⟩ | ⟨a, v, hstore, -, -⟩
    · rw [hmem]
    · rw [hnone] at hstore
      cases hstore
  · intro a hsome p hp
    rcases exec_next_mem h with ⟨-, hmem⟩ | ⟨a', v, hstore, -, hmem⟩
    · rw [hmem]
    · obtain rfl : a = a' := Option.some.inj (hsome.symm.trans hstore)
      rw [hmem, Memory.read_store64_outside _ _ _ hp]

end Sys2Proof.Machine
end

section
/-! The default tables and the launch state (10_state.md rules R24, R25, R38; 00_scope.md rule R5). -/

namespace Sys2Proof

/-- The default tables meet the check on tables: a closed fact, evaluated by the kernel. -/
theorem defaultTables_wf : defaultTables.wf = true := by decide +kernel

/-- Five spellings name every view of their register and no other (10_state.md rule R24). -/
theorem any_spellings5 (r : Reg) (q d w h l : List Char) (v : View) :
    ((spellings5 r q d w h l).any fun e => e.2 == v) = true ↔ r = v.reg := by
  obtain ⟨r', k⟩ := v
  cases k <;> simp [spellings5]

/-- Four spellings name every view of their register but `H` and no other (10_state.md rules R24, R25). -/
theorem any_spellings4 (r : Reg) (n : List Char) (v : View) :
    ((spellings4 r n).any fun e => e.2 == v) = true ↔ r = v.reg ∧ v.kind ≠ .H := by
  obtain ⟨r', k⟩ := v
  cases k <;> simp [spellings4]

/-- The views the default table spells: all of registers 0 to 7, and all but `H` of registers 8 to 15
(10_state.md rules R24, R25). -/
theorem spelled_defaultTables (v : View) :
    v.spelled defaultTables = true ↔ v.reg < Reg.R8 ∨ v.kind ≠ .H := by
  obtain ⟨r, k⟩ := v
  simp only [View.spelled, defaultTables, defaultRegisters, List.any_append, Bool.or_eq_true, any_spellings5,
    any_spellings4]
  by_cases hk : k = .H
  · simp only [hk, ne_eq, not_true_eq_false, and_false, or_false]
    revert r
    decide
  · simp only [hk, ne_eq, not_false_eq_true, and_true, or_true, iff_true]
    revert r
    decide

namespace Machine

/-- Settles O12: the check, the length, and the spelled views by `spelled_defaultTables`. -/
theorem defaultSpellings : Obligations.DefaultSpellings := by
  refine ⟨defaultTables_wf, rfl, fun v => ?_⟩
  rw [← Bool.not_eq_true, spelled_defaultTables, not_or, Fin.not_lt, not_not]

/-- The launch parameters satisfy what 00_scope.md rule R5 states of them. -/
theorem launchConfig_wf : launchConfig.wf = true := by
  simp [Config.wf, Program.wf, launchConfig, defaultTables_wf]

/-- Settles O55: memory is empty at launch, and the parameters are well formed. -/
theorem launchInvariant : Obligations.LaunchInvariant :=
  ⟨⟨⟨List.Pairwise.nil, nofun⟩, nofun, launchConfig_wf, rfl⟩, rfl⟩

end Machine
end Sys2Proof
end

section
/-! The invariant and the code region: what a cycle may do to memory, and what it therefore keeps
(20_memory.md rules R50, R54, R65; 70_reset_and_hazards.md rule R252). -/

namespace Sys2Proof.Machine

/-- A cycle that answers a next state keeps memory, or stores eight bytes where it was allowed to. -/
theorem step_next_mem {s t : State} (h : step s = .next t) :
    t.mem = s.mem ∨ ∃ a v, s.writable a ∧ t.mem = s.mem.store64 (s.physical a) v := by
  obtain ⟨-, -, _, _, -, -, hexec⟩ := step_eq_next h
  rcases exec_next_mem hexec with ⟨-, hmem⟩ | ⟨a, v, -, hw, hmem⟩
  · exact .inl hmem
  · exact .inr ⟨a, v, hw, hmem⟩

/-- A store in range lists no address past the end of the store (20_memory.md rule R50). -/
theorem Memory.store64_bounded {m : Memory} {n p : Nat} (v : Word) (hm : ∀ c ∈ m, c.1 < n) (hp : p + 8 ≤ n) :
    ∀ c ∈ m.store64 p v, c.1 < n := by
  intro c hc
  rcases Memory.mem_store64 hc with hold | ⟨-, hlt⟩
  · exact hm c hold
  · omega

/-- A store that is allowed leaves the code region as it was (20_memory.md rule R54). -/
theorem State.read_store64_of_mem_codeRegion {s : State} {a : Word} (v : Word) (hw : s.writable a) {c : Nat}
    (hc : c ∈ s.config.codeRegion) : (s.mem.store64 (s.physical a) v).read c = s.mem.read c := by
  have houtside := State.not_touchesCode.mp hw.2 c hc
  exact Memory.read_store64_outside _ _ _ (by omega)

/-- A cycle leaves the code region as it was (20_memory.md rule R65). -/
theorem step_next_read_codeRegion {s t : State} (h : step s = .next t) {c : Nat} (hc : c ∈ s.config.codeRegion) :
    t.mem.read c = s.mem.read c := by
  rcases step_next_mem h with hmem | ⟨a, v, hw, hmem⟩
  · rw [hmem]
  · rw [hmem, State.read_store64_of_mem_codeRegion v hw hc]

/-- Settles O56: the parameters and the error status by `step_next_rest`; memory is kept, or takes a store
that was in range (`step_next_mem`). -/
theorem stepKeepsInvariant : Obligations.StepKeepsInvariant := by
  intro s t ⟨hcanonical, hbounded, hwf, _⟩ h
  obtain ⟨hconfig, herror⟩ := step_next_rest h
  have hmem : t.mem.wf ∧ ∀ c ∈ t.mem, c.1 < s.config.memSize := by
    rcases step_next_mem h with hmem | ⟨a, v, hw, hmem⟩ <;> rw [hmem]
    · exact ⟨hcanonical, hbounded⟩
    · exact ⟨Memory.wf_store64 hcanonical _ v, Memory.store64_bounded v hbounded hw.1⟩
  rw [← hconfig] at hmem hwf
  exact ⟨hmem.1, hmem.2, hwf, herror⟩

/-- Settles O57, by induction on the number of cycles: each keeps the parameters, the code region among
them, and every byte of that region. -/
theorem runsNeverChangeCode : Obligations.RunsNeverChangeCode := by
  intro n
  induction n with
  | zero =>
    rintro s _ rfl
    exact ⟨rfl, fun _ _ => rfl⟩
  | succ n ih =>
    rintro s t ⟨u, hstep, hsteps⟩
    have hu : u.config = s.config := (step_next_rest hstep).1
    obtain ⟨hconfig, hcode⟩ := ih u t hsteps
    rw [hu] at hconfig hcode
    exact ⟨hconfig, fun c hc => (hcode c hc).trans (step_next_read_codeRegion hstep hc)⟩

end Sys2Proof.Machine
end

section
/-! Loads and stores of eight bytes (20_memory.md rules R53, R54, R56). -/

namespace Sys2Proof.Machine

/-- A store touches the code region when one of its eight bytes lies there (20_memory.md rule R54). -/
theorem State.touchesCode_eq_true {s : State} {p : Nat} :
    s.touchesCode p = true ↔ ∃ c ∈ s.config.codeRegion, p ≤ c ∧ c < p + 8 := by
  simp [State.touchesCode]

/-- A load in range gives back the value just stored at the same address (20_memory.md rules R53, R54). -/
theorem State.memRead_store64 {s : State} (hm : s.mem.wf) {a : Word} (v : Word) (h : s.readable a) :
    { s with mem := s.mem.store64 (s.physical a) v }.memRead a = .ok v := by
  rw [State.memRead_of_inRange (s := { s with mem := s.mem.store64 (s.physical a) v }) h]
  exact congrArg Except.ok (Memory.load64_store64 hm (s.physical a) v)

/-- Any byte of memory after a store (20_memory.md rules R54, R56). -/
theorem Memory.read_store64_eq {m : Memory} (hm : m.wf) (p : Nat) (v : Word) (a : Nat) :
    (m.store64 p v).read a = if p ≤ a ∧ a < p + 8 then byteOf v (a - p) else m.read a := by
  split
  next hin =>
    obtain ⟨j, rfl⟩ := Nat.exists_eq_add_of_le hin.1
    rw [Memory.read_store64 hm p v (by omega), Nat.add_sub_cancel_left]
  next hout => exact Memory.read_store64_outside m p v (by omega)

/-- Settles O20: the two sides of the range check. -/
theorem loadRule : Obligations.LoadRule := fun s _ =>
  ⟨fun h => ⟨_, State.memRead_of_inRange h, loadedFrom_load64 s _⟩,
    fun h => State.memRead_of_not_inRange (Nat.not_le_of_lt h)⟩

/-- Settles O21: the store is allowed, out of range, or in range and touches the code region. -/
theorem storeRule : Obligations.StoreRule := by
  intro s a v hm
  refine ⟨fun hrange hcode => ?_, fun hpast => ?_, fun hrange ⟨c, hc, hle, hge⟩ => ?_⟩
  · have hfree : s.touchesCode (s.physical a) = false :=
      State.not_touchesCode.mpr fun c hc ⟨hle, hlt⟩ => hcode c hc ⟨hle, Nat.le_of_lt_succ hlt⟩
    exact ⟨_, State.memWrite_of_writable v ⟨hrange, hfree⟩, storedAt_store64 hm _ v rfl,
      State.memRead_store64 hm v hrange, fun _ => rfl, rfl, rfl, rfl, rfl⟩
  · exact State.memWrite_of_not_inRange v (Nat.not_le_of_lt hpast)
  · exact State.memWrite_of_touchesCode v hrange
      (State.touchesCode_eq_true.mpr ⟨c, hc, hle, Nat.lt_succ_of_le hge⟩)

/-- Settles O22: byte j of a load is the byte at `q + j`, before the store and after it. -/
theorem overlappingAccesses : Obligations.OverlappingAccesses := by
  intro m p q v j hm hj
  rw [Memory.byteOf_load64 _ _ hj, Memory.byteOf_load64 _ _ hj, Memory.read_store64_eq hm]

end Sys2Proof.Machine
end

section
/-! The slot's text and the tokeniser (30_encoding.md rules R80 to R84). -/

namespace Sys2Proof.Machine

/-- Settles O3: the text is what `takeWhile` keeps, and what it drops is nothing or begins with the 00 byte. -/
theorem slotTextEndsAtFirstNul : Obligations.SlotTextEndsAtFirstNul := by
  intro slot text
  have hp : ∀ {t : Text}, (∀ b ∈ t, b ≠ 0#8) → ∀ b ∈ t, (b != 0#8) = true := fun h b hb => by simpa using h b hb
  constructor
  · rintro rfl
    refine ⟨fun b hb => by simpa using List.mem_takeWhile_imp hb, ?_⟩
    have hsplit : slotText slot ++ slot.dropWhile (· != 0#8) = slot := List.takeWhile_append_dropWhile
    cases hd : slot.dropWhile (· != 0#8) with
    | nil => exact .inl (by simpa [hd] using hsplit.symm)
    | cons c rest =>
      have hc : c = 0#8 := by simpa [hd] using slot.head_dropWhile_not (· != 0#8) (by simp [hd])
      exact .inr ⟨rest, by rw [← hc, ← hd, hsplit]⟩
  · rintro ⟨hne, rfl | ⟨rest, rfl⟩⟩
    · exact List.takeWhile_eq_self_iff.mpr (hp hne)
    · exact takeWhile_append_stop (hp hne) rfl

/-- Trimming on the right reaches no byte before one that is not whitespace. -/
theorem rtrim_append_cons {c : Byte} (hc : isWhitespace c = false) (x y : Text) :
    rtrim (x ++ c :: y) = x ++ c :: rtrim y := by
  cases hy : y.reverse.dropWhile isWhitespace <;> simp [rtrim, List.dropWhile_append, hy, hc]

/-- Trimming on the left reaches no byte after one that is not whitespace. -/
theorem ltrim_append_cons {c : Byte} (hc : isWhitespace c = false) (x y : Text) :
    ltrim (x ++ c :: y) = ltrim x ++ c :: y := by
  cases hx : x.dropWhile isWhitespace <;> simp [ltrim, List.dropWhile_append, hx, hc]

/-- A field before blanks, trimmed from the right. -/
theorem rtrim_field_blanks {f e : Text} (hf : f = [] ∨ Trimmed f) (he : Blanks e) : rtrim (f ++ e) = f := by
  rw [rtrim_blanks he]
  rcases hf with rfl | hf
  · rfl
  · exact rtrim_last hf.2

/-- A field between blanks, trimmed from the right and then from the left. -/
theorem ltrim_rtrim_field {w f e : Text} (hw : Blanks w) (he : Blanks e) (hf : f = [] ∨ Trimmed f) :
    ltrim (rtrim (w ++ f ++ e)) = f := by
  rw [rtrim_blanks he]
  rcases hf with rfl | ⟨hhead, b, hlast, hb⟩
  · rw [List.append_nil]
    exact congrArg ltrim (rtrim_blanks hw [])
  · rw [rtrim_last ⟨b, by simp [hlast], hb⟩, ltrim_blanks hw, ltrim_head hhead]

/-- A mnemonic after blanks, with what follows it, which begins with whitespace or is nothing: the two parts
the tokeniser works on. -/
theorem mnemonic_and_rest {a mn z : Text} (ha : Blanks a) (hne : mn ≠ []) (hm : ∀ b ∈ mn, isWhitespace b = false)
    (hz : ∀ b, z.head? = some b → isWhitespace b = true) :
    ((rtrim (ltrim (a ++ mn ++ z))).takeWhile fun b => !isWhitespace b) = mn ∧
      ((rtrim (ltrim (a ++ mn ++ z))).dropWhile fun b => !isWhitespace b) = rtrim z := by
  have htrim : rtrim (ltrim (a ++ mn ++ z)) = mn ++ rtrim z := by
    rw [List.append_assoc, ltrim_blanks ha, ltrim_of_noWs hm z hne]
    obtain ⟨mn', c, rfl⟩ := (List.eq_nil_or_concat' mn).resolve_left hne
    have := rtrim_append_cons (hm c (by simp)) mn' z
    simpa using this
  have hp : ∀ b ∈ mn, (!isWhitespace b) = true := fun b hb => by rw [hm b hb]; rfl
  rw [htrim]
  cases hr : rtrim z with
  | nil => simpa using hm
  | cons c r =>
    have hc : isWhitespace c = true := by
      obtain ⟨s, hs⟩ : rtrim z <+: z := List.rdropWhile_prefix isWhitespace z
      exact hz c (by rw [← hs, hr]; rfl)
    exact ⟨takeWhile_append_stop hp (by rw [hc]; rfl), dropWhile_append_stop hp (by rw [hc]; rfl)⟩

/-- A text with no comma at depth 0 after its mnemonic has one operand field. -/
theorem tokenise_noComma {a mn z rest : Text} (ha : Blanks a) (hne : mn ≠ [])
    (hm : ∀ b ∈ mn, isWhitespace b = false) (hz : ∀ b, z.head? = some b → isWhitespace b = true)
    (hrest : ltrim (rtrim z) = rest) (hs : splitComma 0 rest = none) :
    tokenise (a ++ mn ++ z) = ⟨mn, rest, [], false⟩ := by
  obtain ⟨hmn, hdrop⟩ := mnemonic_and_rest ha hne hm hz
  simp only [tokenise, hmn, hdrop, hrest, hs]

/-- A text with a comma at depth 0 after its mnemonic has two. -/
theorem tokenise_comma {a mn z l r : Text} (ha : Blanks a) (hne : mn ≠ [])
    (hm : ∀ b ∈ mn, isWhitespace b = false) (hz : ∀ b, z.head? = some b → isWhitespace b = true)
    (hs : splitComma 0 (ltrim (rtrim z)) = some (l, r)) :
    tokenise (a ++ mn ++ z) = ⟨mn, rtrim l, ltrim r, true⟩ := by
  obtain ⟨hmn, hdrop⟩ := mnemonic_and_rest ha hne hm hz
  simp only [tokenise, hmn, hdrop, hs]

/-- A byte that is not whitespace does not stand in blanks. -/
theorem Blanks.count_eq_zero {c : Text} (hc : Blanks c) {x : Byte} (hx : isWhitespace x = false) : c.count x = 0 :=
  List.count_eq_zero.mpr fun hm => Bool.false_ne_true (hx.symm.trans (hc x hm))

/-- Blanks hold no comma, so none comes to stand at depth 0 by adding them. -/
theorem NoOuterComma.append_blanks {t c : Text} (ht : NoOuterComma t) (hc : Blanks c) : NoOuterComma (t ++ c) := by
  have hcomma : 0x2c#8 ∉ c := List.count_eq_zero.mp (hc.count_eq_zero rfl)
  intro p q h
  rcases List.append_eq_append_iff.mp h with ⟨p', -, rfl⟩ | ⟨q', rfl, hq⟩
  · simp at hcomma
  · cases q' with
    | nil =>
      obtain rfl : _ = c := hq
      simp at hcomma
    | cons x q' =>
      obtain ⟨rfl, -⟩ := List.cons.inj hq
      exact ht p q' rfl

/-- A source and the blanks before its comma, as the tokeniser sees them. -/
theorem ltrim_field_blanks {f c : Text} (hf : f = [] ∨ Trimmed f) (hc : Blanks c) :
    ∃ c', Blanks c' ∧ ltrim (f ++ c) = f ++ c' := by
  rcases hf with rfl | ⟨⟨b, hhead, hb⟩, -⟩
  · exact ⟨[], nofun, ltrim_nil_of_blanks hc⟩
  · exact ⟨c, hc, ltrim_head ⟨b, by simp [hhead], hb⟩⟩

/-- Settles O4: one operand field or none by `tokenise_noComma`; with a comma, what stands before it is trimmed
to the source, and what stands after it to the destination. -/
theorem tokeniserFields : Obligations.TokeniserFields := by
  intro a mn w src c d dst e ha hw hc hd he hwne hne hm
  have hhead : ∀ (r : Text) (b : Byte), (w ++ r).head? = some b → isWhitespace b = true := by
    intro r b hb
    cases w with
    | nil => exact absurd rfl hwne
    | cons x w => exact hw b (by simp at hb; simp [hb])
  refine ⟨?_, fun hsrc hno => ?_, fun hsrc hno hbal hdst => ?_⟩
  · refine tokenise_noComma ha hne hm (fun b hb => he b (List.mem_of_head? hb)) ?_ rfl
    exact ltrim_rtrim_field (w := []) (f := []) (fun _ h => nomatch h) he (.inl rfl)
  · have hs : splitComma 0 src = none := splitComma_none src 0 fun p q h => by simpa using mod_cast hno p q h
    have := tokenise_noComma ha hne hm (hhead (src ++ e)) (by
      simpa using ltrim_rtrim_field hw he (.inr hsrc)) hs
    simpa using this
  · have hcomma : isWhitespace 0x2c#8 = false := rfl
    obtain ⟨c', hc', hleft⟩ := ltrim_field_blanks hsrc hc
    have hz : ltrim (rtrim (w ++ (src ++ c ++ 0x2c#8 :: (d ++ dst ++ e)))) =
        src ++ c' ++ 0x2c#8 :: rtrim (d ++ dst ++ e) := by
      rw [← List.append_assoc, rtrim_append_cons hcomma, ltrim_append_cons hcomma, ltrim_blanks hw, hleft]
    have hs : splitComma 0 (src ++ c' ++ 0x2c#8 :: rtrim (d ++ dst ++ e)) =
        some (src ++ c', rtrim (d ++ dst ++ e)) := by
      refine splitComma_at _ _ 0 (fun p q h => ?_) ?_
      · simpa using mod_cast hno.append_blanks hc' p q h
      · simp [hbal, hc'.count_eq_zero]
    have := tokenise_comma ha hne hm (hhead (src ++ c ++ 0x2c#8 :: (d ++ dst ++ e))) (hz ▸ hs)
    rw [ltrim_rtrim_field hd he hdst, rtrim_field_blanks hsrc hc'] at this
    simpa using this

end Sys2Proof.Machine
end

section
/-! The decoder as the sequence of its checks (30_encoding.md rules R85, R87, R95, R102 to R104). -/

namespace Sys2Proof.Machine

/-- The first check: the mnemonic (30_encoding.md rule R87). -/
theorem decode_of_lookup_none {t : Tables} {slot : Text}
    (hl : lookup (tokenise (slotText slot)).mnemonic t.mnemonics = none) :
    decode t slot = .error ⟨.unknownOpcode, .mnemonic, (tokenise (slotText slot)).mnemonic⟩ := by
  simp only [decode, decodeText, hl]

/-- The second: the operand texts (30_encoding.md rule R85). -/
theorem decode_of_textCheck {t : Tables} {slot : Text} {op : Opcode} {e : DecodeError}
    (hl : lookup (tokenise (slotText slot)).mnemonic t.mnemonics = some op)
    (hc : textCheck (tokenise (slotText slot)) = some e) : decode t slot = .error e := by
  simp only [decode, decodeText, hl, hc]

/-- Then the operands and the form (30_encoding.md rules R95, R103). -/
theorem decode_of_textCheck_none {t : Tables} {slot : Text} {op : Opcode}
    (hl : lookup (tokenise (slotText slot)).mnemonic t.mnemonics = some op)
    (hc : textCheck (tokenise (slotText slot)) = none) :
    decode t slot = decodeOperands t (slotText slot) op (tokenise (slotText slot)) := by
  simp only [decode, decodeText, hl, hc]

section
variable {t : Tables} {text : Text} {op : Opcode} {tok : Tokens} {src dst : Operand}

theorem decodeOperands_of_src_error {e : OperandError} (hs : parseOperand t tok.src = .error e) :
    decodeOperands t text op tok = .error ⟨e.1, .src, e.2⟩ := by
  simp only [decodeOperands, hs, inField]

theorem decodeOperands_of_dst_error {e : OperandError} (hs : parseOperand t tok.src = .ok src)
    (hd : parseOperand t tok.dst = .error e) : decodeOperands t text op tok = .error ⟨e.1, .dst, e.2⟩ := by
  simp only [decodeOperands, hs, hd, inField]

theorem decodeOperands_of_formOf_none (hs : parseOperand t tok.src = .ok src) (hd : parseOperand t tok.dst = .ok dst)
    (hf : formOf op src dst = none) :
    decodeOperands t text op tok = .error ⟨.unsupportedOperandForm, .form, text⟩ := by
  simp only [decodeOperands, hs, hd, inField, hf]

theorem decodeOperands_of_formOf_some {i : Instr} (hs : parseOperand t tok.src = .ok src)
    (hd : parseOperand t tok.dst = .ok dst) (hf : formOf op src dst = some i) :
    decodeOperands t text op tok = .ok i := by
  simp only [decodeOperands, hs, hd, inField, hf]

end

/-- Two fields with no whitespace, neither empty at a comma, pass the text checks (30_encoding.md rule R85). -/
theorem textCheck_eq_none {tok : Tokens} (hcomma : ¬(tok.hasComma = true ∧ (tok.src = [] ∨ tok.dst = [])))
    (hsrc : ∀ b ∈ tok.src, isWhitespace b = false) (hdst : ∀ b ∈ tok.dst, isWhitespace b = false) :
    textCheck tok = none := by
  rw [textCheck, if_neg fun h => hcomma ⟨h.1, .inl h.2⟩, if_neg fun h => hcomma ⟨h.1, .inr h.2⟩,
    if_neg (by simpa using hsrc), if_neg (by simpa using hdst)]

/-- Every instruction is of an admitted form, which the form check gives it back from. -/
theorem operandForm (i : Instr) : Laws.OperandForm.Statement i :=
  match i with
  | .movRR src dst => Laws.OperandForm.movRR src dst
  | .movRM src dst => Laws.OperandForm.movRM src dst
  | .movMR src dst => Laws.OperandForm.movMR src dst
  | .movIR src dst => Laws.OperandForm.movIR src dst
  | .pushR src => Laws.OperandForm.pushR src
  | .popR dst => Laws.OperandForm.popR dst
  | .leave => Laws.OperandForm.leave
  | .callI target => Laws.OperandForm.callI target
  | .callM target => Laws.OperandForm.callM target
  | .ret => Laws.OperandForm.ret
  | .addRR src dst => Laws.OperandForm.addRR src dst
  | .subIR src dst => Laws.OperandForm.subIR src dst
  | .cmpIM src dst => Laws.OperandForm.cmpIM src dst
  | .jneI target => Laws.OperandForm.jneI target
  | .jneM target => Laws.OperandForm.jneM target
  | .jmpI target => Laws.OperandForm.jmpI target
  | .jmpM target => Laws.OperandForm.jmpM target

end Sys2Proof.Machine
end

section
/-! Decoding what the encoder writes (30_encoding.md rules R80 to R107). -/

namespace Sys2Proof.Machine

/-- A mnemonic of a well-formed table. -/
theorem mnemonicWf_iff {s : Text} :
    Tables.mnemonicWf s = true ↔ s ≠ [] ∧ ∀ b ∈ s, b ≠ 0#8 ∧ isWhitespace b = false := by
  simp [Tables.mnemonicWf]

/-- A text with no whitespace is not trimmed. -/
theorem ltrim_eq_self {s : Text} (h : ∀ b ∈ s, isWhitespace b = false) : ltrim s = s := by
  cases s with
  | nil => rfl
  | cons c cs => exact ltrim_cons (h c (by simp))

/-- An instruction with no source has no destination (30_encoding.md rule R102). -/
theorem dst_eq_empty_of_src {i : Instr} (h : i.src = .empty) : i.dst = .empty := by
  cases i <;> cases h <;> rfl

/-- The text of an operand holds no NUL and no whitespace. -/
theorem operandText_bytes {t : Tables} (ht : t.wf = true) {o : Operand} (h : ∀ v ∈ o.views, v.spelled t = true) :
    ∀ b ∈ operandText t o, b ≠ 0#8 ∧ isWhitespace b = false := by
  by_cases ho : o = .empty
  · subst ho
    exact nofun
  · exact (operandText_facts ht ho h).2.1

/-- Format F1 (30_encoding.md rule R81). -/
theorem operandsText_dst_empty {t : Tables} {src : Operand} (hs : src ≠ .empty) :
    operandsText t src .empty = 0x20#8 :: operandText t src := by
  cases src with
  | empty => exact absurd rfl hs
  | imm _ | reg _ | mem _ => rfl

/-- Format F2 (30_encoding.md rule R81). -/
theorem operandsText_of_ne_empty {t : Tables} {src dst : Operand} (hs : src ≠ .empty) (hd : dst ≠ .empty) :
    operandsText t src dst = 0x20#8 :: (operandText t src ++ 0x2c#8 :: 0x20#8 :: operandText t dst) := by
  cases src with
  | empty => exact absurd rfl hs
  | imm _ | reg _ | mem _ =>
    cases dst with
    | empty => exact absurd rfl hd
    | imm _ | reg _ | mem _ => simp [operandsText]

/-- The fields of an instruction's text are its mnemonic and the texts of its operands, by its format. -/
theorem tokenise_encode {t : Tables} {i : Instr} (ht : t.wf = true) (hi : i.wf t = true) :
    tokenise (encode t i) = ⟨spell i.opcode t.mnemonics, operandText t i.src, operandText t i.dst,
      decide (i.dst ≠ .empty)⟩ := by
  obtain ⟨hsrc, hdst, hwf, -⟩ := Instr.wf_facts ht hi
  obtain ⟨hne, hbytes⟩ := mnemonicWf_iff.mp hwf
  have hmn : ∀ b ∈ spell i.opcode t.mnemonics, isWhitespace b = false := fun b hb => (hbytes b hb).2
  by_cases hs : i.src = .empty
  · have := tokenise_noComma (a := []) (z := []) (rest := []) nofun hne hmn nofun rfl rfl
    simpa [encode, hs, dst_eq_empty_of_src hs, operandsText, operandText] using this
  · obtain ⟨hsne, hsws, hssplit⟩ := operandText_facts ht hs hsrc
    have hsws : ∀ b ∈ operandText t i.src, isWhitespace b = false := fun b hb => (hsws b hb).2
    by_cases hd : i.dst = .empty
    · rw [encode, hd, operandsText_dst_empty hs,
        tokenise_of_noSplit hmn hne (ltrim_eq_self hsws)
          (fun r => rtrim_of_noWs hsws r hsne) (by simpa [splitComma] using hssplit [])]
      rfl
    · obtain ⟨hdne, hdws, -⟩ := operandText_facts ht hd hdst
      have hdws : ∀ b ∈ operandText t i.dst, isWhitespace b = false := fun b hb => (hdws b hb).2
      have hsplit : splitComma 0 (operandText t i.src ++ 0x2c#8 :: 0x20#8 :: operandText t i.dst) =
          some (operandText t i.src, 0x20#8 :: operandText t i.dst) := by
        simp [hssplit, splitComma]
      have hend : ∀ r, rtrim (r ++ (operandText t i.src ++ 0x2c#8 :: 0x20#8 :: operandText t i.dst)) =
          r ++ (operandText t i.src ++ 0x2c#8 :: 0x20#8 :: operandText t i.dst) := fun r => by
        simpa using rtrim_of_noWs hdws (r ++ operandText t i.src ++ [0x2c#8, 0x20#8]) hdne
      have hl : rtrim (operandText t i.src) = operandText t i.src := rtrim_of_noWs hsws [] hsne
      have hr : ltrim (0x20#8 :: operandText t i.dst) = operandText t i.dst :=
        (ltrim_blanks (a := [0x20#8]) (by decide) _).trans (ltrim_eq_self hdws)
      rw [encode, operandsText_of_ne_empty hs hd,
        tokenise_of_split hmn hne (ltrim_of_noWs hsws _ hsne) hend hsplit, hl, hr, decide_eq_true hd]

/-- The text of an instruction holds no NUL. -/
theorem encode_noNul {t : Tables} {i : Instr} (ht : t.wf = true) (hi : i.wf t = true) :
    ∀ b ∈ encode t i, b ≠ 0#8 := by
  obtain ⟨hsrc, hdst, hwf, -⟩ := Instr.wf_facts ht hi
  have hmn : ∀ b ∈ spell i.opcode t.mnemonics, b ≠ 0#8 := fun b hb => ((mnemonicWf_iff.mp hwf).2 b hb).1
  have hs : ∀ b ∈ operandText t i.src, b ≠ 0#8 := fun b hb => (operandText_bytes ht hsrc b hb).1
  have hd : ∀ b ∈ operandText t i.dst, b ≠ 0#8 := fun b hb => (operandText_bytes ht hdst b hb).1
  by_cases hse : i.src = .empty
  · simpa [encode, hse, operandsText] using hmn
  · by_cases hde : i.dst = .empty
    · rw [encode, hde, operandsText_dst_empty hse]
      simp only [List.forall_mem_append, List.forall_mem_cons]
      exact ⟨hmn, by decide, hs⟩
    · rw [encode, operandsText_of_ne_empty hse hde]
      simp only [List.forall_mem_append, List.forall_mem_cons]
      exact ⟨hmn, by decide, hs, by decide, by decide, hd⟩

/-- Settles O2: the slot's text is the instruction's (`slotText_padSlot`), its fields are the texts of the
operands (`tokenise_encode`), those parse to the operands (`parseOperand_operandText`), and the form check gives
the instruction back (`operandForm`). -/
theorem decodeOfEncode : Obligations.DecodeOfEncode := by
  intro t w i ht hi _
  obtain ⟨hsrc, hdst, hwf, hlookup⟩ := Instr.wf_facts ht hi
  have htok := tokenise_encode ht hi
  have htext : slotText (encodeSlot t w i) = encode t i := slotText_padSlot (encode_noNul ht hi) w
  have hcheck : textCheck (tokenise (slotText (encodeSlot t w i))) = none := by
    rw [htext, htok]
    refine textCheck_eq_none (fun ⟨hcomma, hempty⟩ => ?_)
      (fun b hb => (operandText_bytes ht hsrc b hb).2) (fun b hb => (operandText_bytes ht hdst b hb).2)
    have hd : i.dst ≠ .empty := of_decide_eq_true hcomma
    exact hempty.elim (operandText_facts ht (fun hs => hd (dst_eq_empty_of_src hs)) hsrc).1
      (operandText_facts ht hd hdst).1
  rw [decode_of_textCheck_none (op := i.opcode) (by rw [htext, htok, hlookup]) hcheck, htext, htok]
  exact decodeOperands_of_formOf_some (parseOperand_operandText ht hsrc) (parseOperand_operandText ht hdst)
    (operandForm i).1

end Sys2Proof.Machine
end

section
/-! The errors of the decoder, in their order (30_encoding.md rules R85, R87, R95, R102 to R104). -/

namespace Sys2Proof.Machine

/-- A slot of whitespace alone has the empty mnemonic. -/
theorem tokenise_blanks_mnemonic {text : Text} (h : Blanks text) : (tokenise text).mnemonic = [] := by
  rw [tokenise, ltrim_nil_of_blanks h]
  rfl

/-- Settles O5: the lookup fails, and does so for the empty mnemonic of a blank slot. -/
theorem unknownMnemonicRejected : Obligations.UnknownMnemonicRejected := by
  refine ⟨fun t slot h => decode_of_lookup_none (lookup_eq_none h), fun t slot h hblanks => ?_⟩
  have hmn := tokenise_blanks_mnemonic hblanks
  rw [decode_of_lookup_none (lookup_eq_none fun e he => hmn ▸ h e he), hmn]

section
variable {tok : Tokens}

/-- 30_encoding.md rule R85: an empty source at a comma. -/
theorem textCheck_of_src_empty (hc : tok.hasComma = true) (hs : tok.src = []) :
    textCheck tok = some ⟨.malformedOperand, .src, tok.src⟩ :=
  if_pos ⟨hc, hs⟩

/-- 30_encoding.md rule R85: an empty destination at a comma. -/
theorem textCheck_of_dst_empty (hc : tok.hasComma = true) (hs : tok.src ≠ []) (hd : tok.dst = []) :
    textCheck tok = some ⟨.malformedOperand, .dst, tok.dst⟩ := by
  rw [textCheck, if_neg fun h => hs h.2, if_pos ⟨hc, hd⟩]

/-- 30_encoding.md rule R85: whitespace in the source. -/
theorem textCheck_of_src_whitespace (hcomma : ¬(tok.hasComma = true ∧ (tok.src = [] ∨ tok.dst = [])))
    (hs : ∃ b ∈ tok.src, isWhitespace b = true) : textCheck tok = some ⟨.malformedOperand, .src, tok.src⟩ := by
  rw [textCheck, if_neg fun h => hcomma ⟨h.1, .inl h.2⟩, if_neg fun h => hcomma ⟨h.1, .inr h.2⟩,
    if_pos (List.any_eq_true.mpr hs)]

/-- 30_encoding.md rule R85: whitespace in the destination. -/
theorem textCheck_of_dst_whitespace (hcomma : ¬(tok.hasComma = true ∧ (tok.src = [] ∨ tok.dst = [])))
    (hs : ∀ b ∈ tok.src, isWhitespace b = false) (hd : ∃ b ∈ tok.dst, isWhitespace b = true) :
    textCheck tok = some ⟨.malformedOperand, .dst, tok.dst⟩ := by
  rw [textCheck, if_neg fun h => hcomma ⟨h.1, .inl h.2⟩, if_neg fun h => hcomma ⟨h.1, .inr h.2⟩,
    if_neg (by simpa using hs), if_pos (List.any_eq_true.mpr hd)]

/-- Every failing text check is a malformed operand, in the field it looks at. -/
theorem textCheck_eq_some {e : DecodeError} (h : textCheck tok = some e) :
    e.kind = .malformedOperand ∧ (e.field = .src ∨ e.field = .dst) := by
  unfold textCheck at h
  split at h
  · cases h; exact ⟨rfl, .inl rfl⟩
  split at h
  · cases h; exact ⟨rfl, .inr rfl⟩
  split at h
  · cases h; exact ⟨rfl, .inl rfl⟩
  split at h
  · cases h; exact ⟨rfl, .inr rfl⟩
  · cases h

end

/-- Without a comma there is no destination (30_encoding.md rule R83). -/
theorem tokenise_dst_of_noComma {text : Text} (h : (tokenise text).hasComma = false) : (tokenise text).dst = [] := by
  simp only [tokenise] at h ⊢
  split at h
  · rfl
  · cases h

/-- Settles O6: one check of `textCheck` each, and the empty operand for an empty text. -/
theorem operandTextChecks : Obligations.OperandTextChecks := by
  rintro t slot op _ rfl hl
  refine ⟨fun hc hs => decode_of_textCheck hl (textCheck_of_src_empty hc hs),
    fun hc hs hd => decode_of_textCheck hl (textCheck_of_dst_empty hc hs hd),
    fun hcomma hs => decode_of_textCheck hl (textCheck_of_src_whitespace hcomma hs),
    fun hcomma hs hd => decode_of_textCheck hl (textCheck_of_dst_whitespace hcomma hs hd),
    fun _ hs => ?_, fun hc => ?_⟩
  · rw [hs, parseOperand]
  · rw [tokenise_dst_of_noComma hc, parseOperand]

/-- Settles O15: the sequence of the decoder's checks, one lemma for each place an error is found. -/
theorem firstErrorInOrder : Obligations.FirstErrorInOrder := by
  rintro t slot _ rfl
  refine ⟨decode_of_lookup_none, fun op hl => ⟨fun e => decode_of_textCheck hl, fun hc => ?_⟩⟩
  rw [decode_of_textCheck_none hl hc]
  exact ⟨fun k x => decodeOperands_of_src_error, fun src k x => decodeOperands_of_dst_error,
    fun src dst => decodeOperands_of_formOf_none⟩

/-- The form check keeps the opcode and the operands. -/
theorem formOf_eq_some {op : Opcode} {src dst : Operand} {i : Instr} (h : formOf op src dst = some i) :
    i.opcode = op ∧ i.src = src ∧ i.dst = dst := by
  cases op <;> cases src <;> cases dst <;> cases h <;> exact ⟨rfl, rfl, rfl⟩

/-- The form check admits a form that 30_encoding.md rule R102 lists: one row per opcode and pair of classes. -/
theorem formOf_isSome (op : Opcode) (src dst : Operand) :
    (formOf op src dst).isSome = decide ((op, src.cls, dst.cls) ∈ admittedForms) := by
  cases op <;> cases src <;> cases dst <;> rfl

/-- Settles O13: the form check keeps what it is given (`formOf_eq_some`), and answers on the listed forms alone
(`formOf_isSome`). Named apart from the model's list `admittedForms`. -/
theorem admittedFormsExact : Obligations.AdmittedForms := by
  refine ⟨fun op src dst i h => ⟨?_, formOf_eq_some h⟩, fun t text op tok src dst hs hd => ⟨fun h => ?_, fun h => ?_⟩⟩
  · exact of_decide_eq_true ((formOf_isSome op src dst).symm.trans (by rw [h]; rfl))
  · obtain ⟨i, hi⟩ := Option.isSome_iff_exists.mp ((formOf_isSome op src dst).trans (decide_eq_true h))
    exact ⟨i, decodeOperands_of_formOf_some hs hd hi, formOf_eq_some hi⟩
  · refine decodeOperands_of_formOf_none hs hd (Option.not_isSome_iff_eq_none.mp ?_)
    rwa [formOf_isSome, decide_eq_true_eq]

/-- The kinds of error an operand text can raise (30_encoding.md rules R90 to R94). -/
def IsOperandErrorKind (k : ErrorKind) : Prop :=
  k = .unknownRegisterName ∨ k = .illegalScale ∨ k = .malformedOperand

section
variable {t : Tables} {whole part : Text} {e : OperandError}

theorem parseReg_error_kind (h : parseReg t whole = .error e) : IsOperandErrorKind e.1 := by
  unfold parseReg at h
  split at h
  · cases h
  · cases h; exact .inl rfl

theorem parseImm_error_kind (h : parseImm whole part = .error e) : IsOperandErrorKind e.1 := by
  unfold parseImm at h
  split at h
  · cases h
  · cases h; exact .inr (.inr rfl)

theorem parseOffset_error_kind (h : parseOffset whole part = .error e) : IsOperandErrorKind e.1 := by
  unfold parseOffset at h
  split at h
  · cases h
  split at h
  · cases h
  · cases h; exact .inr (.inr rfl)

theorem parseRegPart_error_kind (h : parseRegPart t whole part = .error e) : IsOperandErrorKind e.1 := by
  unfold parseRegPart at h
  split at h
  · split at h
    · cases h
    · cases h; exact .inl rfl
  · cases h; exact .inr (.inr rfl)

/-- A scale fails as malformed or as illegal (30_encoding.md rule R93). -/
theorem parseScale_error_kind {k : ErrorKind} (h : parseScale part = .error k) :
    k = .malformedOperand ∨ k = .illegalScale := by
  unfold parseScale at h
  split at h <;> cases h
  · exact .inl rfl
  · exact .inr rfl

theorem parseScalePart_error_kind (h : parseScalePart whole part = .error e) : IsOperandErrorKind e.1 := by
  unfold parseScalePart at h
  split at h
  · cases h
  · cases h; exact .inr (.inl rfl)
  next k hk =>
    cases h
    exact .inr ((parseScale_error_kind hk).symm)

/-- A part that may be absent fails as the part does. -/
theorem parseOptional_error_kind {α : Type} {f : Text → Except OperandError α} {p : Option Text}
    (hf : ∀ {q e}, f q = .error e → IsOperandErrorKind e.1) (h : parseOptional f p = .error e) :
    IsOperandErrorKind e.1 := by
  unfold parseOptional at h
  split at h
  · cases h
  · split at h
    · cases h
    next hq => cases h; exact hf hq

theorem parseShape_error_kind {sh : MemShape} (h : parseShape t whole sh = .error e) : IsOperandErrorKind e.1 := by
  unfold parseShape at h
  split at h
  next ho => cases h; exact parseOffset_error_kind ho
  split at h
  next hb => cases h; exact parseOptional_error_kind parseRegPart_error_kind hb
  split at h
  next hx => cases h; exact parseOptional_error_kind parseRegPart_error_kind hx
  split at h
  next hk => cases h; exact parseOptional_error_kind parseScalePart_error_kind hk
  split at h
  · cases h
  · cases h; exact .inr (.inr rfl)

theorem parseMem_error_kind (h : parseMem t whole = .error e) : IsOperandErrorKind e.1 := by
  unfold parseMem at h
  split at h
  · split at h
    · exact parseShape_error_kind h
    · cases h; exact .inr (.inr rfl)
  · split at h
    · cases h
    · cases h; exact .inr (.inr rfl)

theorem parseOperand_error_kind (h : parseOperand t whole = .error e) : IsOperandErrorKind e.1 := by
  unfold parseOperand at h
  split at h
  · cases h
  split at h
  · exact parseImm_error_kind h
  split at h
  · exact parseReg_error_kind h
  split at h
  · cases h
  next hm => cases h; exact parseMem_error_kind hm

end

/-- Settles O14: the decoder stops at one of its checks, each of which raises its own kind of error in its own
field, or answers an instruction, which is of an admitted form (`operandForm`). -/
theorem everySlotDecodesOrIsRejected : Obligations.EverySlotDecodesOrIsRejected := by
  intro t slot
  cases hl : lookup (tokenise (slotText slot)).mnemonic t.mnemonics with
  | none => exact .inr ⟨_, decode_of_lookup_none hl, .inl ⟨rfl, rfl⟩⟩
  | some op =>
    cases hc : textCheck (tokenise (slotText slot)) with
    | some e =>
      obtain ⟨hkind, hfield⟩ := textCheck_eq_some hc
      exact .inr ⟨e, decode_of_textCheck hl hc, .inr (.inr ⟨.inr (.inr hkind), hfield⟩)⟩
    | none =>
      rw [decode_of_textCheck_none hl hc]
      cases hs : parseOperand t (tokenise (slotText slot)).src with
      | error e =>
        exact .inr ⟨_, decodeOperands_of_src_error hs, .inr (.inr ⟨parseOperand_error_kind hs, .inl rfl⟩)⟩
      | ok src =>
        cases hd : parseOperand t (tokenise (slotText slot)).dst with
        | error e =>
          exact .inr ⟨_, decodeOperands_of_dst_error hs hd, .inr (.inr ⟨parseOperand_error_kind hd, .inr rfl⟩)⟩
        | ok dst =>
          cases hf : formOf op src dst with
          | none => exact .inr ⟨_, decodeOperands_of_formOf_none hs hd hf, .inr (.inl ⟨rfl, rfl⟩)⟩
          | some i => exact .inl ⟨i, decodeOperands_of_formOf_some hs hd hf, (operandForm i).2.1⟩

end Sys2Proof.Machine
end

section
/-! Literals, scales and register tokens (30_encoding.md rules R89 to R91, R93). -/

namespace Sys2Proof.Machine

/-- Every character of a digit is at or past `0`. -/
theorem IsDigit.le_toNat {base : Nat} {c : Byte} {d : Nat} (h : IsDigit base c d) : 48 ≤ c.toNat := by
  have := h.2
  omega

theorem DigitsDenote.le_toNat {base : Nat} {t : Text} {m : Nat} (h : DigitsDenote base t m) :
    ∀ b ∈ t, 48 ≤ b.toNat := by
  obtain ⟨-, ds, hds, -⟩ := h
  induction hds with
  | nil => exact nofun
  | cons hd _ ih => exact List.forall_mem_cons.mpr ⟨hd.le_toNat, ih⟩

/-- The digits and the `x` of `0x` stand at or past `0`: a magnitude holds no sign, `$`, `%`, comma, parenthesis
or blank. -/
theorem MagnitudeDenotes.le_toNat {t : Text} {m : Nat} (h : MagnitudeDenotes t m) : ∀ b ∈ t, 48 ≤ b.toNat := by
  rcases h with h | ⟨ds, ht, h⟩
  · exact h.le_toNat
  · obtain ⟨x, hx, rfl⟩ : ∃ x : Byte, 48 ≤ x.toNat ∧ t = 0x30#8 :: x :: ds := by
      rcases ht with rfl | rfl <;> exact ⟨_, by decide, rfl⟩
    exact List.forall_mem_cons.mpr ⟨by decide, List.forall_mem_cons.mpr ⟨hx, h.le_toNat⟩⟩

/-- A magnitude is not empty. -/
theorem MagnitudeDenotes.ne_nil {t : Text} {m : Nat} (h : MagnitudeDenotes t m) : t ≠ [] := by
  rintro rfl
  rcases h with h | ⟨ds, h | h, -⟩
  · exact h.1 rfl
  · cases h
  · cases h

theorem positiveLit_eq_some {t : Text} {w : Word} :
    positiveLit t = some w ↔ ∃ m, MagnitudeDenotes t m ∧ m ≤ 2 ^ 64 - 1 ∧ w = BitVec.ofNat 64 m := by
  simp only [← parseMagnitude_eq_some]
  cases hm : parseMagnitude t with
  | none => simp [positiveLit, hm]
  | some m => simp [positiveLit, hm, eq_comm]

theorem negativeLit_eq_some {t : Text} {w : Word} :
    negativeLit t = some w ↔
      ∃ m, MagnitudeDenotes t m ∧ m ≤ 2 ^ 63 ∧ w = BitVec.ofNat 64 ((2 ^ 64 - m) % 2 ^ 64) := by
  simp only [← parseMagnitude_eq_some]
  cases hm : parseMagnitude t with
  | none => simp [negativeLit, hm]
  | some m => simp [negativeLit, hm, eq_comm]

/-- A literal reads as the grammar says (30_encoding.md rule R89): after `-` a magnitude cannot stand without
the sign, and without `-` no sign can. -/
theorem parseLit_eq_some {l : Text} {w : Word} : parseLit l = some w ↔ LitDenotes l w := by
  cases l with
  | nil =>
    refine ⟨nofun, ?_⟩
    rintro (⟨m, hm, -⟩ | ⟨u, m, hu, -⟩)
    · exact absurd rfl hm.ne_nil
    · cases hu
  | cons c cs =>
    by_cases hc : c = 0x2d#8
    · subst hc
      rw [parseLit, if_pos rfl, negativeLit_eq_some]
      constructor
      · rintro ⟨m, h⟩
        exact .inr ⟨cs, m, rfl, h⟩
      · rintro (⟨m, hm, -⟩ | ⟨_, m, ⟨⟩, h⟩)
        · have := hm.le_toNat 0x2d#8 (by simp)
          simp at this
        · exact ⟨m, h⟩
    · rw [parseLit, if_neg hc, positiveLit_eq_some]
      refine ⟨.inl, ?_⟩
      rintro (h | ⟨u, m, hu, -⟩)
      · exact h
      · exact absurd (List.cons.inj hu).1 hc

theorem LitDenotes.ne_nil {l : Text} {w : Word} (h : LitDenotes l w) : l ≠ [] := by
  rcases h with ⟨m, hm, -⟩ | ⟨u, m, rfl, -⟩
  · exact hm.ne_nil
  · exact List.cons_ne_nil _ _

/-- A literal is made of the sign and of characters at or past `0`. -/
theorem LitDenotes.bytes {l : Text} {w : Word} (h : LitDenotes l w) : ∀ b ∈ l, b = 0x2d#8 ∨ 48 ≤ b.toNat := by
  rcases h with ⟨m, hm, -⟩ | ⟨u, m, rfl, hm, -⟩
  · exact fun b hb => .inr (hm.le_toNat b hb)
  · exact List.forall_mem_cons.mpr ⟨.inl rfl, fun b hb => .inr (hm.le_toNat b hb)⟩

theorem parseLit_eq_none {l : Text} : parseLit l = none ↔ ∀ w, ¬ LitDenotes l w := by
  simp only [← parseLit_eq_some, Option.eq_none_iff_forall_ne_some]

/-- Settles O7: `parseLit_eq_some`, at the two places a literal stands. -/
theorem literalGrammar : Obligations.LiteralGrammar := by
  refine ⟨fun l w => parseLit_eq_some, fun t l => ⟨fun w hw => ?_, fun hno => ?_, fun whole hl =>
    ⟨fun w hw => ?_, fun hno => ?_⟩⟩⟩
  · rw [parseOperand, if_pos rfl, parseImm, parseLit_eq_some.mpr hw]
  · rw [parseOperand, if_pos rfl, parseImm, parseLit_eq_none.mpr hno]
  · rw [parseOffset, if_neg hl, parseLit_eq_some.mpr hw]
  · rw [parseOffset, if_neg hl, parseLit_eq_none.mpr hno]

/-- Settles O8: the text's digits have a value (`parseDigits_eq_some`), or it is no decimal literal. -/
theorem scaleLiterals : Obligations.ScaleLiterals := by
  intro whole s
  have hval : ∀ {m}, DigitsDenote 10 s m → parseDigits 10 s = some m := (parseDigits_eq_some (by decide) s _).mpr
  refine ⟨fun h => ?_, fun h => ?_, fun h => ?_, fun h => ?_, fun m h h1 h2 h4 h8 => ?_, fun hno => ?_⟩
  case refine_5 => simp [parseScalePart, parseScale, hval h]
  case refine_6 =>
    have : parseDigits 10 s = none := Option.eq_none_iff_forall_ne_some.mpr fun m hm =>
      hno m ((parseDigits_eq_some (by decide) s m).mp hm)
    simp [parseScalePart, parseScale, this]
  all_goals simp [parseScalePart, parseScale, hval h]

/-- Settles O9: a spelling looks up to its view, as no text stands twice in the table. -/
theorem registerOperands : Obligations.RegisterOperands := by
  intro t cs hn
  have hreg : parseOperand t (0x25#8 :: cs) = parseReg t (0x25#8 :: cs) := rfl
  refine ⟨fun v hv => ?_, fun hno => ?_⟩
  · rw [hreg, parseReg, lookup_eq_some hn hv]
  · rw [hreg, parseReg, lookup_eq_none hno]

end Sys2Proof.Machine
end

section
/-! Memory operands: the shape, and then its components from left to right (30_encoding.md rules R88, R92, R94). -/

namespace Sys2Proof.Machine

/-- A text that begins with neither `$` nor `%` is a memory operand (30_encoding.md rule R92). -/
theorem parseOperand_of_mem (t : Tables) {u : Text} (hne : u ≠ []) (hi : u.head? ≠ some 0x24#8)
    (hr : u.head? ≠ some 0x25#8) : parseOperand t u = (parseMem t u).map .mem := by
  cases u with
  | nil => exact absurd rfl hne
  | cons c cs =>
    have hi : c ≠ 0x24#8 := fun h => hi (h ▸ rfl)
    have hr : c ≠ 0x25#8 := fun h => hr (h ▸ rfl)
    rw [parseOperand, if_neg hi, if_neg hr]
    cases parseMem t (c :: cs) <;> rfl

/-- A memory operand with no parenthesis is a literal, or malformed. -/
theorem parseMem_of_noGroup (t : Tables) {u : Text} (h : 0x28#8 ∉ u) :
    (∀ v, LitDenotes u v → parseMem t u = .ok (.imm v)) ∧
      ((∀ v, ¬ LitDenotes u v) → parseMem t u = .error (.malformedOperand, u)) := by
  have hc : ¬ u.contains 0x28#8 = true := by simpa using h
  refine ⟨fun v hv => ?_, fun hno => ?_⟩
  · rw [parseMem, if_neg hc, parseLit_eq_some.mpr hv]
  · rw [parseMem, if_neg hc, parseLit_eq_none.mpr hno]

section
variable {t : Tables} {u : Text}

theorem parseMem_of_memShape_none (h : 0x28#8 ∈ u) (hs : memShape u = none) :
    parseMem t u = .error (.malformedOperand, u) := by
  rw [parseMem, if_pos (by simpa using h), hs]

theorem parseMem_of_memShape_some {sh : MemShape} (h : 0x28#8 ∈ u) (hs : memShape u = some sh) :
    parseMem t u = parseShape t u sh := by
  rw [parseMem, if_pos (by simpa using h), hs]

end

/-! ### Phase 1 -/

/-- The text of a memory operand with a group of parts. -/
def groupText (off : Text) (parts : List Text) : Text :=
  off ++ 0x28#8 :: (List.intercalate [0x2c#8] parts ++ [0x29#8])

/-- Phase 1 takes the group apart again (30_encoding.md rule R94). -/
theorem memShape_groupText {off : Text} {parts : List Text} (hoff : ∀ b ∈ off, b ≠ 0x28#8 ∧ b ≠ 0x29#8)
    (hin : ∀ b ∈ List.intercalate [0x2c#8] parts, b ≠ 0x28#8 ∧ b ≠ 0x29#8) (hne : parts ≠ [])
    (hcomma : ∀ p ∈ parts, 0x2c#8 ∉ p) : memShape (groupText off parts) = partShape off parts := by
  rw [groupText, memShape_group hoff hin, splitCommas_intercalate hne hcomma]

/-- The shapes of phase 1, step 3 (30_encoding.md rule R94). -/
theorem partShape_eq_none {off : Text} {parts : List Text} (h : ¬ AdmittedParts parts) :
    partShape off parts = none := by
  unfold partShape
  split
  next r => exact if_neg fun hr => h (.inl ⟨r, rfl, hr⟩)
  next r x => exact if_neg fun hrx => h (.inr (.inl ⟨r, x, rfl, hrx⟩))
  next r x s => exact if_neg fun hx => h (.inr (.inr ⟨r, x, s, rfl, hx⟩))
  next => rfl

/-- The base of three parts, as phase 1 gives it: absent where its part is empty. -/
def basePart (r : Text) : Option Text := if r = [] then none else some r

theorem partShape_base {off r : Text} (hr : r ≠ []) : partShape off [r] = some ⟨off, some r, none, none⟩ :=
  if_pos hr

theorem partShape_base_index {off r x : Text} (hr : r ≠ []) (hx : x ≠ []) :
    partShape off [r, x] = some ⟨off, some r, some x, none⟩ :=
  if_pos ⟨hr, hx⟩

theorem partShape_scale {off r x s : Text} (hx : x ≠ []) :
    partShape off [r, x, s] = some ⟨off, basePart r, some x, some s⟩ :=
  if_pos hx

/-! ### Phase 2 -/

/-- A register part that is a spelling reads as its view. -/
theorem parseRegPart_of_mem {t : Tables} (ht : t.wf = true) {p : Text} {v : View} (h : (p, v) ∈ t.registers)
    (whole : Text) : parseRegPart t whole p = .ok v := by
  obtain ⟨hspell, hnodup, -⟩ := Tables.wf_iff ht
  rw [parseRegPart, if_pos (plain_spelling (hspell _ h)).2, lookup_eq_some hnodup h]

theorem parseRegPart_of_head_ne {t : Tables} {whole p : Text} (h : p.head? ≠ some 0x25#8) :
    parseRegPart t whole p = .error (.malformedOperand, whole) :=
  if_neg h

theorem parseRegPart_of_unknown {t : Tables} {whole p : Text} (hp : p.head? = some 0x25#8) (h : ¬ RegisterOk t p) :
    parseRegPart t whole p = .error (.unknownRegisterName, p) := by
  have hl : lookup p t.registers = none := lookup_eq_none fun e he hep => h ⟨e.2, hep ▸ he⟩
  rw [parseRegPart, if_pos hp, hl]

theorem parseOffset_of_denotes {off : Text} {v : Word} (h : LitDenotes off v) (whole : Text) :
    parseOffset whole off = .ok (some v) := by
  rw [parseOffset, if_neg h.ne_nil, parseLit_eq_some.mpr h]

theorem parseOffset_of_ok {off : Text} (h : OffsetOk off) (whole : Text) : ∃ i, parseOffset whole off = .ok i := by
  rcases h with rfl | ⟨v, hv⟩
  · exact ⟨none, rfl⟩
  · exact ⟨some v, parseOffset_of_denotes hv whole⟩

theorem parseOffset_of_not_ok {off : Text} (h : ¬ OffsetOk off) (whole : Text) :
    parseOffset whole off = .error (.malformedOperand, whole) := by
  obtain ⟨hne, hno⟩ := not_or.mp h
  rw [parseOffset, if_neg hne, parseLit_eq_none.mpr (not_exists.mp hno)]

theorem parseOptional_some_ok {α : Type} {f : Text → Except OperandError α} {p : Text} {a : α} (h : f p = .ok a) :
    parseOptional f (some p) = .ok (some a) := by
  rw [parseOptional, h]

theorem parseOptional_some_error {α : Type} {f : Text → Except OperandError α} {p : Text} {e : OperandError}
    (h : f p = .error e) : parseOptional f (some p) = .error e := by
  rw [parseOptional, h]

section
variable {t : Tables} {whole : Text} {sh : MemShape} {i : Option Word} {b x : Option View} {k : Option Scale}
  {e : OperandError}

theorem parseShape_of_offset_error (hi : parseOffset whole sh.offset = .error e) :
    parseShape t whole sh = .error e := by
  rw [parseShape, hi]

theorem parseShape_of_base_error (hi : parseOffset whole sh.offset = .ok i)
    (hb : parseOptional (parseRegPart t whole) sh.base = .error e) : parseShape t whole sh = .error e := by
  simp only [parseShape, hi, hb]

theorem parseShape_of_index_error (hi : parseOffset whole sh.offset = .ok i)
    (hb : parseOptional (parseRegPart t whole) sh.base = .ok b)
    (hx : parseOptional (parseRegPart t whole) sh.index = .error e) : parseShape t whole sh = .error e := by
  simp only [parseShape, hi, hb, hx]

theorem parseShape_of_scale_error (hi : parseOffset whole sh.offset = .ok i)
    (hb : parseOptional (parseRegPart t whole) sh.base = .ok b)
    (hx : parseOptional (parseRegPart t whole) sh.index = .ok x)
    (hk : parseOptional (parseScalePart whole) sh.scale = .error e) : parseShape t whole sh = .error e := by
  simp only [parseShape, hi, hb, hx, hk]

theorem parseShape_of_ok {m : MemOp} (hi : parseOffset whole sh.offset = .ok i)
    (hb : parseOptional (parseRegPart t whole) sh.base = .ok b)
    (hx : parseOptional (parseRegPart t whole) sh.index = .ok x)
    (hk : parseOptional (parseScalePart whole) sh.scale = .ok k) (hm : memTag i b x k = some m) :
    parseShape t whole sh = .ok m := by
  simp only [parseShape, hi, hb, hx, hk, hm]

end

/-! ### The nine texts -/

/-- A character at or past `0` ends no operand. -/
theorem isPlain_of_le {b : Byte} (h : 48 ≤ b.toNat) : isPlain b = true := by
  have hne : ∀ {c : Byte}, c.toNat < 48 → b ≠ c := by
    rintro c hc rfl
    omega
  simp [isPlain, hne]

/-- An offset is plain and marks no immediate and no register. -/
theorem OffsetOk.bytes {off : Text} (h : OffsetOk off) :
    ∀ b ∈ off, isPlain b = true ∧ b ≠ 0x24#8 ∧ b ≠ 0x25#8 := by
  rcases h with rfl | ⟨v, hv⟩
  · exact nofun
  · intro b hb
    rcases hv.bytes b hb with rfl | hle
    · decide
    · refine ⟨isPlain_of_le hle, ?_, ?_⟩ <;> rintro rfl <;> simp at hle

/-- A spelling of well-formed tables is plain and not empty. -/
theorem plain_of_mem_registers {t : Tables} (ht : t.wf = true) {p : Text} {v : View} (h : (p, v) ∈ t.registers) :
    Plain p ∧ p ≠ [] := by
  obtain ⟨hplain, hhead⟩ := plain_spelling ((Tables.wf_iff ht).1 _ h)
  exact ⟨hplain, fun hp => by simp [hp] at hhead⟩

/-- What the parts of a group may hold, the group may hold, and commas. -/
theorem mem_intercalate_comma {parts : List Text} {b : Byte} (h : b ∈ List.intercalate [0x2c#8] parts) :
    b = 0x2c#8 ∨ ∃ p ∈ parts, b ∈ p := by
  induction parts with
  | nil => cases h
  | cons p ps ih =>
    cases ps with
    | nil => exact .inr ⟨p, by simp, by simpa using h⟩
    | cons q qs =>
      simp only [List.intercalate_cons_cons, List.mem_append, List.mem_singleton] at h
      rcases h with (h | h) | h
      · exact .inr ⟨p, by simp, h⟩
      · exact .inl h
      · exact (ih h).imp_right fun ⟨r, hr, hb⟩ => ⟨r, by simp [hr], hb⟩

/-- The text of a group with a literal or no offset and plain parts parses to what its shape parses to. -/
theorem parseOperand_groupText {t : Tables} {off : Text} {parts : List Text} {sh : MemShape} {m : MemOp}
    (hoff : OffsetOk off) (hne : parts ≠ []) (hparts : ∀ p ∈ parts, Plain p) (hsh : partShape off parts = some sh)
    (hm : ∀ whole, parseShape t whole sh = .ok m) : parseOperand t (groupText off parts) = .ok (.mem m) := by
  have hin : ∀ b ∈ List.intercalate [0x2c#8] parts, b ≠ 0x28#8 ∧ b ≠ 0x29#8 := fun b hb => by
    rcases mem_intercalate_comma hb with rfl | ⟨p, hp, hb⟩
    · decide
    · exact (hparts p hp).noParen b hb
  have hshape : memShape (groupText off parts) = some sh := by
    have hoffPlain : Plain off := fun b hb => (hoff.bytes b hb).1
    rw [memShape_groupText hoffPlain.noParen hin hne fun p hp hc => (hparts p hp).noComma _ hc rfl, hsh]
  have hhead : ∀ c, (groupText off parts).head? = some c → c ≠ 0x24#8 ∧ c ≠ 0x25#8 := fun c hc => by
    cases off with
    | nil =>
      obtain rfl : 0x28#8 = c := Option.some.inj hc
      decide
    | cons b off =>
      obtain rfl : b = c := Option.some.inj hc
      exact (hoff.bytes b (by simp)).2
  rw [parseOperand_of_mem t (by simp [groupText]) (fun h => (hhead _ h).1 rfl) (fun h => (hhead _ h).2 rfl),
    parseMem_of_memShape_some (by simp [groupText]) hshape, hm]
  rfl

section
variable {t : Tables} {off rb rx s : Text} {i : Option Word} {b x : View} {k : Scale} {m : MemOp}

/-- `off(rb)` -/
theorem parseOperand_base (ht : t.wf = true) (hoff : OffsetOk off) (hi : ∀ whole, parseOffset whole off = .ok i)
    (hb : (rb, b) ∈ t.registers) (hm : memTag i (some b) none none = some m) :
    parseOperand t (groupText off [rb]) = .ok (.mem m) := by
  obtain ⟨hbp, hbne⟩ := plain_of_mem_registers ht hb
  exact parseOperand_groupText hoff (by simp) (by simpa using hbp) (partShape_base hbne) fun whole =>
    parseShape_of_ok (hi whole) (parseOptional_some_ok (parseRegPart_of_mem ht hb whole)) rfl rfl hm

/-- `off(rb,rx)` -/
theorem parseOperand_base_index (ht : t.wf = true) (hoff : OffsetOk off)
    (hi : ∀ whole, parseOffset whole off = .ok i) (hb : (rb, b) ∈ t.registers) (hx : (rx, x) ∈ t.registers)
    (hm : memTag i (some b) (some x) none = some m) : parseOperand t (groupText off [rb, rx]) = .ok (.mem m) := by
  obtain ⟨hbp, hbne⟩ := plain_of_mem_registers ht hb
  obtain ⟨hxp, hxne⟩ := plain_of_mem_registers ht hx
  exact parseOperand_groupText hoff (by simp) (by simpa using ⟨hbp, hxp⟩) (partShape_base_index hbne hxne)
    fun whole => parseShape_of_ok (hi whole) (parseOptional_some_ok (parseRegPart_of_mem ht hb whole))
      (parseOptional_some_ok (parseRegPart_of_mem ht hx whole)) rfl hm

/-- `off(,rx,s)` -/
theorem parseOperand_index_scale (ht : t.wf = true) (hoff : OffsetOk off)
    (hi : ∀ whole, parseOffset whole off = .ok i) (hx : (rx, x) ∈ t.registers) (hs : Plain s)
    (hk : ∀ whole, parseScalePart whole s = .ok k) (hm : memTag i none (some x) (some k) = some m) :
    parseOperand t (groupText off [[], rx, s]) = .ok (.mem m) := by
  obtain ⟨hxp, hxne⟩ := plain_of_mem_registers ht hx
  exact parseOperand_groupText hoff (by simp) (by simpa using ⟨plain_nil, hxp, hs⟩) (partShape_scale hxne)
    fun whole => parseShape_of_ok (hi whole) rfl (parseOptional_some_ok (parseRegPart_of_mem ht hx whole))
      (parseOptional_some_ok (hk whole)) hm

/-- `off(rb,rx,s)` -/
theorem parseOperand_base_index_scale (ht : t.wf = true) (hoff : OffsetOk off)
    (hi : ∀ whole, parseOffset whole off = .ok i) (hb : (rb, b) ∈ t.registers) (hx : (rx, x) ∈ t.registers)
    (hs : Plain s) (hk : ∀ whole, parseScalePart whole s = .ok k)
    (hm : memTag i (some b) (some x) (some k) = some m) :
    parseOperand t (groupText off [rb, rx, s]) = .ok (.mem m) := by
  obtain ⟨hbp, hbne⟩ := plain_of_mem_registers ht hb
  obtain ⟨hxp, hxne⟩ := plain_of_mem_registers ht hx
  have hbase : basePart rb = some rb := if_neg hbne
  exact parseOperand_groupText hoff (by simp) (by simpa using ⟨hbp, hxp, hs⟩) (hbase ▸ partShape_scale hxne)
    fun whole => parseShape_of_ok (hi whole) (parseOptional_some_ok (parseRegPart_of_mem ht hb whole))
      (parseOptional_some_ok (parseRegPart_of_mem ht hx whole)) (parseOptional_some_ok (hk whole)) hm

end

/-- A literal holds no parenthesis and marks no immediate and no register, so it is an address. -/
theorem parseOperand_literal (t : Tables) {l : Text} {v : Word} (h : LitDenotes l v) :
    parseOperand t l = .ok (.mem (.imm v)) := by
  have hbytes := OffsetOk.bytes (.inr ⟨v, h⟩)
  have hhead : ∀ c, l.head? = some c → c ≠ 0x24#8 ∧ c ≠ 0x25#8 := fun c hc => (hbytes c (List.mem_of_head? hc)).2
  have hno : 0x28#8 ∉ l := fun hm => absurd (hbytes _ hm).1 (by decide)
  rw [parseOperand_of_mem t h.ne_nil (fun hc => (hhead _ hc).1 rfl) (fun hc => (hhead _ hc).2 rfl),
    (parseMem_of_noGroup t hno).1 v h]
  rfl

/-- A decimal literal of a scale reads as the scale (30_encoding.md rule R93). -/
theorem parseScalePart_of_denotes {s : Text} {k : Scale}
    (h : k = .one ∧ DigitsDenote 10 s 1 ∨ k = .two ∧ DigitsDenote 10 s 2 ∨ k = .four ∧ DigitsDenote 10 s 4 ∨
      k = .eight ∧ DigitsDenote 10 s 8) : Plain s ∧ ∀ whole, parseScalePart whole s = .ok k := by
  have hplain : ∀ {m}, DigitsDenote 10 s m → Plain s := fun hd b hb => isPlain_of_le (hd.le_toNat b hb)
  rcases h with ⟨rfl, hd⟩ | ⟨rfl, hd⟩ | ⟨rfl, hd⟩ | ⟨rfl, hd⟩ <;> refine ⟨hplain hd, fun whole => ?_⟩
  · exact (scaleLiterals whole s).1 hd
  · exact (scaleLiterals whole s).2.1 hd
  · exact (scaleLiterals whole s).2.2.1 hd
  · exact (scaleLiterals whole s).2.2.2.1 hd

/-- Settles O10: the literal alone, and the four part shapes, each with no offset and with the literal. -/
theorem memoryOperandTexts : Obligations.MemoryOperandTexts := by
  intro t l rb rx s v b x k ht hl hb hx hk
  obtain ⟨hs, hk⟩ := parseScalePart_of_denotes hk
  have ho : OffsetOk [] := .inl rfl
  have ho' : OffsetOk l := .inr ⟨v, hl⟩
  have hi : ∀ whole, parseOffset whole [] = .ok none := fun _ => rfl
  have hi' := parseOffset_of_denotes hl
  refine ⟨parseOperand_literal t hl, ?_, ?_, ?_, ?_, ?_, ?_, ?_, ?_⟩
  · simpa [groupText] using parseOperand_base ht ho hi hb rfl
  · simpa [groupText] using parseOperand_base ht ho' hi' hb rfl
  · simpa [groupText] using parseOperand_base_index ht ho hi hb hx rfl
  · simpa [groupText] using parseOperand_base_index ht ho' hi' hb hx rfl
  · simpa [groupText] using parseOperand_index_scale ht ho hi hx hs hk rfl
  · simpa [groupText] using parseOperand_index_scale ht ho' hi' hx hs hk rfl
  · simpa [groupText] using parseOperand_base_index_scale ht ho hi hb hx hs hk rfl
  · simpa [groupText] using parseOperand_base_index_scale ht ho' hi' hb hx hs hk rfl

/-! ### The errors -/

/-- Admitted parts have a shape with the offset as it stands. -/
theorem partShape_of_admitted {parts : List Text} (h : AdmittedParts parts) (off : Text) :
    ∃ sh, partShape off parts = some sh ∧ sh.offset = off := by
  rcases h with ⟨r, rfl, hr⟩ | ⟨r, x, rfl, hr, hx⟩ | ⟨r, x, s, rfl, hx⟩
  · exact ⟨_, partShape_base hr, rfl⟩
  · exact ⟨_, partShape_base_index hr hx, rfl⟩
  · exact ⟨_, partShape_scale hx, rfl⟩

/-- An element of a list of two is the first, or the second after the first. -/
theorem pair_eq_append_cons {α : Type} {r x p : α} {before after : List α} (h : [r, x] = before ++ p :: after) :
    before = [] ∧ p = r ∨ before = [r] ∧ p = x := by
  rcases before with - | ⟨q, - | ⟨q', before⟩⟩
  · exact .inl ⟨rfl, (List.cons.inj h).1.symm⟩
  · obtain ⟨rfl, htail⟩ := List.cons.inj h
    exact .inr ⟨rfl, (List.cons.inj htail).1.symm⟩
  · simp at h

/-- A register part that is there is the base, or the index after the base's part, which may be empty. -/
theorem base_or_index_of_part {off p : Text} {parts before after : List Text} {sh : MemShape}
    (ha : AdmittedParts parts) (hsh : partShape off parts = some sh) (hsplit : parts.take 2 = before ++ p :: after)
    (hp : p ≠ []) :
    (before = [] ∧ sh.base = some p) ∨ ∃ q, before = [q] ∧ sh.base = basePart q ∧ sh.index = some p := by
  rcases ha with ⟨r, rfl, hr⟩ | ⟨r, x, rfl, hr, hx⟩ | ⟨r, x, s, rfl, hx⟩
  · cases hsh.symm.trans (partShape_base hr)
    obtain ⟨rfl, rfl, -⟩ : before = [] ∧ p = r ∧ after = [] := by
      simpa [List.singleton_eq_append_iff] using hsplit
    exact .inl ⟨rfl, rfl⟩
  · cases hsh.symm.trans (partShape_base_index hr hx)
    rcases pair_eq_append_cons hsplit with ⟨rfl, rfl⟩ | ⟨rfl, rfl⟩
    · exact .inl ⟨rfl, rfl⟩
    · exact .inr ⟨r, rfl, (if_neg hr).symm, rfl⟩
  · cases hsh.symm.trans (partShape_scale hx)
    rcases pair_eq_append_cons hsplit with ⟨rfl, rfl⟩ | ⟨rfl, rfl⟩
    · exact .inl ⟨rfl, if_neg hp⟩
    · exact .inr ⟨r, rfl, rfl, rfl⟩

/-- A base part that is empty or a spelling does not fail. -/
theorem parseOptional_basePart {t : Tables} (ht : t.wf = true) {q : Text} (h : q = [] ∨ RegisterOk t q)
    (whole : Text) : ∃ b, parseOptional (parseRegPart t whole) (basePart q) = .ok b := by
  by_cases hq : q = []
  · exact ⟨none, by rw [basePart, if_pos hq]; rfl⟩
  · obtain ⟨v, hv⟩ := h.resolve_left hq
    exact ⟨some v, by rw [basePart, if_neg hq, parseOptional_some_ok (parseRegPart_of_mem ht hv whole)]⟩

/-- The first register part that fails is reported. -/
theorem parseShape_of_part_error {t : Tables} (ht : t.wf = true) {whole p : Text} {parts before after : List Text}
    {sh : MemShape} {e : OperandError} (ha : AdmittedParts parts) (ho : OffsetOk sh.offset)
    (hsh : partShape sh.offset parts = some sh) (hsplit : parts.take 2 = before ++ p :: after) (hp : p ≠ [])
    (hbefore : ∀ q ∈ before, q = [] ∨ RegisterOk t q) (he : parseRegPart t whole p = .error e) :
    parseShape t whole sh = .error e := by
  obtain ⟨i, hi⟩ := parseOffset_of_ok ho whole
  rcases base_or_index_of_part ha hsh hsplit hp with ⟨-, hbase⟩ | ⟨q, rfl, hbase, hindex⟩
  · exact parseShape_of_base_error hi (hbase ▸ parseOptional_some_error he)
  · obtain ⟨b, hb⟩ := parseOptional_basePart ht (hbefore q (by simp)) whole
    exact parseShape_of_index_error hi (hbase ▸ hb) (hindex ▸ parseOptional_some_error he)

/-- A scale that fails is reported after an offset and register parts that do not. -/
theorem parseShape_of_scale_part_error {t : Tables} (ht : t.wf = true) {whole off r x s : Text} {e : OperandError}
    (ho : OffsetOk off) (hr : r = [] ∨ RegisterOk t r) (hx : RegisterOk t x) (he : parseScalePart whole s = .error e) :
    parseShape t whole ⟨off, basePart r, some x, some s⟩ = .error e := by
  obtain ⟨i, hi⟩ := parseOffset_of_ok ho whole
  obtain ⟨b, hb⟩ := parseOptional_basePart ht hr whole
  obtain ⟨v, hv⟩ := hx
  exact parseShape_of_scale_error hi hb (parseOptional_some_ok (parseRegPart_of_mem ht hv whole))
    (parseOptional_some_error he)

/-- Settles O11: with no group the text is a literal or malformed; with one, phase 1 gives its shape, and the
first component of the shape that fails is reported. -/
theorem memoryOperandErrors : Obligations.MemoryOperandErrors := by
  intro t u ht hne himm hreg
  refine ⟨fun hno => ?_, fun hmem hcount => ?_, ?_⟩
  · obtain ⟨hok, herr⟩ := parseMem_of_noGroup t hno
    rw [parseOperand_of_mem t hne himm hreg]
    exact ⟨fun v hv => by rw [hok v hv]; rfl, fun h => by rw [herr h]; rfl⟩
  · rw [parseOperand_of_mem t hne himm hreg, parseMem_of_memShape_none hmem (if_neg hcount)]
    rfl
  rintro off _ parts hu hoff hin hparts hcomma rfl
  have hmem : 0x28#8 ∈ u := by simp [hu]
  have hshape : memShape u = partShape off parts := by
    rw [hu]
    exact memShape_groupText hoff hin hparts hcomma
  have hraise : ∀ {sh e}, partShape off parts = some sh → parseShape t u sh = .error e →
      parseOperand t u = .error e := fun hsh he => by
    rw [parseOperand_of_mem t hne himm hreg, parseMem_of_memShape_some hmem (hshape.trans hsh), he]
    rfl
  refine ⟨fun hna => ?_, fun ha hno => ?_, fun ha ho before after p hsplit hp hbefore => ?_,
    fun r x s hrxs ho hr hx => ?_⟩
  · rw [parseOperand_of_mem t hne himm hreg,
      parseMem_of_memShape_none hmem (hshape.trans (partShape_eq_none hna))]
    rfl
  · obtain ⟨sh, hsh, rfl⟩ := partShape_of_admitted ha off
    exact hraise hsh (parseShape_of_offset_error (parseOffset_of_not_ok hno u))
  · obtain ⟨sh, hsh, rfl⟩ := partShape_of_admitted ha off
    have hpart : ∀ {e}, parseRegPart t u p = .error e → parseOperand t u = .error e := fun he =>
      hraise hsh (parseShape_of_part_error ht ha ho hsh hsplit hp hbefore he)
    exact ⟨fun hhead => hpart (parseRegPart_of_head_ne hhead),
      fun hhead hunknown => hpart (parseRegPart_of_unknown hhead hunknown)⟩
  · subst hrxs
    obtain ⟨v, hv⟩ := hx
    have hsh : partShape off [r, x, s] = _ := partShape_scale (plain_of_mem_registers ht hv).2
    have hscale : ∀ {e}, parseScalePart u s = .error e → parseOperand t u = .error e := fun he =>
      hraise hsh (parseShape_of_scale_part_error ht ho hr ⟨v, hv⟩ he)
    obtain ⟨-, -, -, -, hillegal, hmalformed⟩ := scaleLiterals u s
    exact ⟨fun hno => hscale (hmalformed hno), fun m hd h1 h2 h4 h8 => hscale (hillegal m hd h1 h2 h4 h8)⟩

end Sys2Proof.Machine
end

section
/-! Operands and their addresses (30_encoding.md rules R97 to R99). -/

namespace Sys2Proof.Machine

/-- Settles O18: an address target is used as it is, so the memory forms are the immediate forms of it. -/
theorem operandDecode : Obligations.OperandDecode := by
  refine fun s => ⟨rfl, fun _ => rfl, fun _ => rfl, fun m a => ⟨fun h => ?_, fun h => h.1 ▸ rfl⟩⟩
  obtain rfl : s.effectiveAddress m = a := Decoded.address.inj h
  exact ⟨rfl, rfl, rfl, rfl⟩

/-- The factor of a scale is the only word that is 1, 2, 4 or 8 with it (30_encoding.md rule R93). -/
theorem scaleFactor_eq {k : Scale} {f : Word} (h1 : k = .one → f = 1#64) (h2 : k = .two → f = 2#64)
    (h4 : k = .four → f = 4#64) (h8 : k = .eight → f = 8#64) : f = scaleFactor k := by
  cases k with
  | one => exact h1 rfl
  | two => exact h2 rfl
  | four => exact h4 rfl
  | eight => exact h8 rfl

/-- Settles O19: an absent component of the address is 0, and an index with no scale counts once. -/
theorem effectiveAddress : Obligations.EffectiveAddress := by
  intro s i b x k f h1 h2 h4 h8
  obtain rfl := scaleFactor_eq h1 h2 h4 h8
  simp [State.effectiveAddress, immOf, baseOf, indexOf]

end Sys2Proof.Machine
end

section
/-! Fetch, and the cycle by what it fetches and decodes (40_dispatch.md rules R131, R138; 60_exceptions.md
rules R211, R212, R214). -/

namespace Sys2Proof.Machine

/-- Fetch finds slot `k` exactly at `base + k * W`, as natural numbers (40_dispatch.md rule R131). -/
theorem fetchSlot_eq_some {c : Config} {pc : Word} {slot : Text} (hw : 0 < c.slotWidth) :
    fetchSlot c pc = some slot ↔
      ∃ k, c.program.slots[k]? = some slot ∧ c.program.base.toNat + k * c.slotWidth = pc.toNat :=
  slotAt_eq_some hw

/-- Fetch finds nothing at a pc that is no slot's address (40_dispatch.md rule R131). -/
theorem fetchSlot_eq_none {c : Config} {pc : Word}
    (h : ∀ k, k < c.program.slots.length → c.program.base.toNat + k * c.slotWidth ≠ pc.toNat) :
    fetchSlot c pc = none :=
  slotAt_eq_none h

/-- The slots of a well-formed program do not wrap (40_dispatch.md rule R131). -/
theorem programEnd_le_of_wf {c : Config} (h : c.wf = true) :
    c.program.base.toNat + c.program.slots.length * c.slotWidth ≤ 2 ^ 64 := by
  simp only [Config.wf, Program.wf, Bool.and_eq_true, decide_eq_true_eq] at h
  obtain ⟨⟨⟨⟨-, -, hend⟩, -⟩, -⟩, -⟩ := h
  exact hend

section
variable {s : State} {slot : Text} (he : s.error = none) (hx : s.pc ≠ s.config.exitPc)
include he hx

/-- 40_dispatch.md rule R138, a failed fetch. -/
theorem step_of_fetchSlot_none (hf : fetchSlot s.config s.pc = none) : step s = raise s (fetchError s) := by
  rw [step_of_running he hx, hf]

/-- 40_dispatch.md rule R138, a slot that does not decode. -/
theorem step_of_decode_error {e : DecodeError} (hf : fetchSlot s.config s.pc = some slot)
    (hd : decode s.config.tables slot = .error e) : step s = raise s (parseError e) := by
  simp only [step_of_running he hx, hf, hd]

/-- 40_dispatch.md rule R138, a slot that decodes. -/
theorem step_of_decode_ok {i : Instr} (hf : fetchSlot s.config s.pc = some slot)
    (hd : decode s.config.tables slot = .ok i) : step s = exec i s := by
  simp only [step_of_running he hx, hf, hd]

end

/-- Settles O23: the slot list searched by `fetchSlot_eq_some`, its end by `programEnd_le_of_wf`, and the
record of the failed fetch. -/
theorem fetchRule : Obligations.FetchRule := by
  refine ⟨fun _ _ _ => fetchSlot_eq_some, fun _ => programEnd_le_of_wf, fun s he hx hno => ?_⟩
  have hf : fetchSlot s.config s.pc = none := fetchSlot_eq_none hno
  have htext : s.fetchedText = none := by rw [State.fetchedText, hf, Option.map_none]
  exact ⟨recordOf s (fetchError s), step_of_fetchSlot_none he hx hf, rfl, rfl, rfl, htext, rfl, rfl⟩

/-- Settles O50, by `step_of_decode_ok`. -/
theorem stepRunsDecodedInstruction : Obligations.StepRunsDecodedInstruction :=
  fun _ _ _ he hx => step_of_decode_ok he hx

/-- Settles O51: the record raised is the parser's error with the pc and the text of the fetched slot. -/
theorem stepRaisesDecodeError : Obligations.StepRaisesDecodeError := by
  intro s slot e he hx hf hd
  have htext : s.fetchedText = some (slotText slot) := by rw [State.fetchedText, hf, Option.map_some]
  exact ⟨recordOf s (parseError e), step_of_decode_error he hx hf hd, rfl, rfl, htext, rfl, rfl, rfl, rfl⟩

/-- Settles O52, by the two cases of a cycle that executes nothing. -/
theorem noStepAfterErrorOrAtExit : Obligations.NoStepAfterErrorOrAtExit :=
  fun _ => ⟨fun _ => step_of_error, fun he hx => step_of_isFinal ⟨he, hx⟩⟩

end Sys2Proof.Machine
end

section
/-! Flags last one instruction (40_dispatch.md rule R136). -/

namespace Sys2Proof.Machine

/-- An instruction that completes and is not ADD, SUB or CMP clears the flags, whatever its access answered. -/
theorem exec_next_flags {i : Instr} {s t : State} (h : exec i s = .next t) (hi : setsFlags i.opcode = false) :
    t.flags = Flags.zero := by
  cases i
  case addRR | subIR | cmpIM => cases hi
  case movRR | movIR | jneI | jneM | jmpI | jmpM =>
    obtain rfl := Host.Outcome.next.inj h
    rfl
  case movRM | movMR | pushR | callI | callM =>
    obtain ⟨_, -, rfl⟩ := map_eq_ok.mp (commit_eq_next.mp h)
    rfl
  case popR | leave | ret =>
    obtain ⟨-, rfl⟩ := State.pop_eq_ok (commit_eq_next.mp h)
    rfl

/-- Settles O45, by `exec_next_flags`. -/
theorem flagsLastOneInstruction : Obligations.FlagsLastOneInstruction :=
  fun _ _ _ => exec_next_flags

end Sys2Proof.Machine
end

section
/-! An access and the continuation committed with it (40_dispatch.md rule R137). -/

namespace Sys2Proof.Machine

section
variable {α : Type} {s : State} {b : AccessBy} {r : Except MemFault α} (f : α → State)

/-- An access that succeeds commits the state its continuation gives. -/
theorem commit_map_of_ok {x : α} (h : r = .ok x) : commit s b (r.map f) = .next (f x) := by
  rw [h, map_ok, commit_ok]

/-- An access that fails discards its continuation and raises its own error. -/
theorem raisesMemory_commit_map {k : ErrorKind} {a : Word} (h : r = .error ⟨k, a, s.physical a⟩) :
    RaisesMemory (commit s b (r.map f)) s k a := by
  rw [h, map_error, commit_error]
  exact raisesMemory_raise s b k a

end

end Sys2Proof.Machine
end

section
/-! MOV (41_mov.md rules R150 to R153): three forms write a view, the fourth stores. -/

namespace Sys2Proof.Machine

/-- What MOV to a register leaves, whichever source the value came from. -/
theorem movToView_effect (s : State) (l : View) (v : Word) {t : State}
    (ht : t = (s.writeView l v).clearFlags.advance) :
    ViewWritten l v s.reg t ∧ t.flags = Flags.zero ∧ t.pc = s.pc + BitVec.ofNat 64 s.config.slotWidth ∧
      SameMemory s t ∧ SameRest s t := by
  subst ht
  exact ⟨(viewWritten_writeView s l v).of_regs rfl, rfl, rfl, fun _ => rfl, rfl, rfl⟩

/-- Settles O24, by `movToView_effect` for the source view's value. -/
theorem movRegisterRegister : Obligations.MovRegisterRegister :=
  fun src dst s => ⟨_, rfl, movToView_effect s dst (s.readView src) rfl⟩

/-- Settles O27, by `movToView_effect` for the immediate's pattern. -/
theorem movImmediateRegister : Obligations.MovImmediateRegister :=
  fun imm dst s => ⟨_, rfl, movToView_effect s dst imm rfl⟩

/-- Settles O26: a load in range is `movToView_effect` for the loaded value; any other raises its error. -/
theorem movMemoryRegister : Obligations.MovMemoryRegister := by
  refine fun src dst s => ⟨fun hreadable => ?_, fun hpast => ?_⟩
  · exact ⟨_, _, loadedFrom_load64 s _, commit_map_of_ok _ (State.memRead_of_inRange hreadable),
      movToView_effect s dst _ rfl⟩
  · exact raisesMemory_commit_map _ (State.memRead_of_not_inRange hpast)

/-- Settles O25: the store is allowed, out of range, or in range and touches the code region. -/
theorem movRegisterMemory : Obligations.MovRegisterMemory := by
  refine fun src dst s hm => ⟨fun hwritable => ?_, fun hpast => ?_, fun hrange hcode => ?_⟩
  · exact ⟨_, commit_map_of_ok _ (State.memWrite_of_writable (s.readView src) hwritable),
      storedAt_store64 hm _ _ rfl, fun _ => rfl, rfl, rfl, rfl, rfl⟩
  · exact raisesMemory_commit_map _ (State.memWrite_of_not_inRange _ hpast)
  · exact raisesMemory_commit_map _ (State.memWrite_of_touchesCode _ hrange hcode)

end Sys2Proof.Machine
end

section
/-! The stack (42_stack.md rules R160 to R163): a push is a store below SP, a pop is a load at SP. -/

namespace Sys2Proof.Machine

/-! ### PUSH -/

/-- Settles O28: the store at SP - 8 is allowed, out of range, or in range and touches the code region. The
value stored is the view of `s`, from before the decrement. -/
theorem pushRegister : Obligations.PushRegister := by
  refine fun src s hm => ⟨fun hwritable => ?_, fun hpast => ?_, fun hrange hcode => ?_⟩
  · exact ⟨_, commit_map_of_ok _ (State.push_of_writable (s.readView src) hwritable),
      storedAt_store64 hm _ _ rfl, s.reg_pushed (s.readView src), rfl, rfl, rfl, rfl⟩
  · exact raisesMemory_commit_map _ (State.push_of_not_inRange _ hpast)
  · exact raisesMemory_commit_map _ (State.push_of_touchesCode _ hrange hcode)

/-! ### POP -/

/-- POP is a load at SP, and then a view written over the incremented SP (42_stack.md rule R161). -/
theorem exec_popR (dst : View) (s : State) : exec (.popR dst) s = commit s .stack ((s.memRead (s.reg Reg.SP)).map
    fun v => ((s.writeView spView (s.reg Reg.SP + 8#64)).writeView dst v).clearFlags.advance) := rfl

/-- The registers with SP replaced, as a function. -/
theorem State.reg_writeView_spView_eq (s : State) (a : Word) :
    (s.writeView spView a).reg = fun r => if r = Reg.SP then a else s.reg r :=
  funext (s.reg_writeView_spView a)

/-- Settles O29: after the increment of SP, POP of a loaded value is MOV to the view (`movToView_effect`). -/
theorem popRegister : Obligations.PopRegister := by
  intro dst s
  rw [exec_popR, ← State.reg_writeView_spView_eq]
  refine ⟨fun hreadable => ?_, fun hpast => ?_⟩
  · exact ⟨_, _, loadedFrom_load64 s _, commit_map_of_ok _ (State.memRead_of_inRange hreadable),
      movToView_effect (s.writeView spView (s.reg Reg.SP + 8#64)) dst _ rfl⟩
  · exact raisesMemory_commit_map _ (State.memRead_of_not_inRange hpast)

/-! ### LEAVE -/

/-- The last of two values written to a register stays. -/
theorem State.setReg_setReg (s : State) (r : Reg) (v w : Word) : (s.setReg r v).setReg r w = s.setReg r w := by
  simp [State.setReg]

/-- A pop where SP was just set is a load at that address, and SP ends eight above it. -/
theorem State.pop_writeView_spView (s : State) (a : Word) (k : Word → State → State) :
    (s.writeView spView a).pop k = (s.memRead a).map fun v => k v (s.writeView spView (a + 8#64)) := by
  have hsp : (s.writeView spView a).readView spView = a := s.reg_setReg_self Reg.SP a
  have hwrite : ∀ b, (s.writeView spView a).writeView spView b = s.writeView spView b := s.setReg_setReg Reg.SP a
  simp only [State.pop, hsp, hwrite]
  rfl

/-- LEAVE is a load at BP, and then SP eight above the old BP and the loaded value in BP (42_stack.md rule R162). -/
theorem exec_leave (s : State) : exec .leave s = commit s .stack ((s.memRead (s.reg Reg.BP)).map
    fun v => ((s.writeView spView (s.reg Reg.BP + 8#64)).writeView bpView v).clearFlags.advance) :=
  congrArg (commit s .stack) (s.pop_writeView_spView _ _)

/-- Settles O30: the two sides of the load at BP. -/
theorem leave : Obligations.Leave := by
  intro s
  rw [exec_leave]
  refine ⟨fun hreadable => ?_, fun hpast => ?_⟩
  · refine ⟨_, _, loadedFrom_load64 s _, commit_map_of_ok _ (State.memRead_of_inRange hreadable), fun r => ?_, rfl,
      rfl, fun _ => rfl, rfl, rfl⟩
    rw [State.reg_advance, State.reg_clearFlags, State.reg_writeView_bpView, State.reg_writeView_spView]
  · exact raisesMemory_commit_map _ (State.memRead_of_not_inRange hpast)

/-! ### PUSH, then POP -/

/-- A PUSH that completes was allowed, and leaves the value of its source from before the decrement. -/
theorem exec_pushR_eq_next {src : View} {s t : State} (h : exec (.pushR src) s = .next t) :
    s.writable (s.reg Reg.SP - 8#64) ∧ t = (s.pushed (s.readView src)).clearFlags.advance := by
  obtain ⟨w, hpush, rfl⟩ := map_eq_ok.mp (commit_eq_next.mp h)
  obtain ⟨hwritable, rfl⟩ := State.push_eq_ok hpush
  exact ⟨hwritable, rfl⟩

/-- After a PUSH that completes, SP is eight lower, and the load there gives the pushed value. -/
theorem exec_pushR_next_top {src : View} {s t : State} (hm : s.mem.wf) (h : exec (.pushR src) s = .next t) :
    t.reg Reg.SP = s.reg Reg.SP - 8#64 ∧ t.memRead (t.reg Reg.SP) = .ok (s.readView src) := by
  obtain ⟨hwritable, rfl⟩ := exec_pushR_eq_next h
  have hsp : ((s.pushed (s.readView src)).clearFlags.advance).reg Reg.SP = s.reg Reg.SP - 8#64 :=
    s.reg_pushed (s.readView src) Reg.SP
  refine ⟨hsp, ?_⟩
  rw [hsp]
  exact State.memRead_store64 hm (s.readView src) hwritable.1

/-- A POP into the `Q` view of a register completes where SP can be loaded: that register takes the value, and
SP, where it is another one, its increment. -/
theorem exec_popR_Q_next {r : Reg} {v : Word} {s : State} (h : s.memRead (s.reg Reg.SP) = .ok v) :
    ∃ u, exec (.popR ⟨r, .Q⟩) s = .next u ∧
      ∀ r', u.reg r' = if r' = r then v else if r' = Reg.SP then s.reg Reg.SP + 8#64 else s.reg r' := by
  refine ⟨_, commit_map_of_ok _ h, fun r' => ?_⟩
  rw [State.reg_advance, State.reg_clearFlags, State.reg_writeView, ← State.reg_writeView_spView]
  rfl

/-- Settles O31: the POP loads what the PUSH stored (`exec_pushR_next_top`), and SP comes back by the increment,
or as the pushed value itself. -/
theorem pushThenPop : Obligations.PushThenPop := by
  rintro a ⟨r, _⟩ s t hm hpush rfl
  obtain ⟨hsp, hload⟩ := exec_pushR_next_top hm hpush
  obtain ⟨u, hpop, hreg⟩ := exec_popR_Q_next (r := r) hload
  refine ⟨fun hr => ⟨u, hpop, ?_, ?_⟩, ?_⟩
  · rw [hreg, if_neg (Ne.symm hr), if_pos rfl, hsp, BitVec.sub_add_cancel]
  · exact (hreg r).trans (if_pos rfl)
  · rintro rfl rfl
    exact ⟨u, hpop, (hreg Reg.SP).trans (if_pos rfl)⟩

end Sys2Proof.Machine
end

section
/-! CALL and RET (43_call_ret.md rules R170 to R172): a push of the next slot's address, and a pop into the pc. -/

namespace Sys2Proof.Machine

/-! ### CALL -/

/-- Both forms of CALL are `callTo`; the memory form's target is an address in the state before the instruction
(43_call_ret.md rule R170). -/
theorem exec_call {i : Instr} {target : Word} {s : State}
    (h : i = .callI target ∨ ∃ m, i = .callM m ∧ target = s.effectiveAddress m) : exec i s = callTo target s := by
  obtain rfl | ⟨m, rfl, rfl⟩ := h
  · rfl
  · rfl

/-- Settles O32: as for PUSH, the store at SP - 8 is allowed, out of range, or in range and touches the code
region. -/
theorem call : Obligations.Call := by
  intro i target s hm hi
  rw [exec_call hi]
  refine ⟨fun hwritable => ?_, fun hpast => ?_, fun hrange hcode => ?_⟩
  · exact ⟨_, commit_map_of_ok _ (State.push_of_writable s.nextPc hwritable), storedAt_store64 hm _ _ rfl,
      s.reg_pushed s.nextPc, rfl, rfl, rfl, rfl⟩
  · exact raisesMemory_commit_map _ (State.push_of_not_inRange _ hpast)
  · exact raisesMemory_commit_map _ (State.push_of_touchesCode _ hrange hcode)

/-! ### RET -/

/-- RET is a load at SP, and then the increment of SP and a jump to the loaded value (43_call_ret.md rule R171). -/
theorem exec_ret (s : State) : exec .ret s = commit s .stack ((s.memRead (s.reg Reg.SP)).map
    fun v => ((s.writeView spView (s.reg Reg.SP + 8#64)).setPc v).clearFlags) := rfl

/-- Settles O33: the two sides of the load at SP. -/
theorem returnRule : Obligations.Return := by
  intro s
  rw [exec_ret]
  refine ⟨fun hreadable => ?_, fun hpast => ?_⟩
  · exact ⟨_, _, loadedFrom_load64 s _, commit_map_of_ok _ (State.memRead_of_inRange hreadable),
      s.reg_writeView_spView _, rfl, rfl, fun _ => rfl, rfl, rfl⟩
  · exact raisesMemory_commit_map _ (State.memRead_of_not_inRange hpast)

/-! ### CALL, then RET -/

/-- A loaded value depends on its eight bytes alone. -/
theorem Memory.load64_eq_of_read_eq {m n : Memory} {p q : Nat}
    (h : ∀ j, j < 8 → m.read (p + j) = n.read (q + j)) : m.load64 p = n.load64 q :=
  eq_of_byteOf_eq fun j hj => by rw [Memory.byteOf_load64 m p hj, Memory.byteOf_load64 n q hj, h j hj]

/-- A load that succeeds answers the same in a state with the same parameters and the same eight bytes there. -/
theorem State.memRead_of_read_eq {s t : State} {a v : Word} (hc : s.config = t.config)
    (h : ∀ j, j < 8 → s.mem.read (s.physical a + j) = t.mem.read (t.physical a + j)) (hv : t.memRead a = .ok v) :
    s.memRead a = .ok v := by
  obtain ⟨hreadable, rfl⟩ := State.memRead_eq_ok hv
  have hs : s.readable a := by simpa only [State.readable, State.inRange, State.physical, hc] using hreadable
  rw [State.memRead_of_inRange hs, Memory.load64_eq_of_read_eq h]

/-- After a CALL that completes, SP is eight lower, and the load there gives the address of the next slot. -/
theorem callTo_next_top {target : Word} {s t : State} (hm : s.mem.wf) (h : callTo target s = .next t) :
    t.reg Reg.SP = s.reg Reg.SP - 8#64 ∧ t.memRead (s.reg Reg.SP - 8#64) = .ok s.nextPc := by
  obtain ⟨w, hpush, rfl⟩ := map_eq_ok.mp (commit_eq_next.mp h)
  obtain ⟨hwritable, rfl⟩ := State.push_eq_ok hpush
  exact ⟨s.reg_pushed s.nextPc Reg.SP, State.memRead_store64 hm s.nextPc hwritable.1⟩

/-- A RET completes where SP can be loaded: the pc takes the value, and SP its increment. -/
theorem exec_ret_next {v : Word} {s : State} (h : s.memRead (s.reg Reg.SP) = .ok v) :
    ∃ t, exec .ret s = .next t ∧ t.pc = v ∧ t.reg Reg.SP = s.reg Reg.SP + 8#64 :=
  ⟨_, commit_map_of_ok _ h, rfl, s.reg_writeView_spView _ Reg.SP⟩

/-- Settles O34: the RET loads what the CALL stored (`callTo_next_top`), since its eight bytes are as the CALL left
them, and the increment of SP undoes the decrement. -/
theorem callThenReturn : Obligations.CallThenReturn := by
  intro i target s t u hm hi hcall hconfig husp hbytes
  rw [exec_call hi] at hcall
  obtain ⟨htsp, htop⟩ := callTo_next_top hm hcall
  rw [htsp] at husp hbytes
  rw [husp] at hbytes
  have hload : u.memRead (u.reg Reg.SP) = .ok s.nextPc := by
    rw [husp]
    exact State.memRead_of_read_eq hconfig hbytes htop
  obtain ⟨w, hret, hpc, hsp⟩ := exec_ret_next hload
  refine ⟨w, hret, hpc, ?_⟩
  rw [hsp, husp, BitVec.sub_add_cancel]

end Sys2Proof.Machine
end

section
/-! The ALU (44_alu.md rules R181 to R183): each flag in the rule's own terms, and as the fact about unsigned or
signed numbers that it stands for. -/

namespace Sys2Proof.Machine

/-- The sign bit as bit 63, the form in which 44_alu.md writes it. -/
theorem msb_eq_getLsbD_63 (x : Word) : x.msb = x.getLsbD 63 := BitVec.msb_eq_getLsbD_last x

/-- The sign bit is 1 exactly on negative values (44_alu.md rule R183). -/
theorem msb_iff_toInt_neg (x : Word) : x.msb = true ↔ x.toInt < 0 := by
  rw [BitVec.msb_eq_toInt, decide_eq_true_iff]

/-! ### Addition -/

section
variable (a b : Word)

theorem aluAdd_cf : (aluAdd a b).flags.cf = true ↔ (a + b).toNat < a.toNat := BitVec.ult_iff_toNat_lt

theorem aluAdd_zf : (aluAdd a b).flags.zf = true ↔ a + b = 0#64 := beq_iff_eq

theorem aluAdd_sf : (aluAdd a b).flags.sf = (a + b).getLsbD 63 := msb_eq_getLsbD_63 (a + b)

theorem aluAdd_of : (aluAdd a b).flags.of = true ↔
    a.getLsbD 63 = b.getLsbD 63 ∧ (a + b).getLsbD 63 ≠ a.getLsbD 63 := by
  simp only [aluAdd, msb_eq_getLsbD_63, Bool.and_eq_true, beq_iff_eq, bne_iff_ne]

/-- The rule's sign comparison is the library's signed overflow of an addition. -/
theorem aluAdd_of_eq_saddOverflow : (aluAdd a b).flags.of = a.saddOverflow b := (BitVec.saddOverflow_eq a b).symm

/-- A 64-bit sum is below its first summand exactly when it wrapped. -/
theorem toNat_add_lt_left_iff : (a + b).toNat < a.toNat ↔ 2 ^ 64 ≤ a.toNat + b.toNat := by
  have ha := a.isLt
  have hb := b.isLt
  rw [BitVec.toNat_add]
  omega

theorem saddOverflow_iff :
    a.saddOverflow b = true ↔ ¬(-2 ^ 63 ≤ a.toInt + b.toInt ∧ a.toInt + b.toInt < 2 ^ 63) := by
  simp only [BitVec.saddOverflow, Bool.or_eq_true, decide_eq_true_iff]
  omega

end

/-- Settles O35: CF by `toNat_add_lt_left_iff`, OF as the library's signed overflow. -/
theorem additionFlagsExact : Obligations.AdditionFlagsExact := by
  refine fun a b => ⟨BitVec.toNat_add a b, ?_, ?_, msb_iff_toInt_neg (a + b), ?_⟩
  · rw [aluAdd_cf, toNat_add_lt_left_iff]
  · rw [aluAdd_zf, BitVec.toNat_eq, BitVec.toNat_add, BitVec.toNat_zero]
  · rw [aluAdd_of_eq_saddOverflow, saddOverflow_iff]

/-! ### Subtraction -/

section
variable (d s : Word)

/-- The rule's sum with the two's complement is the difference (44_alu.md rule R182). -/
theorem add_not_add_one_eq_sub : d + (~~~s + 1#64) = d - s := by
  rw [BitVec.sub_eq_add_neg, BitVec.neg_eq_not_add]

/-- `AluSub` in terms of the difference. -/
theorem aluSub_eq : aluSub d s = ⟨d - s, ⟨d.ult s, d - s == 0#64, (d - s).msb,
    s.msb != d.msb && (d - s).msb != d.msb⟩⟩ := by
  simp only [aluSub, add_not_add_one_eq_sub]

theorem aluSub_value : (aluSub d s).value = d - s := add_not_add_one_eq_sub d s

theorem aluSub_cf : (aluSub d s).flags.cf = true ↔ d.toNat < s.toNat := BitVec.ult_iff_toNat_lt

theorem aluSub_zf : (aluSub d s).flags.zf = true ↔ d - s = 0#64 := by
  rw [aluSub_eq, beq_iff_eq]

/-- ZF of a subtraction is equality of its operands. -/
theorem aluSub_zf_iff_eq : (aluSub d s).flags.zf = true ↔ d = s := (aluSub_zf d s).trans sub_eq_zero

theorem aluSub_sf : (aluSub d s).flags.sf = (d - s).getLsbD 63 := by
  rw [aluSub_eq, msb_eq_getLsbD_63]

theorem aluSub_of : (aluSub d s).flags.of = true ↔
    s.getLsbD 63 ≠ d.getLsbD 63 ∧ (d - s).getLsbD 63 ≠ d.getLsbD 63 := by
  simp only [aluSub_eq, msb_eq_getLsbD_63, Bool.and_eq_true, bne_iff_ne]

/-- The rule's sign comparison is the library's signed overflow of a subtraction. -/
theorem aluSub_of_eq_ssubOverflow : (aluSub d s).flags.of = d.ssubOverflow s := by
  rw [aluSub_eq, BitVec.ssubOverflow_eq]
  cases d.msb <;> simp

/-- A 64-bit difference exceeds its minuend exactly when it borrowed. -/
theorem lt_toNat_sub_iff : d.toNat < (d - s).toNat ↔ d.toNat < s.toNat := by
  have hd := d.isLt
  have hs := s.isLt
  rw [BitVec.toNat_sub]
  omega

theorem ssubOverflow_iff :
    d.ssubOverflow s = true ↔ ¬(-2 ^ 63 ≤ d.toInt - s.toInt ∧ d.toInt - s.toInt < 2 ^ 63) := by
  simp only [BitVec.ssubOverflow, Bool.or_eq_true, decide_eq_true_iff]
  omega

end

/-- Settles O36: both forms of CF by `lt_toNat_sub_iff`, OF as the library's signed overflow. -/
theorem subtractionFlagsExact : Obligations.SubtractionFlagsExact := by
  refine fun d s => ⟨aluSub_value d s, aluSub_cf d s, ?_, aluSub_zf_iff_eq d s, msb_iff_toInt_neg _, ?_⟩
  · rw [aluSub_cf, aluSub_value, lt_toNat_sub_iff]
  · rw [aluSub_of_eq_ssubOverflow, ssubOverflow_iff]

end Sys2Proof.Machine
end

section
/-! ADD, SUB and CMP (44_alu.md rules R190 to R192). -/

namespace Sys2Proof.Machine

/-- Writing an ALU result completes: the view takes the value, the flags are the result's, and nothing else but
the pc changes. -/
theorem writeAlu_effect (dst : View) (r : AluResult) (s : State) :
    ∃ t, writeAlu dst r s = .next t ∧ ViewWritten dst r.value s.reg t ∧ t.flags = r.flags ∧
      t.pc = s.pc + BitVec.ofNat 64 s.config.slotWidth ∧ SameMemory s t ∧ SameRest s t :=
  ⟨_, rfl, (viewWritten_writeView s dst r.value).of_regs rfl, rfl, rfl, fun _ => rfl, rfl, rfl⟩

/-- Settles O37: `writeAlu_effect`, with the flags of the 64-bit sum. -/
theorem addRegisterRegister : Obligations.AddRegisterRegister := by
  rintro src dst s a b r rfl rfl rfl
  obtain ⟨t, hexec, hwritten, hflags, hpc, hmem, hrest⟩ :=
    writeAlu_effect dst (aluAdd (s.readView dst) (s.readView src)) s
  refine ⟨t, hexec, hwritten, ?_⟩
  rw [hflags]
  exact ⟨aluAdd_cf _ _, aluAdd_zf _ _, aluAdd_sf _ _, aluAdd_of _ _, hpc, hmem, hrest⟩

/-- Settles O38: `writeAlu_effect`, with the flags of the 64-bit difference. -/
theorem subImmediateRegister : Obligations.SubImmediateRegister := by
  rintro imm dst s d r rfl rfl
  obtain ⟨t, hexec, hwritten, hflags, hpc, hmem, hrest⟩ := writeAlu_effect dst (aluSub (s.readView dst) imm) s
  refine ⟨t, hexec, hwritten, ?_⟩
  rw [add_not_add_one_eq_sub, hflags]
  exact ⟨aluSub_cf _ _, aluSub_zf _ _, aluSub_sf _ _, aluSub_of _ _, hpc, hmem, hrest⟩

/-- Settles O39: a load in range sets the flags of the loaded value minus the immediate; any other raises its
error. -/
theorem cmpImmediateMemory : Obligations.CmpImmediateMemory := by
  refine fun imm dst s => ⟨fun hreadable => ?_, fun hpast => ?_⟩
  · exact ⟨_, _, loadedFrom_load64 s _, commit_map_of_ok _ (State.memRead_of_inRange hreadable), fun _ => rfl,
      aluSub_cf _ _, aluSub_zf_iff_eq _ _, aluSub_sf _ _, aluSub_of _ _, rfl, fun _ => rfl, rfl, rfl⟩
  · exact raisesMemory_commit_map _ (State.memRead_of_not_inRange hpast)

end Sys2Proof.Machine
end

section
/-! JNE (45_branch.md rule R200): taken where ZF is 0, and a hang where its target is its own slot. -/

namespace Sys2Proof.Machine

/-! ### The instruction -/

/-- Both forms of JNE are `jneTo`; the memory form's target is an address, which is not dereferenced
(45_branch.md rule R200). -/
theorem exec_jne {i : Instr} {target : Word} {s : State}
    (h : i = .jneI target ∨ ∃ m, i = .jneM m ∧ target = s.effectiveAddress m) : exec i s = jneTo target s := by
  obtain rfl | ⟨m, rfl, rfl⟩ := h
  · rfl
  · rfl

/-- JNE is taken where ZF is 0. -/
theorem jneTo_of_zf_false {s : State} (target : Word) (hz : s.flags.zf = false) :
    jneTo target s = .next (s.setPc target).clearFlags := by
  simp [jneTo, hz]

/-- JNE goes on to the next slot where ZF is 1. -/
theorem jneTo_of_zf_true {s : State} (target : Word) (hz : s.flags.zf = true) :
    jneTo target s = .next s.advance.clearFlags := by
  simp [jneTo, hz]

/-- Settles O40: the branch is taken (`jneTo_of_zf_false`) or not (`jneTo_of_zf_true`). -/
theorem branchNotEqual : Obligations.BranchNotEqual := by
  intro i target s hi
  rw [exec_jne hi]
  cases hz : s.flags.zf with
  | false =>
    exact ⟨_, jneTo_of_zf_false target hz, fun _ => rfl, nofun, rfl, fun _ => rfl, fun _ => rfl, rfl, rfl⟩
  | true =>
    exact ⟨_, jneTo_of_zf_true target hz, nofun, fun _ => rfl, rfl, fun _ => rfl, fun _ => rfl, rfl, rfl⟩

/-! ### The branch to its own slot -/

/-- A cycle that changes nothing repeats. -/
theorem steps_of_step_self {s : State} (h : step s = .next s) (n : Nat) : Steps n s s := by
  induction n with
  | zero => rfl
  | succ n ih => exact ⟨s, h, ih⟩

/-- A run into a state whose cycle changes nothing never ends (70_reset_and_hazards.md rule R247). -/
theorem hangs_of_step_to_fixed {s t : State} (hst : step s = .next t) (htt : step t = .next t) : Hangs s := by
  intro n
  cases n with
  | zero => exact ⟨s, t, rfl, hst⟩
  | succ n => exact ⟨t, t, ⟨t, hst, steps_of_step_self htt n⟩, htt⟩

/-- Settles O44: the branch changes nothing but the flags, which it clears; from then on its cycle changes
nothing at all. -/
theorem selfBranchHangs : Obligations.SelfBranchHangs := by
  intro s slot i he hx hz hf hd hi
  have hi : i = .jneI s.pc ∨ ∃ m, i = .jneM m ∧ s.pc = s.effectiveAddress m := by simpa only [eq_comm] using hi
  have hfirst : step s = .next s.clearFlags := by
    rw [step_of_decode_ok he hx hf hd, exec_jne hi, jneTo_of_zf_false s.pc hz]
    rfl
  have hagain : step s.clearFlags = .next s.clearFlags := by
    rw [step_of_decode_ok (s := s.clearFlags) he hx hf hd, exec_jne (s := s.clearFlags) hi,
      jneTo_of_zf_false s.pc rfl]
    rfl
  exact hangs_of_step_to_fixed hfirst hagain

end Sys2Proof.Machine
end

section
/-! JMP under each value of `JMP_SEMANTICS` (45_branch.md rules R201, R202). -/

namespace Sys2Proof.Machine

/-! ### The instruction -/

/-- Both forms of JMP are `jmpTo`; the memory form's target is an address, which is not dereferenced
(45_branch.md rule R201). -/
theorem exec_jmp {i : Instr} {target : Word} {s : State}
    (h : i = .jmpI target ∨ ∃ m, i = .jmpM m ∧ target = s.effectiveAddress m) : exec i s = jmpTo target s := by
  obtain rfl | ⟨m, rfl, rfl⟩ := h
  · rfl
  · rfl

section
variable {s : State} (target : Word)

/-- With ZF = 0 every value of `JMP_SEMANTICS` jumps to the target. -/
theorem jmpPc_of_zf_false (hz : s.flags.zf = false) : jmpPc target s = target := by
  cases hj : s.config.jmpSemantics <;> simp [jmpPc, hj, hz]

theorem jmpPc_of_unconditional (hj : s.config.jmpSemantics = .unconditional) : jmpPc target s = target := by
  simp [jmpPc, hj]

theorem jmpPc_of_guardedStay (hj : s.config.jmpSemantics = .guardedStay) (hz : s.flags.zf = true) :
    jmpPc target s = s.pc := by
  simp [jmpPc, hj, hz]

theorem jmpPc_of_guardedFallthrough (hj : s.config.jmpSemantics = .guardedFallthrough) (hz : s.flags.zf = true) :
    jmpPc target s = s.nextPc := by
  simp [jmpPc, hj, hz]

end

/-- Settles O41: one lemma on `jmpPc` for ZF = 0, and one for each value of `JMP_SEMANTICS`. -/
theorem jump : Obligations.Jump := by
  intro i target s hi
  rw [exec_jmp hi]
  exact ⟨_, rfl, jmpPc_of_zf_false target, fun _ => jmpPc_of_unconditional target,
    fun hz hj => jmpPc_of_guardedStay target hj hz, fun hz hj => jmpPc_of_guardedFallthrough target hj hz,
    rfl, fun _ => rfl, fun _ => rfl, rfl, rfl⟩

/-! ### Two cycles under `GuardedStay` -/

section
variable {s : State} {slot : Text} {i : Instr} {target : Word} (he : s.error = none)
  (hx : s.pc ≠ s.config.exitPc) (hf : fetchSlot s.config s.pc = some slot)
  (hd : decode s.config.tables slot = .ok i)
  (hi : i = .jmpI target ∨ ∃ m, i = .jmpM m ∧ target = s.effectiveAddress m)
include he hx hf hd hi

/-- A cycle at a JMP. -/
theorem step_jmp : step s = .next ((s.setPc (jmpPc target s)).clearFlags) := by
  rw [step_of_decode_ok he hx hf hd, exec_jmp hi]
  rfl

/-- The first cycle of a JMP under `GuardedStay` with ZF = 1 clears the flags and does nothing else. -/
theorem step_jmp_guardedStay (hj : s.config.jmpSemantics = .guardedStay) (hz : s.flags.zf = true) :
    step s = .next s.clearFlags := by
  rw [step_jmp he hx hf hd hi, jmpPc_of_guardedStay target hj hz]
  rfl

/-- The cycle of a JMP whose flags are cleared jumps. -/
theorem step_jmp_clearFlags : step s.clearFlags = .next (s.setPc target).clearFlags := by
  rw [step_jmp (s := s.clearFlags) he hx hf hd hi, jmpPc_of_zf_false target rfl]
  rfl

/-- Under `Unconditional` a JMP jumps in one cycle. -/
theorem step_jmp_unconditional :
    step (s.withJmp .unconditional) = .next ((s.setPc target).clearFlags.withJmp .unconditional) := by
  rw [step_jmp (s := s.withJmp .unconditional) he hx hf hd hi, jmpPc_of_unconditional target rfl]
  rfl

end

/-- Settles O42: the first cycle clears the flags, the second jumps, and one cycle under `Unconditional` does
both. -/
theorem guardedJumpTakesTwoCycles : Obligations.GuardedJumpTakesTwoCycles :=
  fun s _ _ target he hx hf hd hi hj hz =>
    ⟨s.clearFlags, (s.setPc target).clearFlags, _, step_jmp_guardedStay he hx hf hd hi hj hz, rfl,
      step_jmp_clearFlags he hx hf hd hi, step_jmp_unconditional he hx hf hd hi, rfl, rfl⟩

end Sys2Proof.Machine
end

section
/-! `GuardedStay` and `Unconditional` reach the same final states (45_branch.md rule R202): every cycle but that
of a JMP with ZF = 1 is the same under both, and that one is two cycles under `GuardedStay`. -/

namespace Sys2Proof.Machine

/-! ### Changing `JMP_SEMANTICS` -/

/-- `JMP_SEMANTICS` changed and changed back. -/
theorem State.withJmp_withJmp_of_eq {s : State} {j : JmpSemantics} (k : JmpSemantics)
    (hj : s.config.jmpSemantics = j) : (s.withJmp k).withJmp j = s := by
  subst hj
  rfl

/-- Two states with one value of `JMP_SEMANTICS` are equal where they are so under another value. -/
theorem State.eq_of_withJmp_eq {s t : State} {j k : JmpSemantics} (hs : s.config.jmpSemantics = j)
    (ht : t.config.jmpSemantics = j) (h : s.withJmp k = t.withJmp k) : s = t := by
  rw [← State.withJmp_withJmp_of_eq k hs, h, State.withJmp_withJmp_of_eq k ht]

/-! ### Cycles that do not read `JMP_SEMANTICS` -/

/-- JNE does not read `JMP_SEMANTICS`. -/
theorem jneTo_withJmp_next {s t : State} {target : Word} (j : JmpSemantics) (h : jneTo target s = .next t) :
    jneTo target (s.withJmp j) = .next (t.withJmp j) := by
  cases hz : s.flags.zf with
  | false =>
    obtain rfl := Host.Outcome.next.inj ((jneTo_of_zf_false target hz).symm.trans h)
    exact jneTo_of_zf_false (s := s.withJmp j) target hz
  | true =>
    obtain rfl := Host.Outcome.next.inj ((jneTo_of_zf_true target hz).symm.trans h)
    exact jneTo_of_zf_true (s := s.withJmp j) target hz

/-- With ZF = 0 JMP does not depend on `JMP_SEMANTICS`. -/
theorem jmpTo_withJmp_next {s t : State} {target : Word} (j : JmpSemantics) (hz : s.flags.zf = false)
    (h : jmpTo target s = .next t) : jmpTo target (s.withJmp j) = .next (t.withJmp j) := by
  obtain rfl := Host.Outcome.next.inj h
  rw [jmpTo, jmpPc_of_zf_false target hz, jmpPc_of_zf_false (s := s.withJmp j) target hz]
  rfl

/-- An instruction that completes does the same under every value of `JMP_SEMANTICS`, unless it is a JMP with
ZF = 1. -/
theorem exec_withJmp_next {i : Instr} {s t : State} (j : JmpSemantics) (hi : i.opcode = .JMP → s.flags.zf = false)
    (h : exec i s = .next t) : exec i (s.withJmp j) = .next (t.withJmp j) := by
  cases i
  case movRR | movIR | addRR | subIR =>
    obtain rfl := Host.Outcome.next.inj h
    rfl
  case movMR | cmpIM | popR | leave | ret =>
    obtain ⟨v, hload, rfl⟩ := map_eq_ok.mp (commit_eq_next.mp h)
    exact commit_map_of_ok _ hload
  case movRM =>
    obtain ⟨w, hstore, rfl⟩ := map_eq_ok.mp (commit_eq_next.mp h)
    obtain ⟨hwritable, rfl⟩ := State.memWrite_eq_ok hstore
    exact commit_map_of_ok _ (State.memWrite_of_writable (s := s.withJmp j) _ hwritable)
  case pushR | callI | callM =>
    obtain ⟨w, hpush, rfl⟩ := map_eq_ok.mp (commit_eq_next.mp h)
    obtain ⟨hwritable, rfl⟩ := State.push_eq_ok hpush
    exact commit_map_of_ok _ (State.push_of_writable (s := s.withJmp j) _ hwritable)
  case jneI | jneM => exact jneTo_withJmp_next j h
  case jmpI | jmpM => exact jmpTo_withJmp_next j (hi rfl) h

/-- A running state at a JMP with ZF = 1: the one place where `JMP_SEMANTICS` matters. -/
def State.AtGuardedJmp (s : State) : Prop :=
  s.error = none ∧ s.pc ≠ s.config.exitPc ∧ s.flags.zf = true ∧
    ∃ slot i, fetchSlot s.config s.pc = some slot ∧ decode s.config.tables slot = .ok i ∧ i.opcode = .JMP

/-- A cycle that is not at a JMP with ZF = 1 is the same under every value of `JMP_SEMANTICS`. -/
theorem step_withJmp_next {s t : State} (j : JmpSemantics) (hs : ¬ s.AtGuardedJmp) (h : step s = .next t) :
    step (s.withJmp j) = .next (t.withJmp j) := by
  obtain ⟨he, hx, slot, i, hf, hd, hexec⟩ := step_eq_next h
  have hi : i.opcode = .JMP → s.flags.zf = false := fun hop =>
    Bool.eq_false_of_not_eq_true fun hz => hs ⟨he, hx, hz, slot, i, hf, hd, hop⟩
  exact (step_of_decode_ok (s := s.withJmp j) he hx hf hd).trans (exec_withJmp_next j hi hexec)

/-! ### The JMP with ZF = 1 -/

/-- Every JMP has one of the two forms, and a target. -/
theorem exists_jmp_target {i : Instr} (h : i.opcode = .JMP) (s : State) :
    ∃ target, i = .jmpI target ∨ ∃ m, i = .jmpM m ∧ target = s.effectiveAddress m := by
  cases i
  case jmpI target => exact ⟨target, .inl rfl⟩
  case jmpM m => exact ⟨s.effectiveAddress m, .inr ⟨m, rfl, rfl⟩⟩
  all_goals cases h

/-- Under `GuardedStay` a JMP with ZF = 1 goes through `s.clearFlags` to the state it reaches at once under
`Unconditional`, where `s.clearFlags` goes there as well. -/
theorem State.AtGuardedJmp.steps {s : State} (hs : s.AtGuardedJmp) (hj : s.config.jmpSemantics = .guardedStay) :
    ∃ u, step s = .next s.clearFlags ∧ step s.clearFlags = .next u ∧
      step (s.withJmp .unconditional) = .next (u.withJmp .unconditional) ∧
      step (s.clearFlags.withJmp .unconditional) = .next (u.withJmp .unconditional) := by
  obtain ⟨he, hx, hz, slot, i, hf, hd, hop⟩ := hs
  obtain ⟨target, hi⟩ := exists_jmp_target hop s
  exact ⟨(s.setPc target).clearFlags, step_jmp_guardedStay he hx hf hd hi hj hz, step_jmp_clearFlags he hx hf hd hi,
    step_jmp_unconditional he hx hf hd hi, step_jmp_unconditional (s := s.clearFlags) he hx hf hd hi⟩

/-! ### Runs -/

/-- A cycle changes nothing about the final state the run reaches. -/
theorem reachesFinal_iff_of_step {s u t : State} (h : step s = .next u) : ReachesFinal s t ↔ ReachesFinal u t := by
  constructor
  · rintro ⟨n, hsteps, hfinal⟩
    cases n with
    | zero =>
      obtain rfl : s = t := hsteps
      exact nomatch h.symm.trans (step_of_isFinal hfinal)
    | succ n =>
      obtain ⟨v, hv, hsteps⟩ := hsteps
      obtain rfl := Host.Outcome.next.inj (h.symm.trans hv)
      exact ⟨n, hsteps, hfinal⟩
  · rintro ⟨n, hsteps, hfinal⟩
    exact ⟨n + 1, ⟨u, h, hsteps⟩, hfinal⟩

/-- A run under `GuardedStay` that ends, followed under `Unconditional`: there the first of the two cycles of a
JMP with ZF = 1 is left out. -/
theorem reachesFinal_unconditional_of_steps {n : Nat} {s t : State} (hs : s.config.jmpSemantics = .guardedStay)
    (hsteps : Steps n s t) (hfinal : t.isFinal) :
    ReachesFinal (s.withJmp .unconditional) (t.withJmp .unconditional) := by
  induction n generalizing s with
  | zero =>
    obtain rfl : s = t := hsteps
    exact ⟨0, rfl, hfinal⟩
  | succ n ih =>
    obtain ⟨u, hstep, hsteps⟩ := hsteps
    have hu : u.config.jmpSemantics = .guardedStay := by rw [(step_next_rest hstep).1, hs]
    have hreach := ih hu hsteps
    by_cases hjmp : s.AtGuardedJmp
    · obtain ⟨v, hstay, -, hjump, hjump'⟩ := hjmp.steps hs
      obtain rfl := Host.Outcome.next.inj (hstep.symm.trans hstay)
      exact (reachesFinal_iff_of_step hjump).mpr ((reachesFinal_iff_of_step hjump').mp hreach)
    · exact (reachesFinal_iff_of_step (step_withJmp_next .unconditional hjmp hstep)).mpr hreach

/-- A run under `Unconditional` that ends, followed under `GuardedStay`: there a JMP with ZF = 1 takes two
cycles. -/
theorem reachesFinal_guardedStay_of_steps {n : Nat} {s t : State} (hs : s.config.jmpSemantics = .guardedStay)
    (ht : t.config.jmpSemantics = .guardedStay)
    (hsteps : Steps n (s.withJmp .unconditional) (t.withJmp .unconditional)) (hfinal : t.isFinal) :
    ReachesFinal s t := by
  induction n generalizing s with
  | zero =>
    obtain rfl := State.eq_of_withJmp_eq hs ht hsteps
    exact ⟨0, rfl, hfinal⟩
  | succ n ih =>
    obtain ⟨w, hstep, hsteps⟩ := hsteps
    by_cases hjmp : s.AtGuardedJmp
    · obtain ⟨u, hstay, hjump, hjump', -⟩ := hjmp.steps hs
      obtain rfl := Host.Outcome.next.inj (hstep.symm.trans hjump')
      have hu : u.config.jmpSemantics = .guardedStay := by
        rw [(step_next_rest hjump).1, State.clearFlags_config, hs]
      exact (reachesFinal_iff_of_step hstay).mpr ((reachesFinal_iff_of_step hjump).mpr (ih hu hsteps))
    · have hw : w.config.jmpSemantics = .unconditional := by rw [(step_next_rest hstep).1]; rfl
      have hback : step s = .next (w.withJmp .guardedStay) := by
        rw [← State.withJmp_withJmp_of_eq .unconditional hs]
        exact step_withJmp_next (s := s.withJmp .unconditional) .guardedStay hjmp hstep
      rw [← State.withJmp_withJmp_of_eq .guardedStay hw] at hsteps
      exact (reachesFinal_iff_of_step hback).mpr (ih rfl hsteps)

/-- Settles O43, one direction each by `reachesFinal_unconditional_of_steps` and
`reachesFinal_guardedStay_of_steps`. -/
theorem guardedStayAgreesWithUnconditional : Obligations.GuardedStayAgreesWithUnconditional := by
  intro s t hs ht
  constructor
  · rintro ⟨n, hsteps, hfinal⟩
    exact reachesFinal_unconditional_of_steps hs hsteps hfinal
  · rintro ⟨n, hsteps, hfinal⟩
    exact reachesFinal_guardedStay_of_steps hs ht hsteps hfinal

end Sys2Proof.Machine
end

section
/-! An instruction makes one memory access or none, and fails only through it (20_memory.md rule R57,
60_exceptions.md rules R211 to R213). -/

namespace Sys2Proof.Machine

/-- A push is a store below SP in the state before it; the new SP goes into the state the store leaves
(42_stack.md rule R160). -/
theorem State.push_map (s : State) (v : Word) (f : State → State) :
    (s.push v).map f =
      (s.memWrite (s.reg Reg.SP - 8#64) v).map fun w => f (w.writeView spView (s.reg Reg.SP - 8#64)) := by
  by_cases hr : s.inRange (s.physical (s.reg Reg.SP - 8#64))
  · cases hc : s.touchesCode (s.physical (s.reg Reg.SP - 8#64)) with
    | true => rw [State.push_of_touchesCode v hr hc, State.memWrite_of_touchesCode v hr hc, map_error, map_error]
    | false =>
      rw [State.push_of_writable v ⟨hr, hc⟩, State.memWrite_of_writable v ⟨hr, hc⟩]
      rfl
  · rw [State.push_of_not_inRange v hr, State.memWrite_of_not_inRange v hr, map_error, map_error]

/-- The execution of an instruction by its memory access in the state before it: it makes none and completes, or
commits one load, or commits one store. -/
inductive OneAccess (i : Instr) (s : State) : Prop
  | none {t : State} (hstore : storeAddress i s = .none) (hload : loadAddress i s = .none)
      (hexec : exec i s = .next t)
  | load {a : Word} {b : AccessBy} {f : Word → State} (hstore : storeAddress i s = .none)
      (hload : loadAddress i s = some a) (hexec : exec i s = commit s b ((s.memRead a).map f))
  | store {a v : Word} {b : AccessBy} {f : State → State} (hstore : storeAddress i s = some a)
      (hload : loadAddress i s = .none) (hexec : exec i s = commit s b ((s.memWrite a v).map f))

/-- Every instruction makes one memory access or none (20_memory.md rule R57). -/
theorem exec_oneAccess (i : Instr) (s : State) : OneAccess i s := by
  cases i
  case movRR | movIR | addRR | subIR | jneI | jneM | jmpI | jmpM => exact .none rfl rfl rfl
  case movMR | cmpIM => exact .load rfl rfl rfl
  case popR dst => exact .load rfl rfl (exec_popR dst s)
  case leave => exact .load rfl rfl (exec_leave s)
  case ret => exact .load rfl rfl (exec_ret s)
  case movRM => exact .store rfl rfl rfl
  case pushR | callI | callM => exact .store rfl rfl (congrArg (commit s .stack) (s.push_map _ _))

/-- Settles O49, by the access the instruction makes (`exec_oneAccess`): a load fails by its range, and a store by
its range or else by the code region. -/
theorem instructionFailsExactlyWhenItsAccessDoes : Obligations.InstructionFailsExactlyWhenItsAccessDoes := by
  intro i s
  cases exec_oneAccess i s with
  | none hstore hload hexec => exact ⟨.inl ⟨_, hexec⟩, by simp [hstore, hload], by simp [hstore]⟩
  | @load a b f hstore hload hexec =>
    have hpast (hr : ¬ s.inRange (s.physical a)) : RaisesMemory (exec i s) s .memoryOutOfRange a :=
      hexec ▸ raisesMemory_commit_map f (State.memRead_of_not_inRange hr)
    refine ⟨?_, by simpa [hstore, hload] using hpast, by simp [hstore]⟩
    by_cases hr : s.inRange (s.physical a)
    · exact .inl ⟨_, hexec.trans (commit_map_of_ok f (State.memRead_of_inRange hr))⟩
    · exact .inr (.inl ⟨a, .inr hload, hr, hpast hr⟩)
  | @store a v b f hstore hload hexec =>
    have hpast (hr : ¬ s.inRange (s.physical a)) : RaisesMemory (exec i s) s .memoryOutOfRange a :=
      hexec ▸ raisesMemory_commit_map f (State.memWrite_of_not_inRange v hr)
    have hcode (hr : s.inRange (s.physical a)) (hc : s.touchesCode (s.physical a) = true) :
        RaisesMemory (exec i s) s .storeToCode a :=
      hexec ▸ raisesMemory_commit_map f (State.memWrite_of_touchesCode v hr hc)
    refine ⟨?_, by simpa [hstore, hload] using hpast, by simpa [hstore] using hcode⟩
    by_cases hr : s.inRange (s.physical a)
    · cases hc : s.touchesCode (s.physical a) with
      | true => exact .inr (.inr ⟨a, hstore, hr, hc, hcode hr hc⟩)
      | false => exact .inl ⟨_, hexec.trans (commit_map_of_ok f (State.memWrite_of_writable v ⟨hr, hc⟩))⟩
    · exact .inr (.inl ⟨a, .inl hstore, hr, hpast hr⟩)

/-- A fault of a committed access is the access's own error, with the field `execute` (60_exceptions.md rule R212). -/
theorem commit_map_eq_fatal {α : Type} {s t : State} {b : AccessBy} {r : Except MemFault α} {f : α → State}
    {e : ErrorRecord} (h : commit s b (r.map f) = .fault (.fatal e t)) :
    ∃ m, r = .error m ∧ e.kind = m.kind ∧ e.field = .execute := by
  obtain ⟨m, hm, he⟩ := commit_eq_fault.mp h
  cases he
  exact ⟨m, map_eq_error.mp hm, rfl, rfl⟩

/-- Settles O59: the error is that of the one access (`exec_oneAccess`), and a commit gives it the field
`execute` (`commit_map_eq_fatal`). -/
theorem memoryErrorsHaveFieldExecute : Obligations.MemoryErrorsHaveFieldExecute := by
  intro i s t r h
  cases exec_oneAccess i s with
  | none _ _ hexec => exact nomatch hexec.symm.trans h
  | load _ _ hexec =>
    obtain ⟨m, hm, hkind, hfield⟩ := commit_map_eq_fatal (hexec.symm.trans h)
    obtain rfl := State.memRead_eq_error hm
    exact ⟨.inl hkind, hfield⟩
  | store _ _ hexec =>
    obtain ⟨m, hm, hkind, hfield⟩ := commit_map_eq_fatal (hexec.symm.trans h)
    obtain rfl | rfl := State.memWrite_eq_error hm
    · exact ⟨.inl hkind, hfield⟩
    · exact ⟨.inr hkind, hfield⟩

end Sys2Proof.Machine
end

section
/-! Errors are precise (60_exceptions.md rule R214). -/

namespace Sys2Proof.Machine

/-- A cycle that fails raised an error in the state before it: `raise` is the only way to a fatal fault. -/
theorem step_eq_fatal {s t : State} {r : ErrorRecord} (h : step s = .fault (.fatal r t)) :
    ∃ e, r = recordOf s e ∧ t = { s with error := some r } := by
  cases he : s.error with
  | some r' => exact nomatch (step_of_error he).symm.trans h
  | none =>
    by_cases hx : s.pc = s.config.exitPc
    · exact nomatch (step_of_isFinal ⟨he, hx⟩).symm.trans h
    · rcases step_next_or_raise he hx with ⟨u, hu⟩ | ⟨e, hraise⟩
      · exact nomatch hu.symm.trans h
      · cases hraise.symm.trans h
        exact ⟨e, rfl, rfl⟩

/-- Settles O54: what `raise` leaves (`step_eq_fatal`), and a state with an error makes no step (`step_of_error`). -/
theorem errorsArePrecise : Obligations.ErrorsArePrecise := by
  intro s t r h
  obtain ⟨e, hr, rfl⟩ := step_eq_fatal h
  exact ⟨rfl, rfl, rfl, rfl, rfl, rfl, congrArg ErrorRecord.pc hr, congrArg ErrorRecord.slotText hr, nofun,
    step_of_error rfl⟩

end Sys2Proof.Machine
end

section
/-! Slots of the test vectors (95_test_vectors.md S7, P1 to P3). -/

namespace Sys2Proof.Machine

/-- Settles O1: seven closed computations of the decoder under the default tables. -/
theorem specSlotsDecode : Obligations.SpecSlotsDecode :=
  ⟨by decide, by decide, by decide, by decide, by decide, by decide, by decide⟩

end Sys2Proof.Machine
end

section
/-! A branch reads the flags of the instruction before it (70_reset_and_hazards.md rule R250). -/

namespace Sys2Proof.Machine

/-- Settles O46: the first instruction leaves ZF at 0 (`exec_next_flags`), where a JNE is taken
(`jneTo_of_zf_false`). -/
theorem branchAfterOtherInstructionIsTaken : Obligations.BranchAfterOtherInstructionIsTaken := by
  intro i j s t target h hi hj
  have hz : t.flags.zf = false := congrArg Flags.zf (exec_next_flags h hi)
  exact ⟨_, (exec_jne hj).trans (jneTo_of_zf_false target hz), rfl⟩

end Sys2Proof.Machine
end

section
/-! How a run ends (70_reset_and_hazards.md rules R245 to R247): it stops in at most one state, and hangs exactly
when it stops in none. -/

namespace Sys2Proof.Machine

/-- The run from `s` comes to the state `t`, which has no next state. -/
def StopsAt (s t : State) : Prop := ∃ n, Steps n s t ∧ ∀ u, step t ≠ .next u

/-- No cycle leads out of a state with no next state. -/
theorem eq_of_steps_of_no_next {n : Nat} {s t : State} (hs : ∀ u, step s ≠ .next u) (h : Steps n s t) : s = t := by
  cases n with
  | zero => exact h
  | succ n =>
    obtain ⟨u, hu, -⟩ := h
    exact absurd hu (hs u)

/-- From each of its states, a run goes on to the state it stops in. -/
theorem StopsAt.exists_steps {n : Nat} {s t u : State} (ht : StopsAt s t) (hu : Steps n s u) : ∃ k, Steps k u t := by
  obtain ⟨m, hm, hstop⟩ := ht
  rcases Nat.le_total n m with h | h
  · obtain ⟨k, rfl⟩ := Nat.exists_eq_add_of_le h
    obtain ⟨v, hv, hsteps⟩ := steps_add.mp hm
    obtain rfl := steps_unique hu hv
    exact ⟨k, hsteps⟩
  · obtain ⟨k, rfl⟩ := Nat.exists_eq_add_of_le h
    obtain ⟨v, hv, hsteps⟩ := steps_add.mp hu
    obtain rfl := steps_unique hm hv
    exact ⟨0, (eq_of_steps_of_no_next hstop hsteps).symm⟩

/-- A run stops in at most one state. -/
theorem StopsAt.unique {s t u : State} (ht : StopsAt s t) (hu : StopsAt s u) : t = u := by
  obtain ⟨n, hsteps, hstop⟩ := hu
  obtain ⟨k, hk⟩ := ht.exists_steps hsteps
  exact (eq_of_steps_of_no_next hstop hk).symm

/-- A run that stops nowhere goes on from each of its states. -/
theorem exists_next_of_not_stopsAt {n : Nat} {s t : State} (hs : ∀ t, ¬ StopsAt s t) (h : Steps n s t) :
    ∃ u, step t = .next u := by
  by_contra hno
  exact hs t ⟨n, h, not_exists.mp hno⟩

/-- A run that stops nowhere has a state after any number of cycles. -/
theorem exists_steps_of_not_stopsAt {s : State} (hs : ∀ t, ¬ StopsAt s t) (n : Nat) : ∃ t, Steps n s t := by
  induction n with
  | zero => exact ⟨s, rfl⟩
  | succ n ih =>
    obtain ⟨t, ht⟩ := ih
    obtain ⟨u, hu⟩ := exists_next_of_not_stopsAt hs ht
    exact ⟨u, steps_add.mpr ⟨t, ht, u, hu, rfl⟩⟩

/-- A hang is a run that stops nowhere (70_reset_and_hazards.md rule R247). -/
theorem hangs_iff_not_stopsAt {s : State} : Hangs s ↔ ∀ t, ¬ StopsAt s t := by
  constructor
  · rintro h t ⟨n, hsteps, hstop⟩
    obtain ⟨t', u, hsteps', hu⟩ := h n
    obtain rfl := steps_unique hsteps hsteps'
    exact hstop u hu
  · intro h n
    obtain ⟨t, hsteps⟩ := exists_steps_of_not_stopsAt h n
    obtain ⟨u, hu⟩ := exists_next_of_not_stopsAt h hsteps
    exact ⟨t, u, hsteps, hu⟩

/-- A final state is one the run stops in (70_reset_and_hazards.md rule R246). -/
theorem ReachesFinal.stopsAt {s t : State} (h : ReachesFinal s t) : StopsAt s t := by
  obtain ⟨n, hsteps, hfinal⟩ := h
  exact ⟨n, hsteps, fun u hu => nomatch hu.symm.trans (step_of_isFinal hfinal)⟩

/-- A run that fails stops in the state whose cycle raises the error. -/
theorem ReachesError.exists_stopsAt {s t : State} {r : ErrorRecord} (h : ReachesError s r t) :
    ∃ u, StopsAt s u ∧ step u = .fault (.fatal r t) := by
  obtain ⟨n, u, hsteps, hfatal⟩ := h
  exact ⟨u, ⟨n, hsteps, fun v hv => nomatch hv.symm.trans hfatal⟩, hfatal⟩

/-- Cycles that complete leave no error. -/
theorem steps_error {n : Nat} {s t : State} (he : s.error = none) (h : Steps n s t) : t.error = none := by
  induction n generalizing s with
  | zero =>
    obtain rfl : s = t := h
    exact he
  | succ n ih =>
    obtain ⟨u, hu, h⟩ := h
    exact ih (step_next_rest hu).2 h

/-- A run from a state with no error stops in a final state or at an error (`step_next_or_raise`). -/
theorem StopsAt.final_or_error {s t : State} (he : s.error = none) (h : StopsAt s t) :
    ReachesFinal s t ∨ ∃ r u, ReachesError s r u := by
  obtain ⟨n, hsteps, hstop⟩ := h
  have het : t.error = none := steps_error he hsteps
  by_cases hx : t.pc = t.config.exitPc
  · exact .inl ⟨n, hsteps, het, hx⟩
  · rcases step_next_or_raise het hx with ⟨u, hu⟩ | ⟨e, hraise⟩
    · exact absurd hu (hstop u)
    · exact .inr ⟨_, _, n, t, hsteps, hraise⟩

/-- Settles O58: a run that does not hang stops (`hangs_iff_not_stopsAt`), in a final state or at an error; as it
stops in one state alone (`StopsAt.unique`), it does not do two of these. -/
theorem runEndsFailsOrHangs : Obligations.RunEndsFailsOrHangs := by
  intro s he
  refine ⟨?_, ?_, ?_⟩
  · by_cases h : ∃ t, StopsAt s t
    · obtain ⟨t, ht⟩ := h
      rcases ht.final_or_error he with hfinal | herror
      · exact .inl ⟨t, hfinal⟩
      · exact .inr (.inl herror)
    · exact .inr (.inr (hangs_iff_not_stopsAt.mpr (not_exists.mp h)))
  · rintro ⟨t, ht⟩
    refine ⟨fun r v herror => ?_, fun hhangs => hangs_iff_not_stopsAt.mp hhangs t ht.stopsAt⟩
    obtain ⟨u, hu, hfatal⟩ := herror.exists_stopsAt
    obtain rfl := ht.stopsAt.unique hu
    obtain ⟨-, -, hfinal⟩ := ht
    exact nomatch hfatal.symm.trans (step_of_isFinal hfinal)
  · intro hhangs r v herror
    obtain ⟨u, hu, -⟩ := herror.exists_stopsAt
    exact hangs_iff_not_stopsAt.mp hhangs u hu

end Sys2Proof.Machine
end
